-- ==== Sys2Proof/Word.lean ====
section
/-! DEFINITION. The word types of the block (00_scope.md R9): every data item moved on the bus is one byte,
a peer address or own slave address is seven bits, the header of a command names the bus in four bits. -/

namespace Sys2Proof

/-- One data item on the bus (R9: "every data item moved on the bus is one byte"). -/
abbrev Byte := BitVec 8

/-- A 7-bit peer address, or the slave's own address (R9). -/
abbrev Addr7 := BitVec 7

/-- The BUS field of a command's header (R87): every value decodes (R91). -/
abbrev BusField := BitVec 4

end Sys2Proof
end

