-- ==== Sys2Proof/Syntax.lean ====
section
/-! DEFINITION. The instructions of spec/opcode_table.json, one constructor a row: ten host commands (30_encoding.md
R88, R89), nine primitives a continuation returns (R80, R81), six hardware bus operations (R92). Their operands are
what stands in their words and in the operand record or reference beside the words. -/

namespace Sys2Proof

/-- A host address as the block holds one (20_memory.md R60, R61). ADDRBYTE, RCELL and WCELL live in the bus's
record but are given host addresses outside every caller buffer (R61, R62): here they are constructors of
their own, so they differ from every address of ordinary memory. DESIGN CHOICE (log 9), safe. -/
inductive Ref where
  | mem (a : Nat)              -- an ordinary host memory address
  | addrByte (b : Nat)         -- addr(ADDRBYTE[b])
  | rcell (b i : Nat)          -- addr(RCELL(b)) + i
  | wcell (b i : Nat)          -- addr(WCELL(b)) + i
  deriving DecidableEq, Repr, Inhabited

/-- `len` consecutive bytes from `base` (R61). -/
structure Buf where
  base : Ref
  len  : Nat
  deriving DecidableEq, Repr, Inhabited

/-- A registered continuation: the fixed protocol PROTO (41 R154), or one of the application's own (40 R128). -/
inductive ContId where
  | proto
  | custom (n : Nat)
  deriving DecidableEq, Repr, Inhabited

/-- The opaque user data of `start` (10_state.md R27): a caller's value, or the bus's own record `rec(b)`, which the
protocol passes (R38, 92 D44). -/
inductive UData where
  | val (n : Nat)
  | record (b : Nat)
  deriving DecidableEq, Repr, Inhabited

/-- A result callback: the application's, or the internal completion callback BLKCB of a blocking transfer (41 R176). -/
inductive CallbackId where
  | user (n : Nat)
  | blkcb
  deriving DecidableEq, Repr, Inhabited

/-- The nine Primitive tags (R80), in the source's listing order. -/
inductive PrimTag where
  | none | read | write | restart | ack | nack | stop | done | quit
  deriving DecidableEq, Repr, Inhabited

/-- The six hardware bus operations the engine drives (R92). In `ackbit`, true is 1 = NACK. -/
inductive HwOp where
  | start | restart | stop
  | tx (v : Byte)
  | rxen
  | ackbit (k : Bool)
  deriving DecidableEq, Repr, Inhabited

/-- One constructor per row of spec/opcode_table.json. -/
inductive Instr where
  -- host commands (R88, R89)
  | mStart (bus : BusField) (cont : ContId) (ud : UData)
  | mIsBusy (bus : BusField)
  | mReset (bus : BusField)
  | tAsync (bus : BusField) (a7 : Addr7) (wbase : Option Nat) (wlen : Nat) (rbase : Option Nat) (rlen : Nat) (onDone : Nat)
  | tBlock (bus : BusField) (a7 : Addr7) (wbase : Option Nat) (wlen : Nat) (rbase : Option Nat) (rlen : Nat)
  | readReg (bus : BusField) (a7 : Addr7) (reg : Byte) (obase : Option Nat) (n : Nat)
  | writeReg (bus : BusField) (a7 : Addr7) (reg : Byte) (ibase : Option Nat) (n : Nat)
  | sInit (bus : BusField) (a7 : Addr7) (msgFrom msgTo byteFrom byteTo : Nat) (prio : Int)
  | sDisable (bus : BusField)
  | sForceIdle (bus : BusField)
  -- primitives, the continuation's result (R80, R81)
  | primNone
  | read (ref : Option Ref)
  | write (ref : Option Ref)
  | restart
  | ack
  | nack
  | stop
  | done
  | quit
  -- hardware bus operations (R92)
  | hwStart
  | hwRestart
  | hwStop
  | hwTx (v : Byte)
  | hwRxen
  | hwAckbit (k : Bool)
  deriving DecidableEq, Repr, Inhabited

/-- The operand record beside a command's header (R89). An absent field is an operand the caller left out
(R90 (e)). Numbers are as wide as the caller wrote them, so that an operand too wide for its type can be refused. -/
structure OpRecord where
  cont       : Option ContId := none
  udata      : Option UData := none
  wbase      : Option Nat := none
  wlen       : Option Nat := none
  rbase      : Option Nat := none
  rlen       : Option Nat := none
  onDone     : Option Nat := none
  reg        : Option Nat := none
  obase      : Option Nat := none
  ibase      : Option Nat := none
  n          : Option Nat := none
  cbMsgFrom  : Option Nat := none
  cbMsgTo    : Option Nat := none
  cbByteFrom : Option Nat := none
  cbByteTo   : Option Nat := none
  prio       : Option Int := none
  deriving DecidableEq, Repr, Inhabited

/-- A host command as it is issued: a 16-bit header word and an operand record (R87). -/
structure CmdWord where
  header : BitVec 16
  ops    : OpRecord
  deriving DecidableEq, Repr, Inhabited

/-- An instruction as words: one of the three formats (R87, R80 with R81, R92). -/
inductive Code where
  | cmd (c : CmdWord)
  | prim (p : BitVec 4) (ref : Option Ref)
  | hw (w : BitVec 11)
  deriving DecidableEq, Repr, Inhabited

/-- What the host's code does towards the block: issue a command, or store a byte of its own to host memory
(20_memory.md R79, 70 R288: "a change the host makes"). The mainline program is a list of these, and so is what a
callback does while it runs (60 R253, R254). A callback that a custom continuation calls itself is part of that continuation's
code: what it does stands among the continuation's acts, and it gets no upcall event of its own (the model's choice, log 35). -/
inductive Act where
  | cmd (c : CmdWord)
  | store (a : Nat) (v : Byte)
  deriving DecidableEq, Repr, Inhabited

end Sys2Proof
end

