-- ==== Sys2Proof/Config.lean ====
section
/-! DEFINITION. The parameters of 00_scope.md R8 and the configuration of 10_state.md R51 (plain data, fixed at launch:
a field of State that no step changes, so that a statement about every state is a statement about every
configuration), and the free values: opaque constants with no body, for what the spec calls a draw. -/

namespace Sys2Proof

/-- ROLE(b): the role the excluded initialisation layer gave a bus (R8, 92 D25). -/
inductive Role where
  | master | slave
  deriving DecidableEq, Repr, Inhabited

/-- The limits an operand is decoded under: LEN_MAX and HOST_ADDR_BITS (R8). -/
structure Limits where
  lenMax   : Nat
  addrBits : Nat
  deriving DecidableEq, Repr, Inhabited

/-- ADMIT(CONT) (20_memory.md R62): `len` host addresses from `base` on that the custom continuation `cont` may hand to WRITE and
READ. The base is any host address: of ordinary memory, of RCELL, of WCELL or of any bus's ADDRBYTE (log 36). -/
structure Admit where
  cont : Nat
  base : Ref
  len  : Nat
  deriving DecidableEq, Repr, Inhabited

/-- The launch configuration (R8, R51). NBUS is the length of State's registry. R8 gives no meaning to a configuration outside its
legal ranges; that the model runs such a one by the same rules is its choice (log 38). `Cfg.legal` states the ranges. -/
structure Cfg where
  nbus             : Nat
  prioMin          : Int
  prioMax          : Int
  lenMax           : Nat
  addrBits         : Nat
  roles            : List Role
  richResult       : Bool
  slaveTxOnAddress : Bool
  busSeqCheck      : Bool
  mprio            : List Int        -- MPRIO(b), which the model never consults (60 R250)
  admits           : List Admit      -- ADMIT(CONT) of every custom continuation
  fatalHook        : Option Nat      -- the configured fatal-error hook (60 R240), if any
  deriving DecidableEq, Repr, Inhabited

/-- The configuration State.reset takes. RICH_RESULT, SLAVE_TX_ON_ADDRESS and BUS_SEQ_CHECK are R8's defaults; the
OPEN parameters are DESIGN CHOICE (log 7): every bus id of the 4-bit field exists, even buses are masters and odd
buses slaves. Unsafe only for a statement about State.reset itself. -/
def Cfg.default : Cfg where
  nbus := 16
  prioMin := 0
  prioMax := 7
  lenMax := 255
  addrBits := 32
  roles := [.master, .slave, .master, .slave, .master, .slave, .master, .slave,
            .master, .slave, .master, .slave, .master, .slave, .master, .slave]
  richResult := false
  slaveTxOnAddress := true
  busSeqCheck := true
  mprio := List.replicate 16 4
  admits := []
  fatalHook := none

/-- The legal values of the parameters (00_scope.md R8). No step consults it and no statement needs it: the rules run outside these
ranges too (log 38). -/
def Cfg.legal (c : Cfg) : Bool :=
  decide (1 ≤ c.nbus) && decide (c.nbus ≤ 16) && decide (c.prioMin ≤ c.prioMax) && decide (1 ≤ c.lenMax) && decide (1 ≤ c.addrBits)

/-- The operand limits of a configuration. -/
def Cfg.limits (c : Cfg) : Limits := ⟨c.lenMax, c.addrBits⟩

/-- A remote master's event (42 R204). In `address`, true is 1 = the master reads; in `dataOut`, true is 1 = NACK. -/
inductive RemoteEvent where
  | address (rw : Bool)
  | dataIn (v : Byte)
  | dataOut (a : Bool)
  | stop
  deriving DecidableEq, Repr, Inhabited

/-- One agent's turn (00_scope.md R13). BUS(b) has two steps: completion (R130) and bus fault (R137). -/
inductive Turn where
  | host
  | busComplete (b : Nat)
  | busFault (b : Nat)
  | meng (b : Nat)
  | seng (b : Nat)
  | rmaster (b : Nat) (e : RemoteEvent)
  deriving DecidableEq, Repr, Inhabited

/-- One draw (R12): a bit, a byte, a continuation's result and what an upcalled application does. A rule that
draws uses the parts it needs. -/
structure Answer where
  bit  : Bool          -- acknowledgement, nack, a callback's flag, a returned boolean
  byte : Byte          -- a received byte, a byte a callback wrote
  prim : BitVec 4      -- the code a custom continuation returns (30 R81)
  ref  : Option Ref    -- the reference beside it
  acts : List Act      -- the commands and stores of the upcalled code (60 R254)
  deriving DecidableEq, Repr, Inhabited

/-- FREE VALUE (log 1): whose turn the n-th open choice of the order of agents gives (60 R250). -/
opaque Config.freeTurn : Nat → Turn

/-- FREE VALUE (log 2): the n-th draw (R12). -/
opaque Config.freeAnswer : Nat → Answer

/-- FREE VALUE (log 3): ACKSTAT of bus b at reset (R21 "draw"). -/
opaque Config.resetAckstat : Nat → Bool

/-- FREE VALUE (log 3): RXBUF of bus b at reset. -/
opaque Config.resetRxbuf : Nat → Byte

/-- FREE VALUE (log 3): SL_DA of bus b at reset. -/
opaque Config.resetSlDa : Nat → Bool

/-- FREE VALUE (log 3): SL_RW of bus b at reset. -/
opaque Config.resetSlRw : Nat → Bool

/-- FREE VALUE (log 3): SL_RX of bus b at reset. -/
opaque Config.resetSlRx : Nat → Byte

/-- FREE VALUE (log 3): SL_TX of bus b at reset. -/
opaque Config.resetSlTx : Nat → Byte

end Sys2Proof
end

