-- ==== Sys2Proof/WellFormed.lean ====
section
/-! DEFINITION. What makes an instruction well formed under the limits LEN_MAX and HOST_ADDR_BITS: the operand
conditions of 30_encoding.md R81, R89 and R90 (d), (e). Everything else an operand's type already says. -/

namespace Sys2Proof

/-- An address fits in HOST_ADDR_BITS bits (R90 (e): "has the wrong type" otherwise). -/
def Limits.addrOk (lim : Limits) (a : Nat) : Bool := decide (a < 2 ^ lim.addrBits)

/-- A length is one a command may carry (R90 (d), 92 D4). -/
def Limits.lenOk (lim : Limits) (n : Nat) : Bool := decide (n ≤ lim.lenMax)

/-- A `*_BASE` operand: it is ⊥ when its length is 0 (R89), and a host address otherwise. -/
def Limits.baseOk (lim : Limits) (base : Option Nat) (len : Nat) : Bool :=
  match base with
  | none   => len == 0
  | some a => len != 0 && lim.addrOk a

/-- REF: a HOST_ADDR_BITS-bit host address or ⊥ (R81). -/
def Limits.refOk (lim : Limits) (ref : Option Ref) : Bool :=
  match ref with
  | some (.mem a) => lim.addrOk a
  | some (.addrByte _) | some (.rcell _ _) | some (.wcell _ _) | none => true

/-- The well-formed instructions. -/
def Instr.wellFormed (lim : Limits) : Instr → Bool
  | .mStart _ _ _ => true
  | .mIsBusy _ => true
  | .mReset _ => true
  | .tAsync _ _ wbase wlen rbase rlen _ =>
      lim.lenOk wlen && lim.lenOk rlen && lim.baseOk wbase wlen && lim.baseOk rbase rlen
  | .tBlock _ _ wbase wlen rbase rlen =>
      lim.lenOk wlen && lim.lenOk rlen && lim.baseOk wbase wlen && lim.baseOk rbase rlen
  | .readReg _ _ _ obase n => lim.lenOk n && lim.baseOk obase n
  | .writeReg _ _ _ ibase n => lim.lenOk (n + 1) && lim.baseOk ibase n
  | .sInit _ _ _ _ _ _ _ => true
  | .sDisable _ => true
  | .sForceIdle _ => true
  | .primNone => true
  | .read ref => lim.refOk ref
  | .write ref => lim.refOk ref
  | .restart => true
  | .ack => true
  | .nack => true
  | .stop => true
  | .done => true
  | .quit => true
  | .hwStart => true
  | .hwRestart => true
  | .hwStop => true
  | .hwTx _ => true
  | .hwRxen => true
  | .hwAckbit _ => true

end Sys2Proof
end

