-- ==== Sys2Proof/Decode.lean ====
section
/-! DEFINITION. The decoder, total on every word of the three formats and rejecting by name (30_encoding.md R80 to R82,
R87 to R92, R97), and after it the encoder, written from the same tables. -/

namespace Sys2Proof

/-! ### Host commands -/

/-- OPC = h[15:12] (R97). -/
def hdrOpc (h : BitVec 16) : BitVec 4 := h.extractLsb' 12 4

/-- BUS = h[11:8]. -/
def hdrBus (h : BitVec 16) : BusField := h.extractLsb' 8 4

/-- Z = h[7]. -/
def hdrZ (h : BitVec 16) : Bool := h.getLsbD 7

/-- A7 = h[6:0]. -/
def hdrA7 (h : BitVec 16) : Addr7 := h.extractLsb' 0 7

/-- The ten commands of R88. -/
inductive Cmd where
  | mStart | mIsBusy | mReset | tAsync | tBlock | readReg | writeReg | sInit | sDisable | sForceIdle
  deriving DecidableEq, Repr, Inhabited

/-- R88, and R90 (a): OPC 0x0 and 0xB to 0xF name no command. -/
def Cmd.ofOpc (opc : BitVec 4) : Option Cmd :=
  match opc with
  | 0x1#4 => some .mStart
  | 0x2#4 => some .mIsBusy
  | 0x3#4 => some .mReset
  | 0x4#4 => some .tAsync
  | 0x5#4 => some .tBlock
  | 0x6#4 => some .readReg
  | 0x7#4 => some .writeReg
  | 0x8#4 => some .sInit
  | 0x9#4 => some .sDisable
  | 0xA#4 => some .sForceIdle
  | _     => none

/-- R88, column OPC. -/
def Cmd.opc : Cmd → BitVec 4
  | .mStart => 0x1#4
  | .mIsBusy => 0x2#4
  | .mReset => 0x3#4
  | .tAsync => 0x4#4
  | .tBlock => 0x5#4
  | .readReg => 0x6#4
  | .writeReg => 0x7#4
  | .sInit => 0x8#4
  | .sDisable => 0x9#4
  | .sForceIdle => 0xA#4

/-- R88, column "takes A7". -/
def Cmd.takesA7 : Cmd → Bool
  | .tAsync | .tBlock | .readReg | .writeReg | .sInit => true
  | .mStart | .mIsBusy | .mReset | .sDisable | .sForceIdle => false

/-- Why a command is refused: (a) to (f) of R90. (f) depends on the bus's role and is found when the command executes,
after the bus check (60 R246). -/
inductive Reason where
  | reservedOpcode     -- (a)
  | reservedBit        -- (b) Z = 1
  | addressNotTaken    -- (c)
  | lengthTooLong      -- (d)
  | badOperand         -- (e)
  | wrongRole          -- (f)
  deriving DecidableEq, Repr, Inhabited

/-- R90 (d): no length operand that is there is greater than LEN_MAX; WRITE_REG needs N + 1 ≤ LEN_MAX. -/
def Cmd.lengthsOk (lim : Limits) (o : OpRecord) : Cmd → Bool
  | .tAsync | .tBlock => o.wlen.all lim.lenOk && o.rlen.all lim.lenOk
  | .readReg => o.n.all lim.lenOk
  | .writeReg => o.n.all fun n => lim.lenOk (n + 1)
  | .mStart | .mIsBusy | .mReset | .sInit | .sDisable | .sForceIdle => true

/-- A base operand as the command keeps it, or nothing where R90 (e) refuses it: a missing base beside a length above 0, or one
that is no host address. Beside a length of 0 the field is ⊥ (R89), whatever the record holds there (log 19). -/
def takeBase (lim : Limits) (base : Option Nat) (len : Nat) : Option (Option Nat) :=
  match base with
  | none => if len = 0 then some none else none
  | some a => if lim.addrOk a then some (if len = 0 then none else some a) else none

/-- A byte operand (the register selector), or nothing where it is no byte (R90 (e)). -/
def takeByte (v : Nat) : Option Byte :=
  if v < 256 then some (BitVec.ofNat 8 v) else none

/-- The command with the operands its row of R89 names; nothing where one is missing or of the wrong type (R90 (e)). -/
def Cmd.operands (lim : Limits) (bus : BusField) (a7 : Addr7) (o : OpRecord) : Cmd → Option Instr
  | .mStart =>
    match o.cont, o.udata with
    | some c, some u => some (.mStart bus c u)
    | _, _ => none
  | .mIsBusy => some (.mIsBusy bus)
  | .mReset => some (.mReset bus)
  | .tAsync =>
    match o.wlen, o.rlen, o.onDone with
    | some wl, some rl, some cb =>
      match takeBase lim o.wbase wl, takeBase lim o.rbase rl with
      | some wb, some rb => some (.tAsync bus a7 wb wl rb rl cb)
      | _, _ => none
    | _, _, _ => none
  | .tBlock =>
    match o.wlen, o.rlen with
    | some wl, some rl =>
      match takeBase lim o.wbase wl, takeBase lim o.rbase rl with
      | some wb, some rb => some (.tBlock bus a7 wb wl rb rl)
      | _, _ => none
    | _, _ => none
  | .readReg =>
    match o.reg.bind takeByte, o.n with
    | some rg, some n =>
      match takeBase lim o.obase n with
      | some ob => some (.readReg bus a7 rg ob n)
      | none => none
    | _, _ => none
  | .writeReg =>
    match o.reg.bind takeByte, o.n with
    | some rg, some n =>
      match takeBase lim o.ibase n with
      | some ib => some (.writeReg bus a7 rg ib n)
      | none => none
    | _, _ => none
  | .sInit =>
    match o.cbMsgFrom, o.cbMsgTo, o.cbByteFrom, o.cbByteTo, o.prio with
    | some f, some t, some bf, some bt, some p => some (.sInit bus a7 f t bf bt p)
    | _, _, _, _, _ => none
  | .sDisable => some (.sDisable bus)
  | .sForceIdle => some (.sForceIdle bus)

/-- The command decoder (R97): total, with the refusals (a) to (e) of R90 in that order (60 R246). -/
def decodeCmd (lim : Limits) (c : CmdWord) : Except Reason Instr :=
  match Cmd.ofOpc (hdrOpc c.header) with
  | none => .error .reservedOpcode
  | some k =>
    if hdrZ c.header then .error .reservedBit
    else if !k.takesA7 && hdrA7 c.header != 0 then .error .addressNotTaken
    else if !k.lengthsOk lim c.ops then .error .lengthTooLong
    else
      match k.operands lim (hdrBus c.header) (hdrA7 c.header) c.ops with
      | some i => .ok i
      | none => .error .badOperand

/-! ### Primitives -/

/-- The codes of R80. -/
def PrimTag.code : PrimTag → BitVec 4
  | .none => 0#4
  | .read => 1#4
  | .write => 2#4
  | .restart => 3#4
  | .ack => 4#4
  | .nack => 5#4
  | .stop => 6#4
  | .done => 7#4
  | .quit => 8#4

/-- REF as the HOST_ADDR_BITS bits a continuation returns it in (R81): a wider number stands for its low bits (log 34). -/
def takeRef (lim : Limits) (ref : Option Ref) : Option Ref :=
  match ref with
  | some (.mem a) => some (.mem (a % 2 ^ lim.addrBits))
  | some (.addrByte b) => some (.addrByte b)
  | some (.rcell b i) => some (.rcell b i)
  | some (.wcell b i) => some (.wcell b i)
  | none => none

/-- The instruction a continuation's result `(P, REF)` names (R80, R81); nothing for the reserved codes 9 to 15 (R82).
REF is read only by READ and WRITE. -/
def decodePrim (lim : Limits) (p : BitVec 4) (ref : Option Ref) : Option Instr :=
  match p with
  | 0#4 => some .primNone
  | 1#4 => some (.read (takeRef lim ref))
  | 2#4 => some (.write (takeRef lim ref))
  | 3#4 => some .restart
  | 4#4 => some .ack
  | 5#4 => some .nack
  | 6#4 => some .stop
  | 7#4 => some .done
  | 8#4 => some .quit
  | _   => none

/-! ### Hardware bus operations -/

/-- The 11-bit operation word HOP[10:8] : ARG[7:0] (R92). -/
def HwOp.word : HwOp → BitVec 11
  | .start => 0x000#11
  | .restart => 0x100#11
  | .stop => 0x200#11
  | .tx v => 3#3 ++ v
  | .rxen => 0x400#11
  | .ackbit k => bif k then 0x501#11 else 0x500#11

/-- The operation an 11-bit word names; nothing for HOP 6 and 7 and for a nonzero ARG where R92 says 0. -/
def HwOp.ofWord (w : BitVec 11) : Option HwOp :=
  let arg : Byte := w.extractLsb' 0 8
  match w.extractLsb' 8 3 with
  | 0#3 => if arg = 0 then some .start else none
  | 1#3 => if arg = 0 then some .restart else none
  | 2#3 => if arg = 0 then some .stop else none
  | 3#3 => some (.tx arg)
  | 4#3 => if arg = 0 then some .rxen else none
  | 5#3 => if arg = 0 then some (.ackbit false) else if arg = 1 then some (.ackbit true) else none
  | _   => none

/-- The instruction of a bus operation. -/
def HwOp.instr : HwOp → Instr
  | .start => .hwStart
  | .restart => .hwRestart
  | .stop => .hwStop
  | .tx v => .hwTx v
  | .rxen => .hwRxen
  | .ackbit k => .hwAckbit k

/-- The instruction an operation word names (R92). -/
def decodeHw (w : BitVec 11) : Option Instr := (HwOp.ofWord w).map HwOp.instr

/-! ### All three formats -/

/-- Why a word is no instruction. -/
inductive Reject where
  | command (r : Reason)
  | reservedPrimitive (p : BitVec 4)
  | reservedBusOp (w : BitVec 11)
  deriving DecidableEq, Repr, Inhabited

/-- The decoder of all three formats. -/
def decode (lim : Limits) : Code → Except Reject Instr
  | .cmd c =>
    match decodeCmd lim c with
    | .ok i => .ok i
    | .error r => .error (.command r)
  | .prim p ref =>
    match decodePrim lim p ref with
    | some i => .ok i
    | none => .error (.reservedPrimitive p)
  | .hw w =>
    match decodeHw w with
    | some i => .ok i
    | none => .error (.reservedBusOp w)

/-! ### The encoder -/

/-- OPC : BUS : Z = 0 : A7 (R87). -/
def headerOf (k : Cmd) (bus : BusField) (a7 : Addr7) : BitVec 16 := k.opc ++ bus ++ 0#1 ++ a7

/-- A command from its opcode, bus, address and operand record. -/
def cmdCode (k : Cmd) (bus : BusField) (a7 : Addr7) (o : OpRecord) : Code := .cmd ⟨headerOf k bus a7, o⟩

/-- The words of an instruction (R80, R87 to R89, R92). -/
def encode : Instr → Code
  | .mStart bus c u => cmdCode .mStart bus 0 { cont := some c, udata := some u }
  | .mIsBusy bus => cmdCode .mIsBusy bus 0 {}
  | .mReset bus => cmdCode .mReset bus 0 {}
  | .tAsync bus a7 wb wl rb rl cb =>
      cmdCode .tAsync bus a7 { wbase := wb, wlen := some wl, rbase := rb, rlen := some rl, onDone := some cb }
  | .tBlock bus a7 wb wl rb rl => cmdCode .tBlock bus a7 { wbase := wb, wlen := some wl, rbase := rb, rlen := some rl }
  | .readReg bus a7 rg ob n => cmdCode .readReg bus a7 { reg := some rg.toNat, obase := ob, n := some n }
  | .writeReg bus a7 rg ib n => cmdCode .writeReg bus a7 { reg := some rg.toNat, ibase := ib, n := some n }
  | .sInit bus a7 f t bf bt p =>
      cmdCode .sInit bus a7 { cbMsgFrom := some f, cbMsgTo := some t, cbByteFrom := some bf, cbByteTo := some bt, prio := some p }
  | .sDisable bus => cmdCode .sDisable bus 0 {}
  | .sForceIdle bus => cmdCode .sForceIdle bus 0 {}
  | .primNone => .prim PrimTag.none.code none
  | .read ref => .prim PrimTag.read.code ref
  | .write ref => .prim PrimTag.write.code ref
  | .restart => .prim PrimTag.restart.code none
  | .ack => .prim PrimTag.ack.code none
  | .nack => .prim PrimTag.nack.code none
  | .stop => .prim PrimTag.stop.code none
  | .done => .prim PrimTag.done.code none
  | .quit => .prim PrimTag.quit.code none
  | .hwStart => .hw HwOp.start.word
  | .hwRestart => .hw HwOp.restart.word
  | .hwStop => .hw HwOp.stop.word
  | .hwTx v => .hw (HwOp.tx v).word
  | .hwRxen => .hw HwOp.rxen.word
  | .hwAckbit k => .hw (HwOp.ackbit k).word

/-! ### The opcode table's numbering -/

/-- The operand record of zeros: what the host's table words leave out is 0. -/
def OpRecord.zeros : OpRecord where
  cont := some (.custom 0)
  udata := some (.val 0)
  wbase := some 0
  wlen := some 0
  rbase := some 0
  rlen := some 0
  onDone := some 0
  reg := some 0
  obase := some 0
  ibase := some 0
  n := some 0
  cbMsgFrom := some 0
  cbMsgTo := some 0
  cbByteFrom := some 0
  cbByteTo := some 0
  prio := some 0

/-- The words of an instruction whose bits, numbered as the opcode table numbers them, are `w` (log 24): a word of at
most 8 bits is a primitive code (its high bits must be 0) with reference host address 0; a 16-bit word with OPC = 0,
which no command has, is an 11-bit bus operation word; any other is a command's header with a record of zeros. -/
def tableCode (nbits w : Nat) : Option Code :=
  if nbits ≤ 8 then
    if w < 16 then some (.prim (BitVec.ofNat 4 w) (some (.mem 0))) else none
  else if w < 2048 then some (.hw (BitVec.ofNat 11 w))
  else if w < 65536 then some (.cmd ⟨BitVec.ofNat 16 w, .zeros⟩)
  else none

/-- What the decoder reads from an instruction whose bits are `w` (operands beside the word are zeros). -/
def decodeTableWord (nbits w : Nat) : Option Instr :=
  match tableCode nbits w with
  | none => none
  | some c =>
    match decode Cfg.default.limits c with
    | .ok i => some i
    | .error _ => none

/-- The mnemonic of an instruction, as spec/opcode_table.json spells it. -/
def Instr.mnemonic : Instr → String
  | .mStart _ _ _ => "M_START"
  | .mIsBusy _ => "M_IS_BUSY"
  | .mReset _ => "M_RESET"
  | .tAsync _ _ _ _ _ _ _ => "T_ASYNC"
  | .tBlock _ _ _ _ _ _ => "T_BLOCK"
  | .readReg _ _ _ _ _ => "READ_REG"
  | .writeReg _ _ _ _ _ => "WRITE_REG"
  | .sInit _ _ _ _ _ _ _ => "S_INIT"
  | .sDisable _ => "S_DISABLE"
  | .sForceIdle _ => "S_FORCE_IDLE"
  | .primNone => "NONE"
  | .read _ => "READ"
  | .write _ => "WRITE"
  | .restart => "RESTART"
  | .ack => "ACK"
  | .nack => "NACK"
  | .stop => "STOP"
  | .done => "DONE"
  | .quit => "QUIT"
  | .hwStart => "HW_START"
  | .hwRestart => "HW_RESTART"
  | .hwStop => "HW_STOP"
  | .hwTx _ => "HW_TX"
  | .hwRxen => "HW_RXEN"
  | .hwAckbit _ => "HW_ACKBIT"

end Sys2Proof
end

