-- ==== Sys2Proof/Machine/State.lean ====
section
/-! DEFINITION. The state of the block (10_state.md R20 to R48): the per-bus record of R21, the system-wide fields of
R44, host memory (20_memory.md R60), and the model's own fields (INVENTORY.md lists each); its reset (70 R280); and
the reasons a step can stop. A field of type Option that is `none` holds no value: the spec's ⊥ (R11). -/

namespace Sys2Proof.Machine

/-! ### The kinds of the fields -/

/-- The agents of 00_scope.md R13. -/
inductive Agent where
  | host
  | meng (b : Nat)
  | bus (b : Nat)
  | seng (b : Nat)
  | rmaster (b : Nat)
  deriving DecidableEq, Repr, Inhabited

/-- WIRE: the bus agent's phase of the wire transaction (R21 M6, 40 R129). -/
inductive Wire where
  | free | addr | mt | mr | mrData | mrEnd | peerNacked
  deriving DecidableEq, Repr, Inhabited

/-- SWIRE: the remote master's phase with this slave (R21 T6, 42 R204). -/
inductive SWire where
  | free | sw | sr | srEnd
  deriving DecidableEq, Repr, Inhabited

/-- PSTATE (30 R84), in the order of its codes 0 to 7. -/
inductive PState where
  | idle | startDone | addressDone | writeInProgress | readInProgress | ackDone | nackDone | stopDone
  deriving DecidableEq, Repr, Inhabited

/-- SSTATE (30 R85), in the order of its codes 0 to 3. -/
inductive SState where
  | idle | toMaster | fromMaster | endToMaster
  deriving DecidableEq, Repr, Inhabited

/-- RCODE (30 R86), in the order of its codes 0 to 4. -/
inductive RCode where
  | finished | nackAddress | nackRegister | nackData | internalError
  deriving DecidableEq, Repr, Inhabited

/-- The fatal codes 1 to 6 of 60 R242. -/
inductive FatalCode where
  | invalidBus | invalidPriority | busy | badPrimitive | badState | emptyTransfer
  deriving DecidableEq, Repr, Inhabited

/-- The model-fault codes 16 to 20 of 60 R243. -/
inductive ModelFault where
  | unwritten | spuriousMasterInt | resetInFlight | busSequence | slaveDesync
  deriving DecidableEq, Repr, Inhabited

/-- The answer a completed bus operation drew from the peer (40 R130). -/
inductive PeerAnswer where
  | silent
  | ackBit (a : Bool)
  | data (d : Byte)
  deriving DecidableEq, Repr, Inhabited

/-- An upcall with its arguments and what it returned (00_scope.md R12, R14). -/
inductive Upcall where
  | onDone (cb : CallbackId) (b : Nat) (result : Bool)
  | continuation (n b : Nat) (ud : UData) (nack : Bool) (p : BitVec 4) (ref : Option Ref)
  | msgFromMaster (cb b : Nat)
  | msgToMaster (cb b : Nat)
  | byteFromMaster (cb b : Nat) (v : Byte) (complete : Bool)
  | byteToMaster (cb b : Nat) (v : Byte) (last : Bool)
  | fatalHook (hook site : Nat) (info : Int)
  deriving DecidableEq, Repr, Inhabited

/-- An event of sys.TRACE (R14; 20 R60; 30 R96; 40 R130; 42 R204; 60 R240, R243). `site` is the number of the rule
that raised. -/
inductive Event where
  | issued (b : Nat) (op : HwOp)
  | completed (b : Nat) (op : HwOp) (answer : PeerAnswer)
  | upcall (u : Upcall)
  | memRead (a : Ref) (v : Byte)
  | memWrite (a : Ref) (v : Byte)
  | clockedOut (b : Nat) (v : Byte) (nack : Bool)
  | fatal (code : FatalCode) (info : Int) (site : Nat)
  | fault (code : ModelFault) (site : Nat)
  | refused (reason : Reason)
  deriving DecidableEq, Repr, Inhabited

/-! ### One bus's record -/

/-- The fields of one bus (R21), in the table's order; one bit is a Bool, true for 1. -/
structure Bus where
  busy       : Bool                       -- M0
  op         : PrimTag                    -- M1
  cont       : Option ContId              -- M2
  udata      : Option UData               -- M3
  rdest      : Option Ref                 -- M4
  inflight   : Option (BitVec 11)         -- M5: the operation word (30 R92)
  wire       : Wire                       -- M6
  ackstat    : Bool                       -- H0: true = NACK
  rxbuf      : Byte                       -- H1
  mif        : Bool                       -- H2
  pstate     : PState                     -- P0
  addr       : Option Addr7               -- P1
  wptr       : Option Ref                 -- P2
  wrem       : Nat                        -- P3
  rptr       : Option Ref                 -- P4
  rrem       : Nat                        -- P5
  result     : Bool                       -- P6
  rcb        : Option CallbackId          -- P7
  addrByte   : Option Byte                -- P8
  wsent      : Nat                        -- P9
  rcode      : Option RCode               -- P10
  blkResult  : Option Bool                -- P11
  rcell      : Option Byte                -- P12
  wcell      : List (Option Byte)         -- P13: a byte past the list's end is ⊥
  senabled   : Bool                       -- S0
  sstate     : SState                     -- S1
  saddr      : Option Addr7               -- S2
  sprio      : Option Int                 -- S3
  cbMsgFrom  : Option Nat                 -- S4
  cbMsgTo    : Option Nat                 -- S5
  cbByteFrom : Option Nat                 -- S6
  cbByteTo   : Option Nat                 -- S7
  slDa       : Bool                       -- T0: true = data
  slRw       : Bool                       -- T1: true = the master reads
  slRx       : Byte                       -- T2
  slTx       : Byte                       -- T3
  sclhold    : Bool                       -- T4
  sif        : Bool                       -- T5
  swire      : SWire                      -- T6
  handed     : List Buf                   -- the buffers handed to the current transaction (20 R62; log 12)
  deriving DecidableEq, Repr, Inhabited

/-- The record of bus `b` at system start (R21's last column, 70 R280). A draw is a free value (log 3). -/
def Bus.reset (b : Nat) : Bus where
  busy := false
  op := .none
  cont := none
  udata := none
  rdest := none
  inflight := none
  wire := .free
  ackstat := Config.resetAckstat b
  rxbuf := Config.resetRxbuf b
  mif := false
  pstate := .idle
  addr := none
  wptr := none
  wrem := 0
  rptr := none
  rrem := 0
  result := false
  rcb := none
  addrByte := none
  wsent := 0
  rcode := none
  blkResult := none
  rcell := none
  wcell := []
  senabled := false
  sstate := .idle
  saddr := none
  sprio := none
  cbMsgFrom := none
  cbMsgTo := none
  cbByteFrom := none
  cbByteTo := none
  slDa := Config.resetSlDa b
  slRw := Config.resetSlRw b
  slRx := Config.resetSlRx b
  slTx := Config.resetSlTx b
  sclhold := false
  sif := false
  swire := .free
  handed := []

/-! ### The machine's state -/

/-- The whole state. `buses` is the Bus Registry (R23): NBUS is its length. -/
structure State where
  cfg        : Cfg                        -- launch configuration (R8, R51; log 7)
  buses      : List Bus                   -- the Bus Registry (R23)
  mem        : List Host.Cell             -- host memory (20 R60), in canonical form
  sysFatal   : Option (FatalCode × Int)   -- sys.FATAL (R44)
  sysFault   : Option ModelFault          -- sys.FAULT
  sysRefused : Bool                       -- sys.REFUSED
  trace      : List Event                 -- sys.TRACE, oldest first
  actor      : Agent                      -- whose step is running; HOST between steps (60 R253)
  hostCall   : Option Nat                 -- the bus the HOST's blocking call polls (41 R151; log 10)
  ret        : Option Bool                -- what the last returning command gave back (30 R88; log 10)
  program    : List Act                   -- what the mainline still issues (log 10)
  agenda     : List Turn                  -- turns settled from outside (log 1)
  answers    : List Answer                -- draws settled from outside (log 2)
  drawn      : Nat                        -- free values drawn so far (log 1, 2)
  stuck      : List Agent                 -- the handlers that are stuck and take no further step (20 R62, 60 R253; log 6)
  deriving DecidableEq, Repr

/-- System start under a launch configuration (70 R280), a legal one or not (log 38): every field at the value of R21 and R44. -/
def State.resetWith (c : Cfg) : State where
  cfg := c
  buses := (List.range c.nbus).map Bus.reset
  mem := []
  sysFatal := none
  sysFault := none
  sysRefused := false
  trace := []
  actor := .host
  hostCall := none
  ret := none
  program := []
  agenda := []
  answers := []
  drawn := 0
  stuck := []

/-- The machine right after reset, under the default configuration (log 7). -/
def State.reset : State := State.resetWith Cfg.default

/-! ### The reasons a step can stop -/

/-- Why the machine stops. Every one is safe: the model stops where nothing of the hardware's is claimed. -/
inductive Fault where
  /-- Raised by `step` alone, at a state whose sys.FATAL, sys.FAULT or sys.REFUSED is set: "no agent has a further step"
  (10_state.md R44). Safe (log 5). -/
  | halted
  /-- Raised by T_BLOCK, READ_REG and WRITE_REG outside the mainline: a blocking command issued in interrupt context "has no
  step" (60 R253). The handler's turn takes it for the handler being stuck, a next state; `step` never answers it. Safe
  (log 6). -/
  | stuckBlockingCall
  /-- Raised by a primitive's or a bus operation's meaning when no bus's handler or bus agent is running: no bus `b` to act on.
  `step` never runs one so. Safe (log 22). -/
  | noBus
  deriving DecidableEq, Repr, Inhabited

/-- Why an instruction is not run. -/
inductive Refusal where
  /-- An arm of `exec` with no meaning yet: none is left. Safe. -/
  | notModelled (mnemonic : String)
  /-- Raised by BUS(b) alone, for an INFLIGHT word no operation has (30 R92: HOP 6, 7 and stray ARG bits are "never issued", "a
  model therefore needs no rule for those words"); no step puts one there. Safe (log 22). -/
  | reservedBusOp (w : BitVec 11)
  deriving DecidableEq, Repr, Inhabited

/-- What a step, or a meaning, answers. -/
abbrev Out := Host.Outcome State Fault Refusal

end Sys2Proof.Machine
end

