-- ==== Sys2Proof/Machine/Ops.lean ====
section
/-! DEFINITION. The named operations over the state: memory in its canonical form, the registry, the trace, draws, the
three ways of halting (60 R240, R243; 30 R96), entering an agent's step and leaving it (60 R251, R252). -/

namespace Sys2Proof.Machine

/-! ### Host memory (20_memory.md R60) -/

/-- What an address that memory does not list reads as. DESIGN CHOICE (log 8), unsafe: the spec gives host memory no
contents at start. -/
def Memory.unlisted : Byte := 0

/-- The byte at an address. -/
def Memory.read : List Host.Cell → Nat → Byte
  | [], _ => Memory.unlisted
  | (k, v) :: m, a => if k = a then v else Memory.read m a

/-- Memory with the address taken out. -/
def Memory.erase : List Host.Cell → Nat → List Host.Cell
  | [], _ => []
  | (k, v) :: m, a => if k = a then m else (k, v) :: Memory.erase m a

/-- Memory with a cell put in its place among strictly rising addresses. -/
def Memory.insert : List Host.Cell → Nat → Byte → List Host.Cell
  | [], a, v => [(a, v)]
  | (k, w) :: m, a, v =>
    if a < k then (a, v) :: (k, w) :: m
    else if k = a then (a, v) :: m
    else (k, w) :: Memory.insert m a v

/-- Memory with byte `v` at address `a`, in canonical form: writing what an unlisted address reads as removes the cell. -/
def Memory.write (m : List Host.Cell) (a : Nat) (v : Byte) : List Host.Cell :=
  if v = Memory.unlisted then Memory.erase m a else Memory.insert m a v

/-- Every address of the list is greater than `lo`, rising strictly, and no cell holds what an unlisted address reads as. -/
def Memory.wfFrom : Nat → List Host.Cell → Bool
  | _, [] => true
  | lo, (k, v) :: m => decide (lo ≤ k) && (v != Memory.unlisted) && Memory.wfFrom (k + 1) m

/-- The canonical form. -/
def Memory.wf (m : List Host.Cell) : Bool := Memory.wfFrom 0 m

/-! ### The registry and the trace -/

/-- Write bus `b`'s record (R21). -/
def State.setBus (b : Nat) (r : Bus) (s : State) : State := { s with buses := s.buses.set b r }

/-- Change bus `b`'s record where the registry has it. -/
def State.modBus (b : Nat) (f : Bus → Bus) (s : State) : State :=
  match s.buses[b]? with
  | some r => s.setBus b (f r)
  | none => s

/-- Append an event to sys.TRACE (R14). -/
def State.record (e : Event) (s : State) : State := { s with trace := s.trace ++ [e] }

/-- NBUS (R8): the number of slots of the registry (R23). -/
def State.nbus (s : State) : Nat := s.buses.length

/-- ROLE(b) (R8). A bus of the registry that the configuration's list does not name is a master: the model's choice (log 7). -/
def roleOf (c : Cfg) (b : Nat) : Role := c.roles.getD b .master

/-! ### Halting: fatal errors, model faults, refusals -/

/-- One of sys.FATAL, sys.FAULT, sys.REFUSED is set: "no agent has a further step" (R44). -/
def State.halted (s : State) : Bool := s.sysFatal.isSome || s.sysFault.isSome || s.sysRefused

/-- The upcall of the configured fatal-error hook (R240): recorded; no command it issues has a step (R241). That its code stores
nothing to host memory before the halt either is the model's choice (log 14). -/
def hookEvents (hook : Option Nat) (site : Nat) (info : Int) : List Event :=
  match hook with
  | some h => [.upcall (.fatalHook h site info)]
  | none => []

/-- `raise Fatal(code, info)` at rule `site` (60 R240): sys.FATAL is written, the event appended, the hook upcalled, the
system halted. Nothing else is written (R241). -/
def State.raiseFatal (site : Nat) (code : FatalCode) (info : Int) (s : State) : State :=
  { s with
    sysFatal := some (code, info)
    trace := s.trace ++ (.fatal code info site :: hookEvents s.cfg.fatalHook site info) }

/-- `raise Fault(code)` at rule `site` (60 R243). -/
def State.raiseFault (site : Nat) (code : ModelFault) (s : State) : State :=
  { s with sysFault := some code, trace := s.trace ++ [.fault code site] }

/-- `refuse(reason)` (30 R96). -/
def State.refuse (reason : Reason) (s : State) : State :=
  { s with sysRefused := true, trace := s.trace ++ [.refused reason] }

/-! ### Entering and leaving an agent's step -/

/-- An agent's step begins: for MENG and SENG the interrupt is taken (60 R251); the handler itself clears the pending bit
(R113, R205). -/
def State.enter (a : Agent) (s : State) : State := { s with actor := a }

/-- The step ends: the interrupt context is left and nothing is restored (60 R252). -/
def State.leave (s : State) : State := { s with actor := .host }

/-- The agent is stuck (60 R251: "the writes the step made before that point remain"; log 6): it takes no further step. -/
def State.stick (a : Agent) (s : State) : State := { s with stuck := a :: s.stuck }

/-- The bus the running agent belongs to; the HOST belongs to none. -/
def Agent.bus? : Agent → Option Nat
  | .host => none
  | .meng b => some b
  | .bus b => some b
  | .seng b => some b
  | .rmaster b => some b

/-- Act on the running agent's bus and its record: the bus `b` of 40_master_engine.md's rules. -/
def onBus (s : State) (k : Nat → Bus → Out) : Out :=
  match s.actor.bus? with
  | none => .fault .noBus
  | some b =>
    match s.buses[b]? with
    | none => .fault .noBus
    | some r => k b r

/-! ### Outcomes in sequence -/

/-- Go on with `k` unless the machine has halted or stopped: "Neither returns" (R12). -/
def andThen (o : Out) (k : State → Out) : Out :=
  match o with
  | .next s => if s.halted then .next s else k s
  | .fault e => .fault e
  | .refused e => .refused e

/-- Change the next state, if there is one. -/
def mapNext (f : State → State) (o : Out) : Out :=
  match o with
  | .next s => .next (f s)
  | .fault e => .fault e
  | .refused e => .refused e

/-! ### Draws (R12) -/

/-- The draw a rule makes now: settled from outside, or a free value (log 2). -/
def State.answer (s : State) : Answer :=
  match s.answers with
  | a :: _ => a
  | [] => Config.freeAnswer s.drawn

/-- The state after that draw. -/
def State.popAnswer (s : State) : State :=
  match s.answers with
  | _ :: as => { s with answers := as }
  | [] => { s with drawn := s.drawn + 1 }

/-- Whose turn it is (60 R250): settled from outside, or a free value (log 1). -/
def State.turn (s : State) : Turn :=
  match s.agenda with
  | t :: _ => t
  | [] => Config.freeTurn s.drawn

/-- The state after the turn has been taken from the agenda. -/
def State.popTurn (s : State) : State :=
  match s.agenda with
  | _ :: ts => { s with agenda := ts }
  | [] => { s with drawn := s.drawn + 1 }

end Sys2Proof.Machine
end

