-- ==== Sys2Proof/Machine/Operands.lean ====
section
/-! DEFINITION. Operand forms: the codes of the enumerations (30_encoding.md R84 to R86, 60 R242, R243), the address byte
(R94), pointers and buffers (20_memory.md R61, R62), one-byte accesses through a reference (R60), the bus-sequence table
(40 R129), and the spelling of a bus trace (30 R92, R93). -/

namespace Sys2Proof.Machine

/-! ### Codes -/

/-- R84. -/
def PState.code : PState → BitVec 3
  | .idle => 0
  | .startDone => 1
  | .addressDone => 2
  | .writeInProgress => 3
  | .readInProgress => 4
  | .ackDone => 5
  | .nackDone => 6
  | .stopDone => 7

/-- R84: "Every 3-bit value names a state". -/
def PState.ofCode (c : BitVec 3) : PState :=
  match c with
  | 0#3 => .idle
  | 1#3 => .startDone
  | 2#3 => .addressDone
  | 3#3 => .writeInProgress
  | 4#3 => .readInProgress
  | 5#3 => .ackDone
  | 6#3 => .nackDone
  | 7#3 => .stopDone

/-- R85. -/
def SState.code : SState → BitVec 2
  | .idle => 0
  | .toMaster => 1
  | .fromMaster => 2
  | .endToMaster => 3

/-- R85: "Every 2-bit value names a state". -/
def SState.ofCode (c : BitVec 2) : SState :=
  match c with
  | 0#2 => .idle
  | 1#2 => .toMaster
  | 2#2 => .fromMaster
  | 3#2 => .endToMaster

/-- R86. -/
def RCode.code : RCode → BitVec 3
  | .finished => 0
  | .nackAddress => 1
  | .nackRegister => 2
  | .nackData => 3
  | .internalError => 4

/-- 60 R242. -/
def FatalCode.code : FatalCode → Nat
  | .invalidBus => 1
  | .invalidPriority => 2
  | .busy => 3
  | .badPrimitive => 4
  | .badState => 5
  | .emptyTransfer => 6

/-- 60 R243. -/
def ModelFault.code : ModelFault → Nat
  | .unwritten => 16
  | .spuriousMasterInt => 17
  | .resetInFlight => 18
  | .busSequence => 19
  | .slaveDesync => 20

/-! ### The address byte -/

/-- `trunc_8((zext_8(ADDR) << 1) | rw)` (R94); true is rw = 1. -/
def addressByte (a : Addr7) (rw : Bool) : Byte :=
  ((a.setWidth 8) <<< 1) ||| (bif rw then 1#8 else 0#8)

/-! ### Pointers and buffers -/

/-- The address `k` bytes on. Host addresses are HOST_ADDR_BITS wide and wrap (log 23); ADDRBYTE is a single byte, which no
rule steps past. -/
def refAdd (bits : Nat) (r : Ref) (k : Nat) : Ref :=
  match r with
  | .mem a => .mem ((a + k) % 2 ^ bits)
  | .addrByte b => .addrByte b
  | .rcell b i => .rcell b (i + k)
  | .wcell b i => .wcell b (i + k)

/-- A pointer stepped by one byte: `WPTR + 1`, `RPTR + 1` (10_state.md R35, R36). -/
def refNext (bits : Nat) (r : Ref) : Ref := refAdd bits r 1

/-- The address is one of the buffer's consecutive bytes (R61). -/
def bufContains (bits : Nat) (buf : Buf) (r : Ref) : Bool :=
  (List.range buf.len).any fun k => refAdd bits buf.base k == r

/-- The buffer a `*_BASE` and a length name (R62); none where the base is ⊥ or the length is 0. -/
def bufOf (base : Option Ref) (len : Nat) : List Buf :=
  match base, len with
  | some r, n + 1 => [⟨r, n + 1⟩]
  | _, _ => []

/-- How many of the `len` addresses from `base` on exist: ADDRBYTE and RCELL are one byte, WCELL is LEN_MAX bytes (10_state.md
R21), and they exist on the registry's buses only (log 36). -/
def spanOf (c : Cfg) (base : Ref) (len : Nat) : Nat :=
  match base with
  | .mem _ => len
  | .addrByte b => if b < c.nbus then min len 1 else 0
  | .rcell b i => if b < c.nbus then min len (1 - i) else 0
  | .wcell b i => if b < c.nbus then min len (c.lenMax - i) else 0

/-- ADMIT(CONT) (R62): the admitted addresses of a custom continuation, a set of host addresses of any kind (log 36). PROTO
started by M_START has no buffer (M_START "names no buffer"). -/
def admitOf (c : Cfg) : ContId → List Buf
  | .proto => []
  | .custom n => (c.admits.filter fun e => e.cont == n).map fun e => ⟨e.base, spanOf c e.base e.len⟩

/-- An access to `ref` is admitted on bus `b` (R62). -/
def admitted (c : Cfg) (b : Nat) (r : Bus) (ref : Ref) : Bool :=
  ref == .addrByte b || r.handed.any fun buf => bufContains c.addrBits buf ref

/-! ### One-byte accesses (R60) -/

/-- Cell `i` of WCELL: ⊥ where nothing has been put. -/
def cellAt (l : List (Option Byte)) (i : Nat) : Option Byte := (l[i]?).getD none

/-- Put a byte in cell `i` of WCELL. -/
def setCell : List (Option Byte) → Nat → Byte → List (Option Byte)
  | [], 0, v => [some v]
  | _ :: l, 0, v => some v :: l
  | [], i + 1, v => none :: setCell [] i v
  | c :: l, i + 1, v => c :: setCell l i v

/-- The byte at a reference; nothing where it is a field that holds ⊥. -/
def State.byteAt (s : State) : Ref → Option Byte
  | .mem a => some (Memory.read s.mem a)
  | .addrByte b => (s.buses[b]?).bind fun r => r.addrByte
  | .rcell b i => (s.buses[b]?).bind fun r => if i = 0 then r.rcell else none
  | .wcell b i => (s.buses[b]?).bind fun r => cellAt r.wcell i

/-- Put byte `v` where a reference points. -/
def State.setByteAt (ref : Ref) (v : Byte) (s : State) : State :=
  match ref with
  | .mem a => { s with mem := Memory.write s.mem a v }
  | .addrByte b => s.modBus b fun r => { r with addrByte := some v }
  | .rcell b i => if i = 0 then s.modBus b fun r => { r with rcell := some v } else s
  | .wcell b i => s.modBus b fun r => { r with wcell := setCell r.wcell i v }

/-- `MemRead(addr, 1)` of a byte known to be there: recorded in sys.TRACE (R60). -/
def State.noteRead (ref : Ref) (v : Byte) (s : State) : State := s.record (.memRead ref v)

/-- `MemWrite(addr, 1, v)`, recorded in sys.TRACE (R60). -/
def State.memWrite (ref : Ref) (v : Byte) (s : State) : State := (s.setByteAt ref v).record (.memWrite ref v)

/-- A store of the host's own program (R79, 70 R288): no MemWrite of the block, so not recorded. -/
def State.hostStore (a : Nat) (v : Byte) (s : State) : State :=
  { s with mem := Memory.write s.mem (a % 2 ^ s.cfg.addrBits) v }

/-! ### The bus-sequence check -/

/-- The pairs (WIRE, operation) of R129's table. -/
def legalIn (op : HwOp) (w : Wire) : Bool :=
  match w with
  | .free => match op with
    | .start => true
    | _ => false
  | .addr => match op with
    | .tx _ => true
    | _ => false
  | .mt => match op with
    | .tx _ | .restart | .stop => true
    | _ => false
  | .mr => match op with
    | .rxen => true
    | _ => false
  | .mrData => match op with
    | .ackbit _ => true
    | _ => false
  | .mrEnd => match op with
    | .restart | .stop => true
    | _ => false
  | .peerNacked => match op with
    | .restart | .stop => true
    | _ => false

/-- WIRE after a completion, kept only when BUS_SEQ_CHECK = true (R21 M6, R129; log 18). -/
def Bus.setWire (c : Cfg) (w : Wire) (r : Bus) : Bus :=
  if c.busSeqCheck then { r with wire := w } else r

/-- `issue OP` (R12) on bus `b`, whose record is to become `r`: the bus-sequence check (R129), then INFLIGHT ← OP and the
operation in the trace (R14). What the step has written before the check stays (60 R251). -/
def State.issue (b : Nat) (r : Bus) (op : HwOp) (s : State) : State :=
  if s.cfg.busSeqCheck && !legalIn op r.wire then
    (s.setBus b r).raiseFault 129 .busSequence
  else
    (s.setBus b { r with inflight := some op.word }).record (.issued b op)

/-! ### The spelling of a bus trace -/

/-- A hexadecimal digit. -/
def hexDigit (n : Nat) : Char := "0123456789ABCDEF".toList.getD n '0'

/-- 0xNN. -/
def byteHex (v : Byte) : String := String.ofList ['0', 'x', hexDigit (v.toNat / 16), hexDigit (v.toNat % 16)]

/-- R92, column "trace spelling". -/
def spelling : HwOp → String
  | .start => "START"
  | .restart => "RESTART"
  | .stop => "STOP"
  | .tx v => "WRITE(" ++ byteHex v ++ ")"
  | .rxen => "READ"
  | .ackbit k => bif k then "NACK" else "ACK"

/-- The operations completed on bus `b`, in order (R14, R130). -/
def State.busTrace (b : Nat) (s : State) : List HwOp :=
  s.trace.filterMap fun e =>
    match e with
    | .completed c op _ => if c = b then some op else none
    | _ => none

end Sys2Proof.Machine
end

