-- ==== Sys2Proof/Machine/Flags.lean ====
section
/-! DEFINITION. The block's three flags (10_state.md R45): BUSY, the computed `nack_observed`, RESULT with its richer code
(41 R169). There are no arithmetic condition codes. -/

namespace Sys2Proof.Machine

/-- `nack_observed` (40 R115): ACKSTAT after a completed WRITE, a draw after anything else. -/
def nackObserved (r : Bus) (drawn : Bool) : Bool :=
  if r.op = .write then r.ackstat else drawn

/-- A transaction is alive exactly when a continuation is registered: BUSY and CONT set together (R24, R26). -/
def Bus.register (cont : ContId) (ud : UData) (handed : List Buf) (r : Bus) : Bus :=
  { r with busy := true, cont := some cont, udata := some ud, handed := handed }

/-- BUSY ← 0 and CONT ← ⊥ (R124, R112). -/
def Bus.deregister (r : Bus) : Bus := { r with busy := false, cont := none }

/-- A terminal row's RESULT, and its RCODE where RICH_RESULT has one (41 R169; R40). -/
def Bus.conclude (c : Cfg) (ok : Bool) (code : RCode) (r : Bus) : Bus :=
  { r with result := ok, rcode := if c.richResult then some code else r.rcode }

/-- The code of a NACKed write byte: the first byte of the write phase is the register selector (R169). -/
def nackWriteCode (r : Bus) : RCode := if r.wsent = 1 then .nackRegister else .nackData

end Sys2Proof.Machine
end

