-- ==== Sys2Proof/Machine/BusOps.lean ====
section
/-! DEFINITION. The six hardware bus operations (40_master_engine.md R130 to R136): a bus operation's meaning is its
completion on the bus whose agent runs. -/

namespace Sys2Proof.Machine

/-- What every completion ends with (R130): INFLIGHT ← none, MIF ← 1, and the completion with its answer in the trace. -/
def State.complete (b : Nat) (r : Bus) (op : HwOp) (answer : PeerAnswer) (s : State) : State :=
  (s.setBus b { r with inflight := none, mif := true }).record (.completed b op answer)

/-- HW_START (R131). -/
def execHwStart (s : State) : Out :=
  onBus s fun b r => .next (s.complete b (r.setWire s.cfg .addr) .start .silent)

/-- HW_RESTART (R132). -/
def execHwRestart (s : State) : Out :=
  onBus s fun b r => .next (s.complete b (r.setWire s.cfg .addr) .restart .silent)

/-- HW_STOP (R133). -/
def execHwStop (s : State) : Out :=
  onBus s fun b r => .next (s.complete b (r.setWire s.cfg .free) .stop .silent)

/-- WIRE after a transmitted byte (R134): the direction bit of an address byte decides; a NACK from the peer overrides. -/
def wireAfterTx (w : Wire) (v : Byte) (a : Bool) : Wire :=
  if a then .peerNacked
  else if w = .addr then (if v.getLsbD 0 then .mr else .mt)
  else .mt

/-- HW_TX(v) (R134): the acknowledgement is a draw. -/
def execHwTx (v : Byte) (s : State) : Out :=
  onBus s fun b r =>
    let a := s.answer.bit
    .next (s.popAnswer.complete b (Bus.setWire s.cfg (wireAfterTx r.wire v a) { r with ackstat := a }) (.tx v) (.ackBit a))

/-- HW_RXEN (R135): the received byte is a draw. -/
def execHwRxen (s : State) : Out :=
  onBus s fun b r =>
    let d := s.answer.byte
    .next (s.popAnswer.complete b (Bus.setWire s.cfg .mrData { r with rxbuf := d }) .rxen (.data d))

/-- HW_ACKBIT(k) (R136). -/
def execHwAckbit (k : Bool) (s : State) : Out :=
  onBus s fun b r => .next (s.complete b (r.setWire s.cfg (if k then .mrEnd else .mr)) (.ackbit k) .silent)

end Sys2Proof.Machine
end

