-- ==== Sys2Proof/Machine/Commands.lean ====
section
/-! DEFINITION. What the host commands share: the checks before a command's first write in the order of 60 R246, and the
start of a transaction (40 R110, 41 R150). -/

namespace Sys2Proof.Machine

/-- The bus check (E_INVALID_BUS, 92 D21) and then the role check (refusal (f), R90, R246) of a command raised at rule
`site`; then the command goes on with its bus and the bus's record. -/
def withBus (site : Nat) (role : Role) (bus : BusField) (s : State) (k : Nat → Bus → Out) : Out :=
  match s.buses[bus.toNat]? with
  | none => .next (s.raiseFatal site .invalidBus bus.toNat)
  | some r => if roleOf s.cfg bus.toNat = role then k bus.toNat r else .next (s.refuse .wrongRole)

/-- What M_START does once its checks have passed (R110; the order of its writes is 20 R72): BUSY, CONT, UDATA, OP ← NONE,
then `issue HW_START`. -/
def State.start (b : Nat) (r : Bus) (cont : ContId) (ud : UData) (handed : List Buf) (s : State) : State :=
  s.issue b { r.register cont ud handed with op := .none } .start

/-- The checks of a transfer in R246's order: bus, role, empty transfer, busy (R150, R151). -/
def withTransfer (site : Nat) (bus : BusField) (wlen rlen : Nat) (s : State) (k : Nat → Bus → Out) : Out :=
  withBus site .master bus s fun b r =>
    if wlen = 0 ∧ rlen = 0 then .next (s.raiseFatal site .emptyTransfer b)
    else if r.busy then .next (s.raiseFatal site .busy b)
    else k b r

/-- The transaction record a transfer seeds (R150). -/
def Bus.seed (c : Cfg) (a7 : Addr7) (wptr : Option Ref) (wlen : Nat) (rptr : Option Ref) (rlen : Nat) (rcb : CallbackId)
    (r : Bus) : Bus :=
  { r with
    addr := some a7
    wptr := wptr
    wrem := wlen
    rptr := rptr
    rrem := rlen
    result := false
    rcb := some rcb
    wsent := if c.richResult then 0 else r.wsent
    rcode := if c.richResult then none else r.rcode
    pstate := .startDone }

/-- T_ASYNC once its checks have passed (R150): the record is seeded, its two buffers and `more`, a buffer the command's own record
names beside them, are handed over (20 R62), and PROTO is started with the bus's own record as user data (92 D44). -/
def State.launch (b : Nat) (r : Bus) (a7 : Addr7) (wptr : Option Ref) (wlen : Nat) (rptr : Option Ref) (rlen : Nat)
    (rcb : CallbackId) (more : List Buf) (s : State) : State :=
  s.start b (r.seed s.cfg a7 wptr wlen rptr rlen rcb) .proto (.record b) (more ++ bufOf wptr wlen ++ bufOf rptr rlen)

/-- The first HOST step of a blocking transfer (R151): BLK_RESULT ← ⊥, then T_ASYNC with BLKCB; the HOST is then inside the
call and polls. -/
def State.launchBlock (b : Nat) (r : Bus) (a7 : Addr7) (wptr : Option Ref) (wlen : Nat) (rptr : Option Ref) (rlen : Nat)
    (more : List Buf) (s : State) : State :=
  ({ s with hostCall := some b }).launch b { r with blkResult := none } a7 wptr wlen rptr rlen .blkcb more

/-- A blocking command has no step outside the mainline (60 R253, 92 D51). This comes after the decoder's refusals (a) to (e) and
before the bus check: R246 does not place it (log 32). -/
def onMainline (s : State) (k : Out) : Out :=
  if s.actor = .host then k else .fault .stuckBlockingCall

/-- What `for i in 0 .. n-1: MemRead(base + i, 1)` reads (R153). -/
def State.readRun (s : State) (base n : Nat) : List (Ref × Byte) :=
  (List.range n).map fun i =>
    let a := (base + i) % 2 ^ s.cfg.addrBits
    (.mem a, Memory.read s.mem a)

/-- WCELL with `bytes` in its first cells; the cells after them keep what they held (R153). -/
def fillCells (bytes : List Byte) (old : List (Option Byte)) : List (Option Byte) :=
  bytes.map some ++ old.drop bytes.length

/-- The MemReads of a run, recorded (20 R60). -/
def State.noteReads (reads : List (Ref × Byte)) (s : State) : State :=
  { s with trace := s.trace ++ reads.map fun p => .memRead p.1 p.2 }

end Sys2Proof.Machine
end

