-- ==== Sys2Proof/Machine/MasterCommands.lean ====
section
/-! DEFINITION. The commands of the Master Byte Engine (40_master_engine.md R110 to R112). -/

namespace Sys2Proof.Machine

/-- M_START (R110). The custom continuation's admitted set is ADMIT(CONT) (20 R62). -/
def execMStart (bus : BusField) (cont : ContId) (ud : UData) (s : State) : Out :=
  withBus 110 .master bus s fun b r =>
    if r.busy then .next (s.raiseFatal 110 .busy b)
    else .next (s.start b r cont ud (admitOf s.cfg cont))

/-- M_IS_BUSY (R111): returns BUSY. -/
def execMIsBusy (bus : BusField) (s : State) : Out :=
  withBus 111 .master bus s fun _ r => .next { s with ret := some r.busy }

/-- M_RESET (R112): F_RESET_IN_FLIGHT while an operation is in flight or its interrupt pending, else BUSY ← 0, CONT ← ⊥ and
no other field written. -/
def execMReset (bus : BusField) (s : State) : Out :=
  withBus 112 .master bus s fun b r =>
    if r.inflight.isSome || r.mif then .next (s.raiseFault 112 .resetInFlight)
    else .next (s.setBus b r.deregister)

end Sys2Proof.Machine
end

