-- ==== Sys2Proof/Machine/Primitives.lean ====
section
/-! DEFINITION. The nine primitives (40_master_engine.md R117 to R126): what the dispatch of a continuation's result does on
the bus whose handler runs. Each writes OP first (R117), but for NONE, which is fatal before OP is written (R126). -/

namespace Sys2Proof.Machine

/-- NONE (R126): `raise Fatal(E_BAD_PRIMITIVE, 0)`. -/
def execPrimNone (s : State) : Out := .next (s.raiseFatal 126 .badPrimitive 0)

/-- READ (R118): RDEST ← ref, `issue HW_RXEN`. -/
def execRead (ref : Option Ref) (s : State) : Out :=
  onBus s fun b r => .next (s.issue b { r with op := .read, rdest := ref } .rxen)

/-- WRITE (R119): the byte is read now (20 R79). On an unadmitted reference, or none (log 21), the running handler is stuck after
the write of OP (20 R62, 60 R251); a cell that holds ⊥ is F_UNWRITTEN (R11). -/
def execWrite (ref : Option Ref) (s : State) : Out :=
  onBus s fun b r =>
    match ref with
    | none => .next ((s.setBus b { r with op := .write }).stick s.actor)
    | some a =>
      if admitted s.cfg b r a then
        match s.byteAt a with
        | none => .next ((s.setBus b { r with op := .write }).raiseFault 119 .unwritten)
        | some v => .next ((s.noteRead a v).issue b { r with op := .write } (.tx v))
      else .next ((s.setBus b { r with op := .write }).stick s.actor)

/-- RESTART (R120): `issue HW_RESTART`. -/
def execRestart (s : State) : Out :=
  onBus s fun b r => .next (s.issue b { r with op := .restart } .restart)

/-- ACK (R121): `issue HW_ACKBIT(0)`. -/
def execAck (s : State) : Out :=
  onBus s fun b r => .next (s.issue b { r with op := .ack } (.ackbit false))

/-- NACK (R122): `issue HW_ACKBIT(1)`. -/
def execNack (s : State) : Out :=
  onBus s fun b r => .next (s.issue b { r with op := .nack } (.ackbit true))

/-- STOP (R123): `issue HW_STOP`; BUSY stays 1. -/
def execStop (s : State) : Out :=
  onBus s fun b r => .next (s.issue b { r with op := .stop } .stop)

/-- DONE (R124): BUSY ← 0, CONT ← ⊥; no bus operation. -/
def execDone (s : State) : Out :=
  onBus s fun b r => .next (s.setBus b { r.deregister with op := .done })

/-- QUIT (R125): nothing beyond OP ← QUIT. -/
def execQuit (s : State) : Out :=
  onBus s fun b r => .next (s.setBus b { r with op := .quit })

end Sys2Proof.Machine
end

