-- ==== Sys2Proof/Machine/SlaveCommands.lean ====
section
/-! DEFINITION. The commands of the Slave Byte Engine (42_slave_engine.md R200 to R202). -/

namespace Sys2Proof.Machine

/-- S_INIT (R200). -/
def execSInit (bus : BusField) (a7 : Addr7) (msgFrom msgTo byteFrom byteTo : Nat) (prio : Int) (s : State) : Out :=
  withBus 200 .slave bus s fun b r =>
    if prio < s.cfg.prioMin ∨ s.cfg.prioMax < prio then .next (s.raiseFatal 200 .invalidPriority prio)
    else
      .next (s.setBus b
        { r with
          saddr := some a7
          cbMsgFrom := some msgFrom
          cbMsgTo := some msgTo
          cbByteFrom := some byteFrom
          cbByteTo := some byteTo
          sprio := some prio
          sstate := .idle
          sif := false
          sclhold := false
          senabled := true })

/-- S_DISABLE (R201): the configuration is kept. -/
def execSDisable (bus : BusField) (s : State) : Out :=
  withBus 201 .slave bus s fun b r =>
    .next (s.setBus b { r with senabled := false, sstate := .idle, sif := false, sclhold := false })

/-- S_FORCE_IDLE (R202): "No other field is written". -/
def execSForceIdle (bus : BusField) (s : State) : Out :=
  withBus 202 .slave bus s fun b r => .next (s.setBus b { r with sstate := .idle })

end Sys2Proof.Machine
end

