-- ==== Sys2Proof/Machine/TransferCommands.lean ====
section
/-! DEFINITION. The commands of the Master Transaction Protocol (41_master_protocol.md R150 to R153). -/

namespace Sys2Proof.Machine

/-- T_ASYNC (R150). -/
def execTAsync (bus : BusField) (a7 : Addr7) (wbase : Option Nat) (wlen : Nat) (rbase : Option Nat) (rlen : Nat) (onDone : Nat)
    (s : State) : Out :=
  withTransfer 150 bus wlen rlen s fun b r =>
    .next (s.launch b r a7 (wbase.map .mem) wlen (rbase.map .mem) rlen (.user onDone) [])

/-- T_BLOCK's first step (R151); its poll iterations are HOST steps of their own (`hostPoll`). -/
def execTBlock (bus : BusField) (a7 : Addr7) (wbase : Option Nat) (wlen : Nat) (rbase : Option Nat) (rlen : Nat) (s : State) : Out :=
  onMainline s <| withTransfer 151 bus wlen rlen s fun b r =>
    .next (s.launchBlock b r a7 (wbase.map .mem) wlen (rbase.map .mem) rlen [])

/-- READ_REG (R152): `write=[register]` from RCELL, then `read=out_buf[n]`. RCELL is written after the checks (60 R241;
log 15). -/
def execReadReg (bus : BusField) (a7 : Addr7) (reg : Byte) (obase : Option Nat) (n : Nat) (s : State) : Out :=
  onMainline s <| withTransfer 152 bus 1 n s fun b r =>
    .next (s.launchBlock b { r with rcell := some reg } a7 (some (.rcell b 0)) 1 (obase.map .mem) n [])

/-- WRITE_REG (R153): `write=[register]+in_buf[n]` from WCELL, filled at command time (92 D42) after the checks (60 R241;
log 15). The record names (IBASE, N) and the wrapper passes WCELL to T_BLOCK, so both are handed over (20 R62). A missing IBASE with
N > 0 is R90 (e), which the decoder refuses; refused here too (log 28). -/
def execWriteReg (bus : BusField) (a7 : Addr7) (reg : Byte) (ibase : Option Nat) (n : Nat) (s : State) : Out :=
  onMainline s <|
    match ibase with
    | some base =>
      withTransfer 153 bus (n + 1) 0 s fun b r =>
        let reads := s.readRun base n
        .next ((s.noteReads reads).launchBlock b { r with wcell := fillCells (reg :: reads.map (·.2)) r.wcell } a7
          (some (.wcell b 0)) (n + 1) none 0 (bufOf (some (.mem base)) n))
    | none =>
      if n = 0 then
        withTransfer 153 bus 1 0 s fun b r =>
          .next (s.launchBlock b { r with wcell := fillCells [reg] r.wcell } a7 (some (.wcell b 0)) 1 none 0 [])
      else .next (s.refuse .badOperand)

end Sys2Proof.Machine
end

