-- ==== Sys2Proof/Machine/Dispatch.lean ====
section
/-! DEFINITION. One arm per constructor of Instr: a direct call of its meaning. -/

namespace Sys2Proof.Machine

def exec (i : Instr) (s : State) : Host.Outcome State Fault Refusal :=
  match i with
  | .mStart bus cont ud => Sys2Proof.Machine.execMStart bus cont ud s
  | .mIsBusy bus => Sys2Proof.Machine.execMIsBusy bus s
  | .mReset bus => Sys2Proof.Machine.execMReset bus s
  | .tAsync bus a7 wbase wlen rbase rlen onDone => Sys2Proof.Machine.execTAsync bus a7 wbase wlen rbase rlen onDone s
  | .tBlock bus a7 wbase wlen rbase rlen => Sys2Proof.Machine.execTBlock bus a7 wbase wlen rbase rlen s
  | .readReg bus a7 reg obase n => Sys2Proof.Machine.execReadReg bus a7 reg obase n s
  | .writeReg bus a7 reg ibase n => Sys2Proof.Machine.execWriteReg bus a7 reg ibase n s
  | .sInit bus a7 msgFrom msgTo byteFrom byteTo prio => Sys2Proof.Machine.execSInit bus a7 msgFrom msgTo byteFrom byteTo prio s
  | .sDisable bus => Sys2Proof.Machine.execSDisable bus s
  | .sForceIdle bus => Sys2Proof.Machine.execSForceIdle bus s
  | .primNone => Sys2Proof.Machine.execPrimNone s
  | .read ref => Sys2Proof.Machine.execRead ref s
  | .write ref => Sys2Proof.Machine.execWrite ref s
  | .restart => Sys2Proof.Machine.execRestart s
  | .ack => Sys2Proof.Machine.execAck s
  | .nack => Sys2Proof.Machine.execNack s
  | .stop => Sys2Proof.Machine.execStop s
  | .done => Sys2Proof.Machine.execDone s
  | .quit => Sys2Proof.Machine.execQuit s
  | .hwStart => Sys2Proof.Machine.execHwStart s
  | .hwRestart => Sys2Proof.Machine.execHwRestart s
  | .hwStop => Sys2Proof.Machine.execHwStop s
  | .hwTx v => Sys2Proof.Machine.execHwTx v s
  | .hwRxen => Sys2Proof.Machine.execHwRxen s
  | .hwAckbit k => Sys2Proof.Machine.execHwAckbit k s

end Sys2Proof.Machine
end

