-- ==== Sys2Proof/Machine/Application.lean ====
section
/-! DEFINITION. Running what the host's code issues: a decoded command (30_encoding.md R96, R97), and the commands and
stores of upcalled code inside the step that upcalls it (60 R253, R254; 92 D36). -/

namespace Sys2Proof.Machine

/-- A command as issued: decoded under the launch limits, refused with its reason, or executed (R96, R97). -/
def runCmd (c : CmdWord) (s : State) : Out :=
  match decodeCmd s.cfg.limits c with
  | .ok i => exec i s
  | .error e => .next (s.refuse e)

/-- What upcalled code does, in its order; a halt ends it (R12). What a callback does that this code calls itself is among
these acts, with no upcall event (log 35). -/
def runActs : List Act → State → Out
  | [], s => .next s
  | .store a v :: acts, s => runActs acts (s.hostStore a v)
  | .cmd c :: acts, s => andThen (runCmd c s) fun s' => runActs acts s'

/-- `upcall cb(args) -> v` (R12): the upcall in the trace, then what the application does in it (log 13). -/
def upcall (u : Upcall) (acts : List Act) (s : State) : Out := runActs acts (s.record (.upcall u))

/-- Dispatch of a continuation's result `(P, REF)` (40 R117): the decoded primitive is executed; a reserved code is
E_BAD_PRIMITIVE (30 R82). -/
def dispatch (p : BitVec 4) (ref : Option Ref) (s : State) : Out :=
  match decodePrim s.cfg.limits p ref with
  | some i => exec i s
  | none => .next (s.raiseFatal 126 .badPrimitive p.toNat)

end Sys2Proof.Machine
end

