-- ==== Sys2Proof/Machine/Protocol.lean ====
section
/-! DEFINITION. The continuation PROTO (41_master_protocol.md R154) and its state table, one definition a kind of row (R155
to R168), with the internal completion callback BLKCB (R176). -/

namespace Sys2Proof.Machine

/-- What one call of PROTO comes to: the pair it returns with the record its row wrote, the upcall of the STOP_DONE row, or
what it raises. -/
inductive Row where
  | ret (p : PrimTag) (ref : Option Ref) (r : Bus)
  | onDone (cb : CallbackId) (result : Bool)
  | unwritten (site : Nat)
  | badState
  deriving DecidableEq, Repr

/-- R155: the address byte goes into ADDRBYTE, and WRITE is pointed at it; rw = 0 exactly when W > 0. -/
def rowStartDone (b : Nat) (r : Bus) : Row :=
  match r.addr with
  | none => .unwritten 155
  | some a =>
    .ret .write (some (.addrByte b))
      { r with addrByte := some (addressByte a (r.wrem == 0)), pstate := .addressDone }

/-- R157 and R161: "emit WRITE(next write byte), W--". -/
def rowWriteByte (site : Nat) (c : Cfg) (r : Bus) : Row :=
  match r.wptr with
  | none => .unwritten site
  | some ref =>
    .ret .write (some ref)
      { r with
        wptr := some (refNext c.addrBits ref)
        wrem := r.wrem - 1
        wsent := if c.richResult then r.wsent + 1 else r.wsent
        pstate := .writeInProgress }

/-- R158 and R166: "emit READ(into next read slot), R--". In ACK_DONE, R > 0 by R164; a zero count stays zero (log 20). -/
def rowReadSlot (site : Nat) (c : Cfg) (r : Bus) : Row :=
  match r.rptr with
  | none => .unwritten site
  | some ref =>
    .ret .read (some ref)
      { r with rptr := some (refNext c.addrBits ref), rrem := r.rrem - 1, pstate := .readInProgress }

/-- R156, R159, R160, R163: "emit STOP, result=…". -/
def rowStop (c : Cfg) (ok : Bool) (code : RCode) (r : Bus) : Row :=
  .ret .stop none { r.conclude c ok code with pstate := .stopDone }

/-- The row PROTO executes (R154): by PSTATE, `nack`, W and R. -/
def protoRow (c : Cfg) (b : Nat) (nack : Bool) (r : Bus) : Row :=
  match r.pstate with
  | .idle => .badState
  | .startDone => rowStartDone b r
  | .addressDone =>
    if nack then rowStop c false .nackAddress r                       -- R156
    else if 0 < r.wrem then rowWriteByte 157 c r                      -- R157
    else if 0 < r.rrem then rowReadSlot 158 c r                       -- R158
    else rowStop c true .finished r                                   -- R159
  | .writeInProgress =>
    if nack then rowStop c false (nackWriteCode r) r                  -- R160
    else if 0 < r.wrem then rowWriteByte 161 c r                      -- R161
    else if 0 < r.rrem then .ret .restart none { r with pstate := .startDone }   -- R162
    else rowStop c true .finished r                                   -- R163
  | .readInProgress =>
    if 0 < r.rrem then .ret .ack none { r with pstate := .ackDone }   -- R164
    else .ret .nack none { r.conclude c true .finished with pstate := .nackDone }   -- R165
  | .ackDone => rowReadSlot 166 c r                                   -- R166
  | .nackDone => .ret .stop none { r with pstate := .stopDone }       -- R167
  | .stopDone =>                                                      -- R168
    match r.rcb with
    | none => .unwritten 168
    | some cb => .onDone cb r.result

/-- The end of the STOP_DONE row (R168), after the callback: PSTATE ← IDLE, and DONE is returned. -/
def finishTransfer (b : Nat) (s : State) : Out :=
  dispatch PrimTag.done.code none (s.modBus b fun r => { r with pstate := .idle })

/-- The result callback (R168): the application's, which may issue commands while BUSY is still 1, or BLKCB, which stores
BLK_RESULT "and nothing else" (R176). -/
def runOnDone (cb : CallbackId) (b : Nat) (result : Bool) (s : State) : Out :=
  match cb with
  | .blkcb => .next ((s.record (.upcall (.onDone .blkcb b result))).modBus b fun r => { r with blkResult := some result })
  | .user n => upcall (.onDone (.user n) b result) s.answer.acts s.popAnswer

/-- PROTO (R154) and the dispatch of what it returns. -/
def runProto (b : Nat) (nack : Bool) (r : Bus) (s : State) : Out :=
  match protoRow s.cfg b nack r with
  | .ret p ref r' => dispatch p.code ref (s.setBus b r')
  | .onDone cb result => andThen (runOnDone cb b result s) fun s' => finishTransfer b s'
  | .unwritten site => .next (s.raiseFault site .unwritten)
  | .badState => .next (s.raiseFatal 154 .badState 0)

end Sys2Proof.Machine
end

