-- ==== Sys2Proof/Machine/MasterIsr.lean ====
section
/-! DEFINITION. The master completion interrupt's handler (40_master_engine.md R113 to R117): one atomic step of MENG(b). -/

namespace Sys2Proof.Machine

/-- The continuation call and the dispatch of its result (R116, R117). `d` is the step's draw: a custom continuation's result
and what it does (R254); PROTO computes its own. A custom continuation's call is recorded as an upcall; a call of PROTO, whose
body the spec gives, is not (log 31). -/
def callContinuation (b : Nat) (nack : Bool) (d : Answer) (s : State) : Out :=
  match s.buses[b]? with
  | none => .fault .noBus
  | some r =>
    match r.cont, r.udata with
    | some .proto, some _ => runProto b nack r s
    | some (.custom n), some ud =>
      let ref := takeRef s.cfg.limits d.ref
      andThen (upcall (.continuation n b ud nack d.prim ref) d.acts s) fun s' => dispatch d.prim ref s'
    | _, _ => .next (s.raiseFault 116 .unwritten)

/-- `nack_observed` (R115) and the continuation, with the step's draw. -/
def resumeTransaction (b : Nat) (r : Bus) (s : State) : Out :=
  callContinuation b (nackObserved r s.answer.bit) s.answer s.popAnswer

/-- The READ latch (R114), before the continuation is called. On a destination that is not admitted MENG(b) is stuck (20 R62), and
what the step wrote before remains (60 R251). -/
def latchRead (b : Nat) (r : Bus) (s : State) : Out :=
  match r.rdest with
  | none => .next (s.raiseFault 114 .unwritten)
  | some a =>
    if admitted s.cfg b r a then resumeTransaction b r (s.memWrite a r.rxbuf)
    else .next (s.stick (.meng b))

/-- The handler after MIF has been cleared: F_SPURIOUS_MASTER_INT without a registered continuation (R113), else the latch after a
READ, and the continuation. -/
def mengHandler (b : Nat) (r : Bus) (s : State) : Out :=
  if r.busy then
    if r.op = .read then latchRead b r s else resumeTransaction b r s
  else .next (s.raiseFault 113 .spuriousMasterInt)

/-- MENG(b)'s turn: enabled when MIF = 1, cleared on entry (R113, 60 R249); a turn that is not enabled changes nothing. -/
def mengStep (b : Nat) (s : State) : Out :=
  match s.buses[b]? with
  | none => .next s
  | some r =>
    if r.mif then mengHandler b { r with mif := false } (s.setBus b { r with mif := false })
    else .next s

end Sys2Proof.Machine
end

