-- ==== Sys2Proof/Machine/SlaveIsr.lean ====
section
/-! DEFINITION. The slave interrupt's handler (42_slave_engine.md R205 to R212) and the remote master's events (R204). -/

namespace Sys2Proof.Machine

/-- R209: the byte the callback wrote is transmitted; "last" moves to END_TO_MASTER. -/
def slaveToMaster (b : Nat) (s : State) : Out :=
  match (s.buses[b]?).bind fun r => r.cbByteTo with
  | none => .next (s.raiseFault 209 .unwritten)
  | some cb =>
    let d := s.answer
    andThen (upcall (.byteToMaster cb b d.byte d.bit) d.acts s.popAnswer) fun s' =>
      .next (s'.modBus b fun r => { r with slTx := d.byte, sstate := if d.bit then .endToMaster else r.sstate })

/-- R206: the master wants to read; with SLAVE_TX_ON_ADDRESS the first byte is loaded now. -/
def slaveAddressRead (b : Nat) (s : State) : Out :=
  match (s.buses[b]?).bind fun r => r.cbMsgTo with
  | none => .next (s.raiseFault 206 .unwritten)
  | some cb =>
    andThen (upcall (.msgToMaster cb b) s.answer.acts s.popAnswer) fun s' =>
      let s2 := s'.modBus b fun r => { r with sstate := .toMaster }
      if s2.cfg.slaveTxOnAddress then slaveToMaster b s2 else .next s2

/-- R207: the master wants to write; no data is exchanged. -/
def slaveAddressWrite (b : Nat) (s : State) : Out :=
  match (s.buses[b]?).bind fun r => r.cbMsgFrom with
  | none => .next (s.raiseFault 207 .unwritten)
  | some cb =>
    andThen (upcall (.msgFromMaster cb b) s.answer.acts s.popAnswer) fun s' =>
      .next (s'.modBus b fun r => { r with sstate := .fromMaster })

/-- R211: the received byte is delivered; "complete" moves to IDLE. -/
def slaveFromMaster (b : Nat) (v : Byte) (s : State) : Out :=
  match (s.buses[b]?).bind fun r => r.cbByteFrom with
  | none => .next (s.raiseFault 211 .unwritten)
  | some cb =>
    let d := s.answer
    andThen (upcall (.byteFromMaster cb b v d.bit) d.acts s.popAnswer) fun s' =>
      .next (s'.modBus b fun r => { r with sstate := if d.bit then .idle else r.sstate })

/-- The case by SSTATE (R205): outside IDLE, SL_DA is not read (R214). -/
def slaveHandler (b : Nat) (r : Bus) (s : State) : Out :=
  match r.sstate with
  | .idle =>
    if r.slDa then .next (s.raiseFault 208 .slaveDesync)               -- R208
    else if r.slRw then slaveAddressRead b s else slaveAddressWrite b s
  | .toMaster => slaveToMaster b s
  | .endToMaster => .next (s.modBus b fun r => { r with sstate := .idle })   -- R210
  | .fromMaster => slaveFromMaster b r.slRx s

/-- SENG(b)'s turn: enabled when SIF = 1 and SENABLED = 1, SIF cleared on entry, the clock released on every path that does
not halt (R205, R212). -/
def sengStep (b : Nat) (s : State) : Out :=
  match s.buses[b]? with
  | none => .next s
  | some r =>
    if r.sif && r.senabled then
      andThen (slaveHandler b r (s.setBus b { r with sif := false })) fun s' =>
        .next (s'.modBus b fun r => { r with sclhold := false })
    else .next s

/-- An event that raises the slave interrupt with the clock held (R204). -/
def Bus.slaveEvent (r : Bus) : Bus := { r with sclhold := true, sif := true }

/-- RMASTER(b)'s turn (R204): enabled while SENABLED = 1, SCLHOLD = 0, SIF = 0, and in the phase the event needs; else it
changes nothing. -/
def rmasterStep (b : Nat) (e : RemoteEvent) (s : State) : Out :=
  match s.buses[b]? with
  | none => .next s
  | some r =>
    if r.senabled && !r.sclhold && !r.sif then
      match e with
      | .address rw =>
        match r.saddr with
        | none => .next (s.raiseFault 204 .unwritten)
        | some a =>
          .next (s.setBus b
            (Bus.slaveEvent { r with
              slDa := false
              slRw := rw
              slRx := addressByte a rw
              swire := if rw then .sr else .sw }))
      | .dataIn v =>
        if r.swire = .sw then .next (s.setBus b (Bus.slaveEvent { r with slDa := true, slRx := v }))
        else .next s
      | .dataOut a =>
        if r.swire = .sr then
          .next ((s.setBus b (Bus.slaveEvent { r with slDa := true, swire := if a then .srEnd else .sr })).record
            (.clockedOut b r.slTx a))
        else .next s
      | .stop =>
        if r.swire = .free then .next s
        else .next (s.setBus b { r with swire := .free })
    else .next s

end Sys2Proof.Machine
end

