-- ==== Sys2Proof/Machine/Agents.lean ====
section
/-! DEFINITION. The turns of the agents (00_scope.md R13): where each fetches the instruction it runs, and placing an
instruction there. -/

namespace Sys2Proof.Machine

/-- One iteration of a blocking transfer's poll (41 R151): while BUSY = 1 it changes nothing; at BUSY = 0 the call returns
BLK_RESULT, or a draw where it is ⊥. -/
def hostPoll (b : Nat) (s : State) : Out :=
  match s.buses[b]? with
  | none => .next s
  | some r =>
    if r.busy then .next s
    else
      match r.blkResult with
      | some v => .next { s with hostCall := none, ret := some v }
      | none => .next { s.popAnswer with hostCall := none, ret := some s.answer.bit }

/-- HOST's turn: inside a blocking call, a poll; else what its program issues next; after its last command, nothing. -/
def hostStep (s : State) : Out :=
  match s.hostCall with
  | some b => hostPoll b s
  | none =>
    match s.program with
    | [] => .next s
    | .store a v :: rest => .next (State.hostStore a v { s with program := rest })
    | .cmd c :: rest => runCmd c { s with program := rest }

/-- BUS(b)'s completion (40 R130): the operation in flight is decoded and executed. -/
def busCompleteStep (b : Nat) (s : State) : Out :=
  match (s.buses[b]?).bind fun r => r.inflight with
  | none => .next s
  | some w =>
    match decodeHw w with
    | some i => exec i s
    | none => .refused (.reservedBusOp w)

/-- BUS(b)'s bus fault (40 R137): the operation in flight ends with no interrupt. -/
def busFaultStep (b : Nat) (s : State) : Out :=
  match s.buses[b]? with
  | none => .next s
  | some r =>
    if r.inflight.isSome then .next (s.setBus b (Bus.setWire s.cfg .free { r with inflight := none }))
    else .next s

/-- A handler's turn: a stuck handler takes no step; where a blocking command is issued inside it, "the handler's step is not
taken: the agent is stuck and its pending bit stays set" (60 R253; log 6). That the draws made in the step not taken are not spent
either, so that the next draw is the same one, is the model's choice (log 39). -/
def handlerTurn (a : Agent) (handler : State → Out) (s : State) : Out :=
  if a ∈ s.stuck then .next s
  else
    match handler (s.enter a) with
    | .fault .stuckBlockingCall => .next (s.stick a)
    | o => o

/-- One agent's turn. -/
def runTurn (t : Turn) (s : State) : Out :=
  match t with
  | .host => hostStep (s.enter .host)
  | .busComplete b => busCompleteStep b (s.enter (.bus b))
  | .busFault b => busFaultStep b (s.enter (.bus b))
  | .meng b => handlerTurn (.meng b) (mengStep b) s
  | .seng b => handlerTurn (.seng b) (sengStep b) s
  | .rmaster b e => rmasterStep b e (s.enter (.rmaster b))

/-! ### Placing an instruction where the next step fetches it (log 11) -/

/-- A wire phase in which the primitive is legal (40 R129). -/
def wireFor (p : BitVec 4) : Wire :=
  match p with
  | 1#4 => .mr
  | 4#4 => .mrData
  | 5#4 => .mrData
  | _ => .mt

/-- The role a command's opcode belongs to (30 R90 (f)). -/
def roleFor (opc : BitVec 4) : Role := if opc.toNat < 8 then .master else .slave

/-- A command goes to the head of the HOST's program, the HOST is outside a blocking call and has the next turn; the
initialisation layer gave the bus the role the command needs (70 R283). A primitive is what bus 0's custom continuation
returns at its next interrupt, which is pending and whose handler is not stuck; a bus operation is in flight on bus 0, and completes. -/
def placeCode (c : Code) (s : State) : State :=
  match c with
  | .cmd cw =>
    { s with
      cfg := { s.cfg with roles := s.cfg.roles.set (hdrBus cw.header).toNat (roleFor (hdrOpc cw.header)) }
      agenda := .host :: s.agenda
      hostCall := none
      program := .cmd cw :: s.program }
  | .prim p ref =>
    ({ s with
      agenda := .meng 0 :: s.agenda
      answers := ⟨false, 0, p, ref, []⟩ :: s.answers
      stuck := s.stuck.filter fun a => a != Agent.meng 0 }).modBus 0 fun r =>
        { r with
          mif := true
          busy := true
          cont := some (.custom 0)
          udata := some (.val 0)
          op := .none
          wire := wireFor p
          handed := [⟨.mem 0, 1⟩] }
  | .hw w =>
    ({ s with agenda := .busComplete 0 :: s.agenda }).modBus 0 fun r => { r with inflight := some w }

/-- The instruction whose bits, numbered as the opcode table numbers them, are `w`, placed so. -/
def placeTableWord (s : State) (nbits w : Nat) : State :=
  match tableCode nbits w with
  | some c => placeCode c s
  | none => s

end Sys2Proof.Machine
end

