-- ==== Sys2Proof/Machine/Step.lean ====
section
/-! DEFINITION. One step of the machine: one atomic action of one agent (00_scope.md R13). -/

namespace Sys2Proof.Machine

/-- The next step: none once a sys halt field is set (10_state.md R44), else the turn of the agent whose turn it is
(60 R250), after which the interrupt context is left (60 R252). -/
def step (s : State) : Host.Outcome State Fault Refusal :=
  if s.halted then .fault .halted
  else mapNext State.leave (runTurn s.turn s.popTurn)

/-- `s` with the instruction whose bits are `w` placed where the next step fetches it (log 11). -/
def State.withFetchWord (s : State) (nbits w : Nat) : State := placeTableWord s nbits w

end Sys2Proof.Machine
end

