-- ==== Sys2Proof/Safety.lean ====
section
/-! DEFINITION. What claims about runs use: launch premises (70_reset_and_hazards.md R284), a successful end and weak
fairness (R297), and the invariants of 10_state.md R46, R47 and 60 R247. -/

namespace Sys2Proof.Machine

/-- `P_NOFAULT` (R284): no sys halt field is set. -/
def State.noFault (s : State) : Bool := !s.halted

/-- `P_QUIET` of one bus (R284). -/
def Bus.quiet (r : Bus) : Bool := r.inflight.isNone && !r.mif && !r.sif && !r.sclhold

/-- `P_QUIET` (R284). -/
def State.quiet (s : State) : Bool := s.buses.all Bus.quiet

/-- A master bus at a successful end (R297): BUSY = 0, or parked by a QUIT. -/
def Bus.masterEnded (r : Bus) : Bool := !r.busy || (r.cont.isSome && r.op == .quit)

/-- A run ends successfully in this state (R297): the HOST has issued its last command and it has returned, nothing has
halted, no agent is stuck ("A run that stops in any other state is not a successful end: for example … a stuck agent"), no operation
is in flight and no interrupt pending, every master bus is idle or parked, no slave holds the clock. The rule speaks of the program's
commands only: that a store of the host's own which the program still holds after its last command also counts as a program not
yet ended (`program.isEmpty`) is the model's choice (log 37). -/
def State.endsSuccessfully (s : State) : Bool :=
  s.program.isEmpty && s.hostCall.isNone && s.noFault && s.stuck.isEmpty &&
  s.buses.all fun r => r.inflight.isNone && !r.mif && !r.sif && r.masterEnded && !r.sclhold

/-! ### Runs, and the weak fairness that claims that a run ends rely on (R297; no statement assumes it: log 33) -/

/-- The agent whose turn it is. -/
def turnAgent : Turn → Agent
  | .host => .host
  | .busComplete b => .bus b
  | .busFault b => .bus b
  | .meng b => .meng b
  | .seng b => .seng b
  | .rmaster b _ => .rmaster b

/-- The remote master's event has the wire phase it needs (42 R204). -/
def remoteReady (w : SWire) : RemoteEvent → Bool
  | .address _ => true
  | .dataIn _ => w == .sw
  | .dataOut _ => w == .sr
  | .stop => w != .free

/-- The turn is one its agent has a step in, so that taking it is a step of the spec's and not an idle turn: a command to issue or a
call to poll, an operation in flight, an interrupt pending for a handler that is not stuck, an event of the remote master. -/
def State.enables (s : State) (t : Turn) : Bool :=
  !s.halted &&
  match t with
  | .host => s.hostCall.isSome || !s.program.isEmpty
  | .busComplete b | .busFault b => (s.buses[b]?).any fun r => r.inflight.isSome
  | .meng b => ((s.buses[b]?).any fun r => r.mif) && !s.stuck.contains (.meng b)
  | .seng b => ((s.buses[b]?).any fun r => r.sif && r.senabled) && !s.stuck.contains (.seng b)
  | .rmaster b e => (s.buses[b]?).any fun r => r.senabled && !r.sclhold && !r.sif && remoteReady r.swire e

/-- An infinite run: each state is the step of the one before it, and a state in which no agent has a further step stays. -/
def isRun (run : Nat → State) : Prop :=
  ∀ n, step (run n) = .next (run (n + 1)) ∨ (step (run n) = .fault .halted ∧ run (n + 1) = run n)

/-- Weak fairness of BUS, RMASTER, MENG, SENG and HOST (R297): an agent that has a step in every state from some point on takes a
step after that point. -/
def weaklyFair (run : Nat → State) : Prop :=
  ∀ (a : Agent) (n : Nat), (∀ m, n ≤ m → ∃ t : Turn, turnAgent t = a ∧ (run m).enables t = true) →
    ∃ m, n ≤ m ∧ turnAgent (run m).turn = a ∧ (run m).enables (run m).turn = true

/-! ### Words the claims use -/

/-- 30 R90 (d) by opcode: a length operand above LEN_MAX, or N + 1 above it for WRITE_REG. -/
def lengthIsTooLong (lim : Limits) (opc : BitVec 4) (o : OpRecord) : Prop :=
  ((opc = 4#4 ∨ opc = 5#4) ∧ ∃ n, (o.wlen = some n ∨ o.rlen = some n) ∧ lim.lenMax < n) ∨
  (opc = 6#4 ∧ ∃ n, o.n = some n ∧ lim.lenMax < n) ∨
  (opc = 7#4 ∧ ∃ n, o.n = some n ∧ lim.lenMax < n + 1)

/-- A base that is missing beside a length above 0 (30 R89), or is no host address (20 R60). -/
def baseIsBad (lim : Limits) (base len : Option Nat) : Prop :=
  (base = none ∧ ∃ n, len = some n ∧ 0 < n) ∨ ∃ a, base = some a ∧ 2 ^ lim.addrBits ≤ a

/-- 30 R90 (e) by opcode: an operand of the command's row of R89 is missing, or of the wrong type (log 27). -/
def operandIsBad (lim : Limits) (opc : BitVec 4) (o : OpRecord) : Prop :=
  (opc = 1#4 ∧ (o.cont = none ∨ o.udata = none)) ∨
  ((opc = 4#4 ∨ opc = 5#4) ∧
    (o.wlen = none ∨ o.rlen = none ∨ baseIsBad lim o.wbase o.wlen ∨ baseIsBad lim o.rbase o.rlen)) ∨
  (opc = 4#4 ∧ o.onDone = none) ∨
  ((opc = 6#4 ∨ opc = 7#4) ∧ (o.n = none ∨ o.reg = none ∨ ∃ v, o.reg = some v ∧ 256 ≤ v)) ∨
  (opc = 6#4 ∧ baseIsBad lim o.obase o.n) ∨
  (opc = 7#4 ∧ baseIsBad lim o.ibase o.n) ∨
  (opc = 8#4 ∧ (o.cbMsgFrom = none ∨ o.cbMsgTo = none ∨ o.cbByteFrom = none ∨ o.cbByteTo = none ∨ o.prio = none))

/-- The bus a command names is `r`'s, and was initialised for `role` (R8, R90 (f)). -/
def State.busIs (s : State) (bus : BusField) (role : Role) (r : Bus) : Prop :=
  s.buses[bus.toNat]? = some r ∧ roleOf s.cfg bus.toNat = role

/-- The agent whose step runs belongs to bus `b`, whose record is `r`. -/
def State.runsOn (s : State) (b : Nat) (r : Bus) : Prop := s.actor.bus? = some b ∧ s.buses[b]? = some r

/-- The bus-sequence check lets the operation pass (40 R129). -/
def canIssue (c : Cfg) (op : HwOp) (w : Wire) : Prop := c.busSeqCheck = true → legalIn op w = true

/-- WIRE after a completion: kept only when BUS_SEQ_CHECK = true (R21 M6). -/
def wireKept (c : Cfg) (w old : Wire) : Wire := if c.busSeqCheck then w else old

/-- The bus an instruction acts on: the one its header names, or the one whose handler or bus agent runs. -/
def busOf (i : Instr) (s : State) : Option Nat :=
  match i with
  | .mStart bus _ _ | .mIsBusy bus | .mReset bus | .tAsync bus _ _ _ _ _ _ | .tBlock bus _ _ _ _ _
  | .readReg bus _ _ _ _ | .writeReg bus _ _ _ _ | .sInit bus _ _ _ _ _ _ | .sDisable bus | .sForceIdle bus =>
    some bus.toNat
  | .primNone | .read _ | .write _ | .restart | .ack | .nack | .stop | .done | .quit
  | .hwStart | .hwRestart | .hwStop | .hwTx _ | .hwRxen | .hwAckbit _ => s.actor.bus?

/-- The application resets no bus from inside an upcall: the hazard rule 70 R285. -/
def resetFree (acts : List Act) : Prop := ∀ c, Act.cmd c ∈ acts → hdrOpc c.header ≠ 0x3#4

/-- The k-th draw to come (0 is the next): settled from outside, or free. -/
def State.drawAt (s : State) (k : Nat) : Answer :=
  (s.answers[k]?).getD (Config.freeAnswer (s.drawn + (k - s.answers.length)))

/-- A draw in which the upcalled code does nothing else and the bit is `a`. -/
def quietDraw (a : Bool) (v : Byte) : Answer := ⟨a, v, 0, none, []⟩

/-- Bus `b`'s engine is between two primitives of a live transaction of PROTO: its completion interrupt is pending. -/
def Bus.midTransfer (r : Bus) : Prop :=
  r.busy = true ∧ r.cont = some .proto ∧ r.udata.isSome = true ∧ r.mif = true ∧ r.inflight = none

/-! ### Invariants -/

/-- "`r[b].BUSY = 1 <=> r[b].CONT != ⊥`" (R46). -/
def Bus.busyMatchesCont (r : Bus) : Prop := r.busy = r.cont.isSome

/-- The word in flight is an operation's, and legal in the wire phase where the sequence is checked (R29, R92, R129). -/
def Bus.flightOk (c : Cfg) (r : Bus) : Prop :=
  ∀ w, r.inflight = some w → ∃ op, HwOp.ofWord w = some op ∧ (c.busSeqCheck = true → legalIn op r.wire = true)

/-- On a SLAVE bus nothing of the master's is alive; on a MASTER bus the slave is off (60 R247). -/
def Bus.roleOk (role : Role) (r : Bus) : Prop :=
  match role with
  | .slave => r.busy = false ∧ r.inflight = none ∧ r.mif = false
  | .master => r.senabled = false ∧ r.sif = false ∧ r.sclhold = false

/-- "`r[b].MIF = 1` implies `r[b].INFLIGHT = none`" (R47), and an idle engine has nothing in flight or pending. -/
def Bus.oneInFlight (r : Bus) : Prop :=
  (r.mif = true → r.inflight = none) ∧ (r.busy = false → r.inflight = none ∧ r.mif = false)

/-- A pending slave interrupt holds the clock (42 R204, R212). -/
def Bus.stretchOk (r : Bus) : Prop := r.sif = true → r.sclhold = true

/-- Every bus of the registry has a property. -/
def State.everyBus (p : Nat → Bus → Prop) (s : State) : Prop := ∀ b r, s.buses[b]? = some r → p b r

/-- R47 on every bus. -/
def State.onePerBus (s : State) : Prop := s.everyBus fun _ r => r.oneInFlight

/-- The invariant every step keeps. -/
def State.Inv (s : State) : Prop :=
  Memory.wf s.mem = true ∧
  s.everyBus fun b r => r.busyMatchesCont ∧ r.flightOk s.cfg ∧ r.roleOk (roleOf s.cfg b) ∧ r.stretchOk

end Sys2Proof.Machine
end

