-- ==== Sys2Proof/Certificates/Slice0/Obligations.lean ====
section
/-! DEFINITION. The statements for the provers, from the numbered rules of spec/. A next state is written out whole where
that can be read, so that the statement is the instruction's result, its completion and its frame in one. -/

open Sys2Proof Sys2Proof.Machine

/-! ### Encoding -/

/-- 30 R80, R81, R87 to R89, R92: decode of encode i is i, for every well-formed instruction and every operand value. -/
def Obligations.DecodingAnEncodedInstructionGivesItBack : Prop :=
  ∀ (lim : Limits) (i : Instr), i.wellFormed lim = true → decode lim (encode i) = .ok i

/-- 30 R87, R97: a header the decoder accepts is the header of the instruction it gives, which is well formed. -/
def Obligations.AcceptedHeadersAreTheEncodings : Prop :=
  ∀ (lim : Limits) (c : CmdWord) (i : Instr), decodeCmd lim c = .ok i →
    i.wellFormed lim = true ∧ ∃ ops : OpRecord, encode i = .cmd ⟨c.header, ops⟩

/-- 30 R90 (a) to (e), each with its reason and in the order of 60 R246; a command that none of them holds of decodes. -/
def Obligations.CommandDecoderRefusesInOrder : Prop :=
  ∀ (lim : Limits) (h : BitVec 16) (o : OpRecord),
    (hdrOpc h = 0#4 ∨ 11 ≤ (hdrOpc h).toNat → decodeCmd lim ⟨h, o⟩ = .error .reservedOpcode) ∧
    (1 ≤ (hdrOpc h).toNat → (hdrOpc h).toNat ≤ 10 →
      (h.getLsbD 7 = true → decodeCmd lim ⟨h, o⟩ = .error .reservedBit) ∧
      (h.getLsbD 7 = false →
        ((hdrOpc h).toNat ∈ [1, 2, 3, 9, 10] → hdrA7 h ≠ 0#7 → decodeCmd lim ⟨h, o⟩ = .error .addressNotTaken) ∧
        ((hdrOpc h).toNat ∉ [1, 2, 3, 9, 10] ∨ hdrA7 h = 0#7 →
          (lengthIsTooLong lim (hdrOpc h) o → decodeCmd lim ⟨h, o⟩ = .error .lengthTooLong) ∧
          (¬ lengthIsTooLong lim (hdrOpc h) o → operandIsBad lim (hdrOpc h) o →
            decodeCmd lim ⟨h, o⟩ = .error .badOperand) ∧
          (¬ lengthIsTooLong lim (hdrOpc h) o → ¬ operandIsBad lim (hdrOpc h) o →
            ∃ i, decodeCmd lim ⟨h, o⟩ = .ok i))))

/-- 30 R92: a bus operation word has at most one meaning, and which words have none. -/
def Obligations.BusOperationWordsHaveOneMeaning : Prop :=
  ∀ w : BitVec 11,
    (∀ i, decodeHw w = some i → encode i = .hw w) ∧
    (decodeHw w = none ↔
      6 ≤ (w.extractLsb' 8 3).toNat ∨
      ((w.extractLsb' 8 3).toNat ≠ 3 ∧ (w.extractLsb' 8 3).toNat ≠ 5 ∧ w.extractLsb' 0 8 ≠ 0#8) ∨
      ((w.extractLsb' 8 3).toNat = 5 ∧ 2 ≤ (w.extractLsb' 0 8).toNat))

/-- 95 V-ENC, V-HOP and 30 R80: words of the spec, each with the instruction it stands for. -/
def Obligations.WordsOfTheSpecDecode : Prop :=
  decodeCmd ⟨4, 32⟩ ⟨0x406E#16, { wbase := some 0x1000, wlen := some 1, rbase := some 0x2000, rlen := some 2, onDone := some 7 }⟩
    = .ok (.tAsync 0 0x6E (some 0x1000) 1 (some 0x2000) 2 7) ∧
  decodeCmd ⟨4, 32⟩ ⟨0x7048#16, { reg := some 4, ibase := some 0x1000, n := some 1 }⟩
    = .ok (.writeReg 0 0x48 4 (some 0x1000) 1) ∧
  decodeCmd ⟨4, 32⟩ ⟨0xA100#16, {}⟩ = .ok (.sForceIdle 1) ∧
  decodePrim ⟨4, 32⟩ 5#4 none = some .nack ∧
  decodeHw 0x3DC#11 = some (.hwTx 0xDC) ∧
  decodeHw 0x501#11 = some (.hwAckbit true)

/-- 20 R65 and 30 R94: `ADDRBYTE[7:1] = ADDR`, `ADDRBYTE[0] = rw`, and its value. -/
def Obligations.AddressByteHoldsAddressAndDirection : Prop :=
  ∀ (a : Addr7) (rw : Bool),
    (addressByte a rw).extractLsb' 1 7 = a ∧ (addressByte a rw).getLsbD 0 = rw ∧
    (addressByte a rw).toNat = 2 * a.toNat + rw.toNat

/-- 40 R129: the table of legal operations, row by row. -/
def Obligations.BusSequenceTable : Prop :=
  ∀ (w : Wire) (op : HwOp), legalIn op w = true ↔
    (w = .free ∧ op = .start) ∨
    (w = .addr ∧ ∃ v, op = .tx v) ∨
    (w = .mt ∧ ((∃ v, op = .tx v) ∨ op = .restart ∨ op = .stop)) ∨
    (w = .mr ∧ op = .rxen) ∨
    (w = .mrData ∧ (op = .ackbit false ∨ op = .ackbit true)) ∨
    (w = .mrEnd ∧ (op = .restart ∨ op = .stop)) ∨
    (w = .peerNacked ∧ (op = .restart ∨ op = .stop))

/-! ### Reset, and invariants of every step -/

/-- 70 R280: what system start leaves, under every configuration (a draw is any value, so nothing is said of it). -/
def Obligations.SystemStartLeavesTheSpecsValues : Prop :=
  ∀ (c : Cfg),
    (State.resetWith c).buses.length = c.nbus ∧
    (State.resetWith c).sysFatal = none ∧ (State.resetWith c).sysFault = none ∧
    (State.resetWith c).sysRefused = false ∧ (State.resetWith c).trace = [] ∧
    (State.resetWith c).everyBus fun _ r =>
      (r.busy = false ∧ r.op = .none ∧ r.cont = none ∧ r.udata = none ∧ r.rdest = none ∧ r.inflight = none ∧
        r.wire = .free ∧ r.mif = false) ∧
      (r.pstate = .idle ∧ r.wrem = 0 ∧ r.rrem = 0 ∧ r.wsent = 0 ∧ r.result = false ∧ r.wptr = none ∧ r.rptr = none ∧
        r.rcb = none ∧ r.addr = none ∧ r.addrByte = none ∧ r.rcode = none ∧ r.blkResult = none ∧ r.rcell = none ∧
        ∀ i, cellAt r.wcell i = none) ∧
      (r.senabled = false ∧ r.sstate = .idle ∧ r.saddr = none ∧ r.sprio = none ∧ r.cbMsgFrom = none ∧
        r.cbMsgTo = none ∧ r.cbByteFrom = none ∧ r.cbByteTo = none ∧ r.sclhold = false ∧ r.sif = false ∧
        r.swire = .free)

/-- 70 R281: after reset nobody but the HOST changes anything: any other agent's turn leaves the state as it was. -/
def Obligations.AfterResetOnlyTheHostActs : Prop :=
  ∀ (c : Cfg) (ts : List Turn) (t : Turn), t ≠ .host →
    step { State.resetWith c with agenda := t :: ts } = .next { State.resetWith c with agenda := ts }

/-- The invariant holds at reset, under every configuration. -/
def Obligations.SystemStartMeetsTheInvariant : Prop :=
  ∀ (c : Cfg), (State.resetWith c).Inv ∧ (State.resetWith c).onePerBus

/-- 10 R46, 60 R247, 40 R129, 42 R212: every step keeps the memory's canonical form; BUSY = 1 exactly when CONT is not ⊥; only
an operation that is legal in its wire phase is in flight; a bus runs in one role; a pending slave interrupt holds the
clock. -/
def Obligations.EveryStepKeepsTheInvariant : Prop :=
  ∀ (s t : State), s.Inv → step s = .next t → t.Inv

/-- 10 R47: as long as the code a step upcalls resets no bus (70 R285; a step upcalls with its next two draws at most), every step
keeps that completion and pending exclude each other and that an idle engine has nothing in flight or pending. -/
def Obligations.EveryStepKeepsOneOperationInFlight : Prop :=
  ∀ (s t : State), (∀ k, k < 2 → resetFree (s.popTurn.drawAt k).acts) → s.onePerBus → step s = .next t → t.onePerBus

/-- 10 R51 and R23: no step changes the configuration or the number of slots of the registry; 00 R14 and 10 R44: sys.TRACE is an
ordered list that steps only append to. -/
def Obligations.EveryStepKeepsConfigurationAndAppendsToTheTrace : Prop :=
  ∀ (s t : State), step s = .next t →
    t.cfg = s.cfg ∧ t.buses.length = s.buses.length ∧ ∃ es, t.trace = s.trace ++ es

/-- 10 R44: where FATAL, FAULT or REFUSED is set no agent has a further step, which the model says by the answer `halted` of its step
(log 5): that is the answer exactly in those states. A state without a halt field in which no agent has a step (quiescent, or with
its handlers stuck) is another matter: its step is an idle turn (log 1). -/
def Obligations.NoFurtherStepExactlyWhenHalted : Prop :=
  ∀ (s : State), step s = .fault .halted ↔ (s.sysFatal ≠ none ∨ s.sysFault ≠ none ∨ s.sysRefused = true)

/-! ### A step runs the decoded instruction -/

/-- HOST outside a blocking call: the command its program issues next is decoded and executed on the mainline, or refused. -/
def Obligations.StepRunsTheIssuedCommand : Prop :=
  ∀ (s : State) (c : CmdWord) (rest : List Act), s.halted = false → s.turn = .host → s.hostCall = none →
    s.program = .cmd c :: rest →
    (∀ i, decodeCmd s.cfg.limits c = .ok i →
      step s = mapNext State.leave (exec i { s.popTurn with program := rest, actor := .host })) ∧
    (∀ e, decodeCmd s.cfg.limits c = .error e →
      step s = .next { s.popTurn with
        program := rest, actor := .host, sysRefused := true, trace := s.trace ++ [.refused e] })

/-- BUS(b): the operation word in flight is decoded and its completion executed. -/
def Obligations.StepRunsTheOperationInFlight : Prop :=
  ∀ (s : State) (b : Nat) (r : Bus) (w : BitVec 11) (i : Instr), s.halted = false → s.turn = .busComplete b →
    s.buses[b]? = some r → r.inflight = some w → decodeHw w = some i →
    step s = mapNext State.leave (exec i { s.popTurn with actor := .bus b })

/-- MENG(b), not stuck, with a custom continuation that only returns its result: the interrupt is taken, after a READ the byte is
latched (40 R114), the continuation upcalled with `nack` (40 R115: ACKSTAT after a WRITE, a draw otherwise), and the primitive it
returns executed, its REF in HOST_ADDR_BITS bits (30 R81; log 34). -/
def Obligations.StepRunsTheReturnedPrimitive : Prop :=
  ∀ (s : State) (b n : Nat) (r : Bus) (ud : UData) (ref : Option Ref) (i : Instr), s.halted = false → s.turn = .meng b →
    .meng b ∉ s.stuck → s.buses[b]? = some r → r.mif = true → r.busy = true → r.cont = some (.custom n) →
    r.udata = some ud → s.popTurn.answer.acts = [] → takeRef s.cfg.limits s.popTurn.answer.ref = ref →
    decodePrim s.cfg.limits s.popTurn.answer.prim ref = some i →
    (r.op ≠ .read →
      step s = mapNext State.leave (exec i { s.popTurn.popAnswer with
        actor := .meng b
        buses := s.buses.set b { r with mif := false }
        trace := s.trace ++ [.upcall (.continuation n b ud
          (if r.op = .write then r.ackstat else s.popTurn.answer.bit) s.popTurn.answer.prim ref)] })) ∧
    (∀ a s', r.op = .read → r.rdest = some a → admitted s.cfg b r a = true →
      s' = State.memWrite a r.rxbuf
        { s.popTurn.popAnswer with actor := .meng b, buses := s.buses.set b { r with mif := false } } →
      step s = mapNext State.leave (exec i { s' with
        trace := s'.trace ++
          [.upcall (.continuation n b ud s.popTurn.answer.bit s.popTurn.answer.prim ref)] }))

/-- MENG(b), not stuck, with PROTO: the primitive of the row PROTO executes is executed on the record the row wrote; after a READ the
row runs on the state in which the byte has been latched (40 R114). That the call of PROTO itself leaves no upcall event in the
trace is the model's choice (log 31). -/
def Obligations.StepRunsTheProtocolsPrimitive : Prop :=
  ∀ (s : State) (b : Nat) (r r' : Bus) (p : PrimTag) (ref : Option Ref) (i : Instr), s.halted = false →
    s.turn = .meng b → .meng b ∉ s.stuck → s.buses[b]? = some r → r.midTransfer →
    decodePrim s.cfg.limits p.code ref = some i →
    (r.op ≠ .read →
      protoRow s.cfg b (if r.op = .write then r.ackstat else s.popTurn.answer.bit) { r with mif := false }
        = .ret p ref r' →
      step s = mapNext State.leave (exec i { s.popTurn.popAnswer with actor := .meng b, buses := s.buses.set b r' })) ∧
    (∀ a s' q, r.op = .read → r.rdest = some a → admitted s.cfg b r a = true →
      s' = State.memWrite a r.rxbuf
        { s.popTurn.popAnswer with actor := .meng b, buses := s.buses.set b { r with mif := false } } →
      s'.buses[b]? = some q → protoRow s.cfg b s.popTurn.answer.bit q = .ret p ref r' →
      step s = mapNext State.leave (exec i { s' with buses := s'.buses.set b r' }))

/-! ### Host commands -/

/-- 40 R110, every outcome: unknown bus, busy, bus sequence, and the start itself. What `handed` becomes is the model's reading of
20 R62 (log 12). -/
def Obligations.MStartRegistersAndIssuesStart : Prop :=
  ∀ (bus : BusField) (cont : ContId) (ud : UData) (s : State),
    (∀ lim, decodeCmd lim ⟨0x1#4 ++ bus ++ 0#8, { cont := some cont, udata := some ud }⟩ = .ok (.mStart bus cont ud)) ∧
    (s.buses.length ≤ bus.toNat →
      exec (.mStart bus cont ud) s = .next (s.raiseFatal 110 .invalidBus bus.toNat)) ∧
    ∀ r, s.busIs bus .master r →
      (r.busy = true → exec (.mStart bus cont ud) s = .next (s.raiseFatal 110 .busy bus.toNat)) ∧
      (r.busy = false → s.cfg.busSeqCheck = true → r.wire ≠ .free →
        exec (.mStart bus cont ud) s = .next { s with
          buses := s.buses.set bus.toNat
            { r with busy := true, cont := some cont, udata := some ud, op := .none, handed := admitOf s.cfg cont }
          sysFault := some .busSequence
          trace := s.trace ++ [.fault .busSequence 129] }) ∧
      (r.busy = false → s.cfg.busSeqCheck = false ∨ r.wire = .free →
        exec (.mStart bus cont ud) s = .next { s with
          buses := s.buses.set bus.toNat
            { r with busy := true, cont := some cont, udata := some ud, op := .none, inflight := some 0x000#11,
                     handed := admitOf s.cfg cont }
          trace := s.trace ++ [.issued bus.toNat .start] })

/-- 40 R111. -/
def Obligations.MIsBusyReturnsTheBusyFlag : Prop :=
  ∀ (bus : BusField) (s : State),
    (∀ lim o, decodeCmd lim ⟨0x2#4 ++ bus ++ 0#8, o⟩ = .ok (.mIsBusy bus)) ∧
    (s.buses.length ≤ bus.toNat → exec (.mIsBusy bus) s = .next (s.raiseFatal 111 .invalidBus bus.toNat)) ∧
    ∀ r, s.busIs bus .master r → exec (.mIsBusy bus) s = .next { s with ret := some r.busy }

/-- 40 R112. -/
def Obligations.MResetClearsOnlyBusyAndContinuation : Prop :=
  ∀ (bus : BusField) (s : State),
    (∀ lim o, decodeCmd lim ⟨0x3#4 ++ bus ++ 0#8, o⟩ = .ok (.mReset bus)) ∧
    (s.buses.length ≤ bus.toNat → exec (.mReset bus) s = .next (s.raiseFatal 112 .invalidBus bus.toNat)) ∧
    ∀ r, s.busIs bus .master r →
      (r.inflight ≠ none ∨ r.mif = true →
        exec (.mReset bus) s = .next { s with
          sysFault := some .resetInFlight, trace := s.trace ++ [.fault .resetInFlight 112] }) ∧
      (r.inflight = none → r.mif = false →
        exec (.mReset bus) s = .next { s with buses := s.buses.set bus.toNat { r with busy := false, cont := none } })

/-- 41 R150. What `handed` becomes is the model's reading of 20 R62 (log 12). -/
def Obligations.TAsyncSeedsTheTransactionAndStarts : Prop :=
  ∀ (bus : BusField) (a7 : Addr7) (wb : Option Nat) (wl : Nat) (rb : Option Nat) (rl cb : Nat) (s : State),
    (∀ lim o, Instr.wellFormed lim (.tAsync bus a7 wb wl rb rl cb) = true →
      o = { wbase := wb, wlen := some wl, rbase := rb, rlen := some rl, onDone := some cb } →
      decodeCmd lim ⟨0x4#4 ++ bus ++ 0#1 ++ a7, o⟩ = .ok (.tAsync bus a7 wb wl rb rl cb)) ∧
    (s.buses.length ≤ bus.toNat →
      exec (.tAsync bus a7 wb wl rb rl cb) s = .next (s.raiseFatal 150 .invalidBus bus.toNat)) ∧
    ∀ r, s.busIs bus .master r →
      (wl = 0 → rl = 0 → exec (.tAsync bus a7 wb wl rb rl cb) s = .next (s.raiseFatal 150 .emptyTransfer bus.toNat)) ∧
      (0 < wl + rl → r.busy = true →
        exec (.tAsync bus a7 wb wl rb rl cb) s = .next (s.raiseFatal 150 .busy bus.toNat)) ∧
      (0 < wl + rl → r.busy = false → canIssue s.cfg .start r.wire →
        exec (.tAsync bus a7 wb wl rb rl cb) s = .next { s with
          buses := s.buses.set bus.toNat
            { r with
              addr := some a7, wptr := wb.map .mem, wrem := wl, rptr := rb.map .mem, rrem := rl, result := false
              rcb := some (.user cb), pstate := .startDone
              wsent := if s.cfg.richResult then 0 else r.wsent
              rcode := if s.cfg.richResult then none else r.rcode
              busy := true, cont := some .proto, udata := some (.record bus.toNat), op := .none
              inflight := some 0x000#11
              handed := bufOf (wb.map .mem) wl ++ bufOf (rb.map .mem) rl }
          trace := s.trace ++ [.issued bus.toNat .start] }) ∧
      (0 < wl + rl → r.busy = false → s.cfg.busSeqCheck = true → r.wire ≠ .free →
        exec (.tAsync bus a7 wb wl rb rl cb) s = .next { s with
          buses := s.buses.set bus.toNat
            { r with
              addr := some a7, wptr := wb.map .mem, wrem := wl, rptr := rb.map .mem, rrem := rl, result := false
              rcb := some (.user cb), pstate := .startDone
              wsent := if s.cfg.richResult then 0 else r.wsent
              rcode := if s.cfg.richResult then none else r.rcode
              busy := true, cont := some .proto, udata := some (.record bus.toNat), op := .none
              handed := bufOf (wb.map .mem) wl ++ bufOf (rb.map .mem) rl }
          sysFault := some .busSequence
          trace := s.trace ++ [.fault .busSequence 129] })

/-- 41 R151, the first HOST step: as T_ASYNC with BLKCB, BLK_RESULT ← ⊥, and the HOST then polls. What `handed` becomes is the
model's reading of 20 R62 (log 12), the site of the fatal errors its choice (log 16). -/
def Obligations.TBlockStartsAndPolls : Prop :=
  ∀ (bus : BusField) (a7 : Addr7) (wb : Option Nat) (wl : Nat) (rb : Option Nat) (rl : Nat) (s : State), s.actor = .host →
    (s.buses.length ≤ bus.toNat →
      exec (.tBlock bus a7 wb wl rb rl) s = .next (s.raiseFatal 151 .invalidBus bus.toNat)) ∧
    ∀ r, s.busIs bus .master r →
      (wl = 0 → rl = 0 → exec (.tBlock bus a7 wb wl rb rl) s = .next (s.raiseFatal 151 .emptyTransfer bus.toNat)) ∧
      (0 < wl + rl → r.busy = true →
        exec (.tBlock bus a7 wb wl rb rl) s = .next (s.raiseFatal 151 .busy bus.toNat)) ∧
      (0 < wl + rl → r.busy = false → canIssue s.cfg .start r.wire →
        exec (.tBlock bus a7 wb wl rb rl) s = .next { s with
          hostCall := some bus.toNat
          buses := s.buses.set bus.toNat
            { r with
              blkResult := none
              addr := some a7, wptr := wb.map .mem, wrem := wl, rptr := rb.map .mem, rrem := rl, result := false
              rcb := some .blkcb, pstate := .startDone
              wsent := if s.cfg.richResult then 0 else r.wsent
              rcode := if s.cfg.richResult then none else r.rcode
              busy := true, cont := some .proto, udata := some (.record bus.toNat), op := .none
              inflight := some 0x000#11
              handed := bufOf (wb.map .mem) wl ++ bufOf (rb.map .mem) rl }
          trace := s.trace ++ [.issued bus.toNat .start] })

/-- 41 R152: RCELL ← REG, and a blocking transfer that writes it and reads N bytes. What `handed` becomes is the model's reading of
20 R62 (log 12); the checks before the write of RCELL and their site are the model's (log 15, 16). -/
def Obligations.ReadRegFramesRegisterThenRead : Prop :=
  ∀ (bus : BusField) (a7 : Addr7) (reg : Byte) (ob : Option Nat) (n : Nat) (s : State), s.actor = .host →
    (s.buses.length ≤ bus.toNat →
      exec (.readReg bus a7 reg ob n) s = .next (s.raiseFatal 152 .invalidBus bus.toNat)) ∧
    ∀ r, s.busIs bus .master r →
      (r.busy = true → exec (.readReg bus a7 reg ob n) s = .next (s.raiseFatal 152 .busy bus.toNat)) ∧
      (r.busy = false → canIssue s.cfg .start r.wire →
        exec (.readReg bus a7 reg ob n) s = .next { s with
          hostCall := some bus.toNat
          buses := s.buses.set bus.toNat
            { r with
              rcell := some reg
              blkResult := none
              addr := some a7, wptr := some (.rcell bus.toNat 0), wrem := 1, rptr := ob.map .mem, rrem := n, result := false
              rcb := some .blkcb, pstate := .startDone
              wsent := if s.cfg.richResult then 0 else r.wsent
              rcode := if s.cfg.richResult then none else r.rcode
              busy := true, cont := some .proto, udata := some (.record bus.toNat), op := .none
              inflight := some 0x000#11
              handed := ⟨.rcell bus.toNat 0, 1⟩ :: bufOf (ob.map .mem) n }
          trace := s.trace ++ [.issued bus.toNat .start] })

/-- 41 R153: WCELL[0] ← REG and WCELL[1+i] ← the byte at IBASE + i, read and recorded now, its other cells kept; then a
blocking transfer that writes those N + 1 bytes. Both the buffer the record names and WCELL are handed over (20 R62), in the model's
field `handed` (log 12); the checks before the writes, their site and addresses that wrap are the model's (log 15, 16, 23). -/
def Obligations.WriteRegFramesRegisterThenData : Prop :=
  ∀ (bus : BusField) (a7 : Addr7) (reg : Byte) (base n : Nat) (s : State), s.actor = .host →
    (s.buses.length ≤ bus.toNat →
      exec (.writeReg bus a7 reg (some base) n) s = .next (s.raiseFatal 153 .invalidBus bus.toNat)) ∧
    (exec (.writeReg bus a7 reg none 0) s = exec (.writeReg bus a7 reg (some base) 0) s) ∧
    ∀ r, s.busIs bus .master r →
      (r.busy = true → exec (.writeReg bus a7 reg (some base) n) s = .next (s.raiseFatal 153 .busy bus.toNat)) ∧
      (r.busy = false → canIssue s.cfg .start r.wire →
        ∃ cells : List (Option Byte),
          cellAt cells 0 = some reg ∧
          (∀ i, i < n → cellAt cells (i + 1) = some (Memory.read s.mem ((base + i) % 2 ^ s.cfg.addrBits))) ∧
          (∀ j, n < j → cellAt cells j = cellAt r.wcell j) ∧
          exec (.writeReg bus a7 reg (some base) n) s = .next { s with
            hostCall := some bus.toNat
            buses := s.buses.set bus.toNat
              { r with
                wcell := cells
                blkResult := none
                addr := some a7, wptr := some (.wcell bus.toNat 0), wrem := n + 1, rptr := none, rrem := 0, result := false
                rcb := some .blkcb, pstate := .startDone
                wsent := if s.cfg.richResult then 0 else r.wsent
                rcode := if s.cfg.richResult then none else r.rcode
                busy := true, cont := some .proto, udata := some (.record bus.toNat), op := .none
                inflight := some 0x000#11
                handed := bufOf (some (.mem base)) n ++ [⟨.wcell bus.toNat 0, n + 1⟩] }
            trace := s.trace
              ++ (List.range n).map (fun i =>
                .memRead (.mem ((base + i) % 2 ^ s.cfg.addrBits)) (Memory.read s.mem ((base + i) % 2 ^ s.cfg.addrBits)))
              ++ [.issued bus.toNat .start] })

/-- 40 R129 and 60 R251: a transfer started while the wire is held (after a DONE without its STOP, R124) faults at the issue of
HW_START. Of the writes the step made before the check (60 R251) this names BUSY, CONT and PSTATE; INFLIGHT and MIF are what they
were, so nothing new is in flight. T_ASYNC's whole record is in TAsyncSeedsTheTransactionAndStarts. WRITE_REG without IBASE (N = 0)
is the form with one by WriteRegFramesRegisterThenData. -/
def Obligations.StartingATransferOnAHeldWireFaults : Prop :=
  ∀ (bus : BusField) (i : Instr) (s : State) (r : Bus), s.actor = .host → s.busIs bus .master r → r.busy = false →
    s.cfg.busSeqCheck = true → r.wire ≠ .free →
    (∃ a7 wb wl rb rl cb, i = .tAsync bus a7 wb wl rb rl cb ∧ 0 < wl + rl) ∨
      (∃ a7 wb wl rb rl, i = .tBlock bus a7 wb wl rb rl ∧ 0 < wl + rl) ∨
      (∃ a7 reg ob n, i = .readReg bus a7 reg ob n) ∨ (∃ a7 reg base n, i = .writeReg bus a7 reg (some base) n) →
    ∃ t r' es, exec i s = .next t ∧ t.sysFault = some .busSequence ∧ t.sysFatal = s.sysFatal ∧
      t.buses = s.buses.set bus.toNat r' ∧ r'.busy = true ∧ r'.cont = some .proto ∧ r'.pstate = .startDone ∧
      r'.inflight = r.inflight ∧ r'.mif = r.mif ∧ t.mem = s.mem ∧
      t.trace = s.trace ++ es ++ [.fault .busSequence 129]

/-- 60 R253: a blocking command in interrupt context has no step; the handler's step is not taken, the handler is stuck with its
pending bit set, and a stuck handler takes no step. Every other outcome of a handler is the step's. Three of these are the
model's choice: how a stuck handler is held (log 6), that the draws of the step not taken are not spent (log 39), and that R253 comes
before E_INVALID_BUS, refusal (f) and the other checks, so that the first clause holds for every bus operand (log 32). -/
def Obligations.BlockingCommandsHaveNoStepInInterruptContext : Prop :=
  (∀ (bus : BusField) (a7 : Addr7) (x y : Option Nat) (m n : Nat) (reg : Byte) (s : State) (b : Nat),
    s.actor = .meng b ∨ s.actor = .seng b →
    exec (.tBlock bus a7 x m y n) s = .fault .stuckBlockingCall ∧
    exec (.readReg bus a7 reg x n) s = .fault .stuckBlockingCall ∧
    exec (.writeReg bus a7 reg x n) s = .fault .stuckBlockingCall) ∧
  ∀ (s : State) (b : Nat) (a : Agent) (handler : State → Out), s.halted = false →
    (s.turn = .meng b ∧ a = .meng b ∧ handler = mengStep b) ∨ (s.turn = .seng b ∧ a = .seng b ∧ handler = sengStep b) →
    (a ∈ s.stuck → step s = .next { s.popTurn with actor := .host }) ∧
    (a ∉ s.stuck → handler { s.popTurn with actor := a } = .fault .stuckBlockingCall →
      step s = .next { s.popTurn with actor := .host, stuck := a :: s.stuck }) ∧
    (a ∉ s.stuck → handler { s.popTurn with actor := a } ≠ .fault .stuckBlockingCall →
      step s = mapNext State.leave (handler { s.popTurn with actor := a }))

/-- 30 R90 (f), after the bus check (60 R246): a command of the other role is refused, and writes nothing else. -/
def Obligations.CommandsOfTheOtherRoleAreRefused : Prop :=
  ∀ (bus : BusField) (s : State) (r : Bus), s.actor = .host →
    (s.busIs bus .slave r → ∀ i, (∃ c u, i = .mStart bus c u) ∨ i = .mIsBusy bus ∨ i = .mReset bus ∨
        (∃ a7 wb wl rb rl cb, i = .tAsync bus a7 wb wl rb rl cb) ∨ (∃ a7 wb wl rb rl, i = .tBlock bus a7 wb wl rb rl) ∨
        (∃ a7 reg ob n, i = .readReg bus a7 reg ob n) ∨ (∃ a7 reg ib n, i = .writeReg bus a7 reg (some ib) n) →
      exec i s = .next { s with sysRefused := true, trace := s.trace ++ [.refused .wrongRole] }) ∧
    (s.busIs bus .master r → ∀ i, (∃ a7 f t bf bt p, i = .sInit bus a7 f t bf bt p) ∨ i = .sDisable bus ∨
        i = .sForceIdle bus →
      exec i s = .next { s with sysRefused := true, trace := s.trace ++ [.refused .wrongRole] })

/-- 42 R200. -/
def Obligations.SInitConfiguresAndEnablesTheSlave : Prop :=
  ∀ (bus : BusField) (a7 : Addr7) (f t bf bt : Nat) (prio : Int) (s : State),
    (∀ lim o, o.cbMsgFrom = some f → o.cbMsgTo = some t → o.cbByteFrom = some bf → o.cbByteTo = some bt →
      o.prio = some prio →
      decodeCmd lim ⟨0x8#4 ++ bus ++ 0#1 ++ a7, o⟩ = .ok (.sInit bus a7 f t bf bt prio)) ∧
    (∀ r, s.busIs bus .master r →
      exec (.sInit bus a7 f t bf bt prio) s
        = .next { s with sysRefused := true, trace := s.trace ++ [.refused .wrongRole] }) ∧
    (s.buses.length ≤ bus.toNat →
      exec (.sInit bus a7 f t bf bt prio) s = .next (s.raiseFatal 200 .invalidBus bus.toNat)) ∧
    ∀ r, s.busIs bus .slave r →
      (prio < s.cfg.prioMin ∨ s.cfg.prioMax < prio →
        exec (.sInit bus a7 f t bf bt prio) s = .next (s.raiseFatal 200 .invalidPriority prio)) ∧
      (s.cfg.prioMin ≤ prio → prio ≤ s.cfg.prioMax →
        exec (.sInit bus a7 f t bf bt prio) s = .next { s with
          buses := s.buses.set bus.toNat
            { r with
              saddr := some a7, cbMsgFrom := some f, cbMsgTo := some t, cbByteFrom := some bf, cbByteTo := some bt
              sprio := some prio, sstate := .idle, sif := false, sclhold := false, senabled := true } })

/-- 42 R201. -/
def Obligations.SDisableTurnsTheSlaveOff : Prop :=
  ∀ (bus : BusField) (s : State),
    (∀ lim o, decodeCmd lim ⟨0x9#4 ++ bus ++ 0#8, o⟩ = .ok (.sDisable bus)) ∧
    (s.buses.length ≤ bus.toNat → exec (.sDisable bus) s = .next (s.raiseFatal 201 .invalidBus bus.toNat)) ∧
    ∀ r t, s.busIs bus .slave r →
      t = { s with
        buses := s.buses.set bus.toNat { r with senabled := false, sstate := .idle, sif := false, sclhold := false } } →
      exec (.sDisable bus) s = .next t ∧ sengStep bus.toNat t = .next t ∧ ∀ e, rmasterStep bus.toNat e t = .next t

/-- 42 R202. -/
def Obligations.SForceIdleWritesOnlyTheSlaveState : Prop :=
  ∀ (bus : BusField) (s : State),
    (∀ lim o, decodeCmd lim ⟨0xA#4 ++ bus ++ 0#8, o⟩ = .ok (.sForceIdle bus)) ∧
    (s.buses.length ≤ bus.toNat → exec (.sForceIdle bus) s = .next (s.raiseFatal 202 .invalidBus bus.toNat)) ∧
    ∀ r, s.busIs bus .slave r →
      exec (.sForceIdle bus) s = .next { s with buses := s.buses.set bus.toNat { r with sstate := .idle } }

/-! ### Primitives -/

/-- 40 R118 with R117. -/
def Obligations.ReadRemembersTheDestinationAndReceives : Prop :=
  ∀ (ref : Option Ref) (s : State) (b : Nat) (r : Bus), s.runsOn b r →
    (∀ lim : Limits, lim.refOk ref = true → decodePrim lim 1#4 ref = some (.read ref)) ∧
    (s.cfg.busSeqCheck = false ∨ r.wire = .mr →
      exec (.read ref) s = .next { s with
        buses := s.buses.set b { r with op := .read, rdest := ref, inflight := some 0x400#11 }
        trace := s.trace ++ [.issued b .rxen] }) ∧
    (s.cfg.busSeqCheck = true → r.wire ≠ .mr →
      exec (.read ref) s = .next { s with
        buses := s.buses.set b { r with op := .read, rdest := ref }
        sysFault := some .busSequence
        trace := s.trace ++ [.fault .busSequence 129] })

/-- 40 R119 with R117 and 20 R62: the byte the reference points at now is transmitted; on an address that is not admitted the running
handler is stuck, and the write of OP before that point remains (60 R251; how a stuck handler is held is the model's choice:
log 6). -/
def Obligations.WriteTransmitsTheByteAtTheReference : Prop :=
  ∀ (a : Ref) (s : State) (b : Nat) (r : Bus), s.runsOn b r →
    (∀ lim : Limits, lim.refOk (some a) = true → decodePrim lim 2#4 (some a) = some (.write (some a))) ∧
    (admitted s.cfg b r a = false →
      exec (.write (some a)) s = .next { s with
        buses := s.buses.set b { r with op := .write }, stuck := s.actor :: s.stuck }) ∧
    ∀ v, admitted s.cfg b r a = true → s.byteAt a = some v →
      (s.cfg.busSeqCheck = false ∨ r.wire = .addr ∨ r.wire = .mt →
        exec (.write (some a)) s = .next { s with
          buses := s.buses.set b { r with op := .write, inflight := some (0x3#3 ++ v) }
          trace := s.trace ++ [.memRead a v, .issued b (.tx v)] }) ∧
      (s.cfg.busSeqCheck = true → r.wire ≠ .addr → r.wire ≠ .mt →
        exec (.write (some a)) s = .next { s with
          buses := s.buses.set b { r with op := .write }
          sysFault := some .busSequence
          trace := s.trace ++ [.memRead a v, .fault .busSequence 129] })

/-- WRITE with no byte to read: with no reference the running handler is stuck (20 R62; log 6, 21), with a reference to a cell that
holds ⊥ it raises F_UNWRITTEN (00 R11; log 4). Both are the model's reading of those rules. -/
def Obligations.WriteWithNoByteToReadStops : Prop :=
  ∀ (s : State) (b : Nat) (r : Bus), s.runsOn b r →
    exec (.write none) s = .next { s with
      buses := s.buses.set b { r with op := .write }, stuck := s.actor :: s.stuck } ∧
    ∀ a, admitted s.cfg b r a = true → s.byteAt a = none →
      exec (.write (some a)) s = .next { s with
        buses := s.buses.set b { r with op := .write }
        sysFault := some .unwritten
        trace := s.trace ++ [.fault .unwritten 119] }

/-- 40 R120 to R123 with R117: RESTART, ACK, NACK and STOP each issue their one operation, or fault on an illegal phase. -/
def Obligations.RestartAckNackStopIssueTheirOperation : Prop :=
  ∀ (s : State) (b : Nat) (r : Bus), s.runsOn b r →
    (∀ lim ref, decodePrim lim 3#4 ref = some .restart ∧ decodePrim lim 4#4 ref = some .ack ∧
      decodePrim lim 5#4 ref = some .nack ∧ decodePrim lim 6#4 ref = some .stop) ∧
    (canIssue s.cfg .restart r.wire → exec .restart s = .next { s with
      buses := s.buses.set b { r with op := .restart, inflight := some 0x100#11 }
      trace := s.trace ++ [.issued b .restart] }) ∧
    (canIssue s.cfg (.ackbit false) r.wire → exec .ack s = .next { s with
      buses := s.buses.set b { r with op := .ack, inflight := some 0x500#11 }
      trace := s.trace ++ [.issued b (.ackbit false)] }) ∧
    (canIssue s.cfg (.ackbit true) r.wire → exec .nack s = .next { s with
      buses := s.buses.set b { r with op := .nack, inflight := some 0x501#11 }
      trace := s.trace ++ [.issued b (.ackbit true)] }) ∧
    (canIssue s.cfg .stop r.wire → exec .stop s = .next { s with
      buses := s.buses.set b { r with op := .stop, inflight := some 0x200#11 }
      trace := s.trace ++ [.issued b .stop] }) ∧
    ∀ i op tag, (i = .restart ∧ op = .restart ∧ tag = .restart) ∨ (i = .ack ∧ op = .ackbit false ∧ tag = .ack) ∨
        (i = .nack ∧ op = .ackbit true ∧ tag = .nack) ∨ (i = .stop ∧ op = .stop ∧ tag = PrimTag.stop) →
      s.cfg.busSeqCheck = true → legalIn op r.wire = false →
      exec i s = .next { s with
        buses := s.buses.set b { r with op := tag }
        sysFault := some .busSequence
        trace := s.trace ++ [.fault .busSequence 129] }

/-- 40 R124 and R125 with R117: DONE clears BUSY and CONT, QUIT leaves both; neither issues an operation. -/
def Obligations.DoneDeregistersAndQuitDoesNot : Prop :=
  ∀ (s : State) (b : Nat) (r : Bus), s.runsOn b r →
    (∀ lim ref, decodePrim lim 7#4 ref = some .done ∧ decodePrim lim 8#4 ref = some .quit) ∧
    exec .done s = .next { s with buses := s.buses.set b { r with op := .done, busy := false, cont := none } } ∧
    exec .quit s = .next { s with buses := s.buses.set b { r with op := .quit } }

/-- 40 R126 and 30 R82: NONE and the codes 9 to 15 are E_BAD_PRIMITIVE with the code, and OP is not written. 60 R240: what raising a
fatal error does: sys.FATAL is written, the event appended, the hook upcalled where one is configured, nothing else (R241); that the hook's
code does nothing to the block, and stores nothing to host memory, is the model's reading (log 14). -/
def Obligations.NoneAndReservedCodesAreFatal : Prop :=
  ∀ (s : State) (ref : Option Ref),
    (∀ lim, (∀ p : BitVec 4, decodePrim lim p ref = none ↔ 9 ≤ p.toNat) ∧ decodePrim lim 0#4 ref = some .primNone) ∧
    exec .primNone s = .next { s with
      sysFatal := some (.badPrimitive, 0)
      trace := s.trace ++ [.fatal .badPrimitive 0 126] ++
        (s.cfg.fatalHook.map fun h => Event.upcall (.fatalHook h 126 0)).toList } ∧
    (∀ p : BitVec 4, p = 0#4 ∨ 9 ≤ p.toNat →
      dispatch p ref s = .next { s with
        sysFatal := some (.badPrimitive, (p.toNat : Int))
        trace := s.trace ++ [.fatal .badPrimitive p.toNat 126] ++
          (s.cfg.fatalHook.map fun h => Event.upcall (.fatalHook h 126 p.toNat)).toList }) ∧
    ∀ (site : Nat) (code : FatalCode) (info : Int),
      s.raiseFatal site code info = { s with
        sysFatal := some (code, info)
        trace := s.trace ++ [.fatal code info site] ++
          (s.cfg.fatalHook.map fun h => Event.upcall (.fatalHook h site info)).toList }

/-! ### Bus operations -/

/-- 40 R130 to R133 and R136: completion of START, RESTART, STOP and the acknowledgement bit. -/
def Obligations.StartRestartStopAckbitComplete : Prop :=
  ∀ (s : State) (b : Nat) (r : Bus), s.runsOn b r →
    (decodeHw 0x000#11 = some .hwStart ∧ decodeHw 0x100#11 = some .hwRestart ∧ decodeHw 0x200#11 = some .hwStop ∧
      decodeHw 0x500#11 = some (.hwAckbit false) ∧ decodeHw 0x501#11 = some (.hwAckbit true)) ∧
    (spelling .start = "START" ∧ spelling .restart = "RESTART" ∧ spelling .stop = "STOP" ∧
      spelling (.ackbit false) = "ACK" ∧ spelling (.ackbit true) = "NACK") ∧
    ∀ i op w, (i = .hwStart ∧ op = .start ∧ w = .addr) ∨ (i = .hwRestart ∧ op = .restart ∧ w = .addr) ∨
        (i = .hwStop ∧ op = .stop ∧ w = .free) ∨ (i = .hwAckbit false ∧ op = .ackbit false ∧ w = .mr) ∨
        (i = .hwAckbit true ∧ op = .ackbit true ∧ w = .mrEnd) →
      exec i s = .next { s with
        buses := s.buses.set b { r with inflight := none, mif := true, wire := wireKept s.cfg w r.wire }
        trace := s.trace ++ [.completed b op .silent] }

/-- 40 R134 with R130: the peer's answer is a draw `a`, written to ACKSTAT; the address byte's bit 0 gives the direction. -/
def Obligations.TransmittedByteSamplesTheAcknowledgement : Prop :=
  ∀ (v : Byte) (s : State) (b : Nat) (r : Bus), s.runsOn b r →
    ∀ a w, a = s.answer.bit →
      (a = true ∧ w = .peerNacked) ∨ (a = false ∧ r.wire = .addr ∧ v.getLsbD 0 = false ∧ w = .mt) ∨
        (a = false ∧ r.wire = .addr ∧ v.getLsbD 0 = true ∧ w = .mr) ∨ (a = false ∧ r.wire ≠ .addr ∧ w = .mt) →
      exec (.hwTx v) s = .next { s.popAnswer with
        buses := s.buses.set b
          { r with ackstat := a, inflight := none, mif := true, wire := wireKept s.cfg w r.wire }
        trace := s.trace ++ [.completed b (.tx v) (.ackBit a)] }

/-- 40 R135 with R130: the received byte is a draw, written to RXBUF. -/
def Obligations.ReceivedByteIsDrawnIntoRxbuf : Prop :=
  ∀ (s : State) (b : Nat) (r : Bus), s.runsOn b r →
    exec .hwRxen s = .next { s.popAnswer with
      buses := s.buses.set b
        { r with rxbuf := s.answer.byte, inflight := none, mif := true, wire := wireKept s.cfg .mrData r.wire }
      trace := s.trace ++ [.completed b .rxen (.data s.answer.byte)] }

/-! ### Frames -/

/-- 60 R257 and 20 R60: no instruction stores to host memory, touches another bus's record, the configuration, the running
agent, the mainline program or the agenda. For an instruction that raises a fatal error where a fatal hook is configured, the clause
on host memory rests on the model's choice that the hook's code stores nothing (log 14). -/
def Obligations.InstructionsStayOnTheirBusAndStoreNothing : Prop :=
  ∀ (i : Instr) (s t : State), exec i s = .next t →
    (∀ a, Memory.read t.mem a = Memory.read s.mem a) ∧
    (∀ c, busOf i s ≠ some c → t.buses[c]? = s.buses[c]?) ∧
    t.buses.length = s.buses.length ∧ t.cfg = s.cfg ∧ t.actor = s.actor ∧ t.program = s.program ∧ t.agenda = s.agenda

/-- Which fields of its bus each host command may write (R110 to R112, R150 to R153, R200 to R202): with those fields set back,
the record is what it was. T_ASYNC writes those of M_START and of the transaction, T_BLOCK also BLK_RESULT, READ_REG that and RCELL,
WRITE_REG that and WCELL. -/
def Obligations.CommandsWriteOnlyTheirFields : Prop :=
  ∀ (i : Instr) (s t : State) (bus : BusField) (r r' : Bus), exec i s = .next t →
    s.buses[bus.toNat]? = some r → t.buses[bus.toNat]? = some r' →
    (i = .mIsBusy bus → r' = r) ∧
    (i = .mReset bus → { r' with busy := r.busy, cont := r.cont } = r) ∧
    ((∃ c u, i = .mStart bus c u) →
      { r' with busy := r.busy, cont := r.cont, udata := r.udata, op := r.op, inflight := r.inflight,
                handed := r.handed } = r) ∧
    ((∃ a7 wb wl rb rl cb, i = .tAsync bus a7 wb wl rb rl cb) →
      { r' with busy := r.busy, cont := r.cont, udata := r.udata, op := r.op, inflight := r.inflight,
                handed := r.handed, addr := r.addr, wptr := r.wptr, wrem := r.wrem, rptr := r.rptr, rrem := r.rrem,
                result := r.result, rcb := r.rcb, wsent := r.wsent, rcode := r.rcode, pstate := r.pstate } = r) ∧
    ((∃ a7 wb wl rb rl, i = .tBlock bus a7 wb wl rb rl) →
      { r' with busy := r.busy, cont := r.cont, udata := r.udata, op := r.op, inflight := r.inflight,
                handed := r.handed, addr := r.addr, wptr := r.wptr, wrem := r.wrem, rptr := r.rptr, rrem := r.rrem,
                result := r.result, rcb := r.rcb, wsent := r.wsent, rcode := r.rcode, pstate := r.pstate,
                blkResult := r.blkResult } = r) ∧
    ((∃ a7 rg ob n, i = .readReg bus a7 rg ob n) →
      { r' with busy := r.busy, cont := r.cont, udata := r.udata, op := r.op, inflight := r.inflight,
                handed := r.handed, addr := r.addr, wptr := r.wptr, wrem := r.wrem, rptr := r.rptr, rrem := r.rrem,
                result := r.result, rcb := r.rcb, wsent := r.wsent, rcode := r.rcode, pstate := r.pstate,
                blkResult := r.blkResult, rcell := r.rcell } = r) ∧
    ((∃ a7 rg ib n, i = .writeReg bus a7 rg ib n) →
      { r' with busy := r.busy, cont := r.cont, udata := r.udata, op := r.op, inflight := r.inflight,
                handed := r.handed, addr := r.addr, wptr := r.wptr, wrem := r.wrem, rptr := r.rptr, rrem := r.rrem,
                result := r.result, rcb := r.rcb, wsent := r.wsent, rcode := r.rcode, pstate := r.pstate,
                blkResult := r.blkResult, wcell := r.wcell } = r) ∧
    ((∃ a7 f g bf bt p, i = .sInit bus a7 f g bf bt p) →
      { r' with saddr := r.saddr, cbMsgFrom := r.cbMsgFrom, cbMsgTo := r.cbMsgTo, cbByteFrom := r.cbByteFrom,
                cbByteTo := r.cbByteTo, sprio := r.sprio, sstate := r.sstate, sif := r.sif, sclhold := r.sclhold,
                senabled := r.senabled } = r) ∧
    (i = .sDisable bus →
      { r' with senabled := r.senabled, sstate := r.sstate, sif := r.sif, sclhold := r.sclhold } = r) ∧
    (i = .sForceIdle bus → { r' with sstate := r.sstate } = r)

/-- Which fields of its bus each primitive (R117 to R126), and each bus operation's completion (R130 to R136), may write. -/
def Obligations.PrimitivesAndBusOperationsWriteOnlyTheirFields : Prop :=
  ∀ (i : Instr) (s t : State) (b : Nat) (r r' : Bus), s.runsOn b r → exec i s = .next t → t.buses[b]? = some r' →
    (i = .primNone → r' = r) ∧
    ((∃ ref, i = .read ref) → { r' with op := r.op, rdest := r.rdest, inflight := r.inflight } = r) ∧
    ((∃ ref, i = .write ref) ∨ i = .restart ∨ i = .ack ∨ i = .nack ∨ i = .stop →
      { r' with op := r.op, inflight := r.inflight } = r) ∧
    (i = .done → { r' with op := r.op, busy := r.busy, cont := r.cont } = r) ∧
    (i = .quit → { r' with op := r.op } = r) ∧
    (i = .hwStart ∨ i = .hwRestart ∨ i = .hwStop ∨ (∃ k, i = .hwAckbit k) →
      { r' with inflight := r.inflight, mif := r.mif, wire := r.wire } = r) ∧
    ((∃ v, i = .hwTx v) → { r' with inflight := r.inflight, mif := r.mif, wire := r.wire, ackstat := r.ackstat } = r) ∧
    (i = .hwRxen → { r' with inflight := r.inflight, mif := r.mif, wire := r.wire, rxbuf := r.rxbuf } = r)

/-- 60 R241: an instruction that raises a fatal error leaves every bus's record and host memory as they were. For READ_REG and
WRITE_REG, whose pseudocode writes RCELL and WCELL first, that the checks come before those writes is the model's reading
(log 15), and so is it that the code of a configured fatal hook stores nothing to host memory (log 14). -/
def Obligations.FatalErrorsLeaveEveryRecordAlone : Prop :=
  ∀ (i : Instr) (s t : State), exec i s = .next t → s.sysFatal = none → t.sysFatal ≠ none →
    t.buses = s.buses ∧ t.mem = s.mem ∧ t.sysFault = s.sysFault ∧ t.sysRefused = s.sysRefused

/-! ### The master's interrupt and its protocol -/

/-- 40 R113 and R114: a completion interrupt with BUSY = 0 faults; after a READ the byte is latched before the continuation is
called, and the latch's own outcomes: on a destination that is not admitted MENG(b) is stuck, and the cleared MIF remains (60 R251;
log 6). What the continuation does after the latch is StepRunsTheReturnedPrimitive and StepRunsTheProtocolsPrimitive. -/
def Obligations.MasterInterruptEntryAndReadLatch : Prop :=
  ∀ (s : State) (b : Nat) (r : Bus), s.halted = false → s.buses[b]? = some r → r.mif = true →
    (r.busy = false →
      mengStep b s = .next { s with
        buses := s.buses.set b { r with mif := false }
        sysFault := some .spuriousMasterInt
        trace := s.trace ++ [.fault .spuriousMasterInt 113] }) ∧
    (r.busy = true → r.op = .read → r.rdest = none →
      mengStep b s = .next { s with
        buses := s.buses.set b { r with mif := false }
        sysFault := some .unwritten
        trace := s.trace ++ [.fault .unwritten 114] }) ∧
    ∀ a, r.busy = true → r.op = .read → r.rdest = some a →
      (admitted s.cfg b r a = false →
        mengStep b s = .next { s with
          buses := s.buses.set b { r with mif := false }, stuck := .meng b :: s.stuck }) ∧
      (admitted s.cfg b r a = true →
        mengStep b s = callContinuation b s.answer.bit s.answer
          ((s.setBus b { r with mif := false }).memWrite a r.rxbuf).popAnswer)

/-- 20 R60 and 40 R114: the exact state after a MemWrite of the block, as the READ latch makes it, at every kind of reference: the
byte it names is the byte written and all else is as before, but for the write's event in the trace. In ordinary memory (canonical
form) one byte changes; ADDRBYTE, RCELL and a cell of WCELL are fields of one record (log 9), and nothing else of that record or of
another changes. A reference that names no byte (RCELL past its one byte, a bus the registry does not hold), which no buffer and no
ADMIT span holds (log 36), changes nothing but the trace: the model's choice. -/
def Obligations.TheLatchStoresExactlyOneByte : Prop :=
  ∀ (s : State) (v : Byte),
    (∀ x, Memory.wf s.mem = true →
      ∃ m, Memory.wf m = true ∧ Memory.read m x = v ∧ (∀ y, y ≠ x → Memory.read m y = Memory.read s.mem y) ∧
        s.memWrite (.mem x) v = { s with mem := m, trace := s.trace ++ [.memWrite (.mem x) v] }) ∧
    (∀ b r, s.buses[b]? = some r →
      s.memWrite (.addrByte b) v = { s with
        buses := s.buses.set b { r with addrByte := some v }
        trace := s.trace ++ [.memWrite (.addrByte b) v] } ∧
      s.memWrite (.rcell b 0) v = { s with
        buses := s.buses.set b { r with rcell := some v }
        trace := s.trace ++ [.memWrite (.rcell b 0) v] } ∧
      (∀ i, i ≠ 0 → s.memWrite (.rcell b i) v = { s with trace := s.trace ++ [.memWrite (.rcell b i) v] }) ∧
      (∀ i, ∃ cells : List (Option Byte),
        cellAt cells i = some v ∧ (∀ j, j ≠ i → cellAt cells j = cellAt r.wcell j) ∧
        s.memWrite (.wcell b i) v = { s with
          buses := s.buses.set b { r with wcell := cells }
          trace := s.trace ++ [.memWrite (.wcell b i) v] })) ∧
    (∀ b ref, s.buses.length ≤ b → (ref = .addrByte b ∨ ∃ i, ref = .rcell b i ∨ ref = .wcell b i) →
      s.memWrite ref v = { s with trace := s.trace ++ [.memWrite ref v] })

/-- 41 R155 to R163: the rows of START_DONE, ADDRESS_DONE and WRITE_IN_PROGRESS. That a stepped pointer wraps at the top of the
address space (`refNext`) is the model's choice (log 23). -/
def Obligations.ProtocolAddressAndWriteRows : Prop :=
  ∀ (c : Cfg) (b : Nat) (r : Bus),
    (∀ nack a, r.pstate = .startDone → r.addr = some a →
      protoRow c b nack r = .ret .write (some (.addrByte b))
        { r with addrByte := some (if 0 < r.wrem then addressByte a false else addressByte a true), pstate := .addressDone }) ∧
    (r.pstate = .addressDone → protoRow c b true r = .ret .stop none
        { r with result := false, rcode := if c.richResult then some .nackAddress else r.rcode, pstate := .stopDone }) ∧
    (∀ p, r.pstate = .addressDone ∨ r.pstate = .writeInProgress → 0 < r.wrem → r.wptr = some p →
      protoRow c b false r = .ret .write (some p)
        { r with wptr := some (refNext c.addrBits p), wrem := r.wrem - 1,
                 wsent := if c.richResult then r.wsent + 1 else r.wsent, pstate := .writeInProgress }) ∧
    (∀ p, r.pstate = .addressDone → r.wrem = 0 → 0 < r.rrem → r.rptr = some p →
      protoRow c b false r = .ret .read (some p)
        { r with rptr := some (refNext c.addrBits p), rrem := r.rrem - 1, pstate := .readInProgress }) ∧
    (r.pstate = .addressDone ∨ r.pstate = .writeInProgress → r.wrem = 0 → r.rrem = 0 →
      protoRow c b false r = .ret .stop none
        { r with result := true, rcode := if c.richResult then some .finished else r.rcode, pstate := .stopDone }) ∧
    (r.pstate = .writeInProgress → protoRow c b true r = .ret .stop none
        { r with result := false,
                 rcode := if c.richResult then some (if r.wsent = 1 then .nackRegister else .nackData) else r.rcode,
                 pstate := .stopDone }) ∧
    (r.pstate = .writeInProgress → r.wrem = 0 → 0 < r.rrem →
      protoRow c b false r = .ret .restart none { r with pstate := .startDone })

/-- 41 R164 to R167, and R154's fatal row. That a stepped pointer wraps at the top of the address space (`refNext`) is the model's
choice (log 23). -/
def Obligations.ProtocolReadRows : Prop :=
  ∀ (c : Cfg) (b : Nat) (nack : Bool) (r : Bus),
    (r.pstate = .readInProgress → 0 < r.rrem → protoRow c b nack r = .ret .ack none { r with pstate := .ackDone }) ∧
    (r.pstate = .readInProgress → r.rrem = 0 → protoRow c b nack r = .ret .nack none
        { r with result := true, rcode := if c.richResult then some .finished else r.rcode, pstate := .nackDone }) ∧
    (∀ p, r.pstate = .ackDone → 0 < r.rrem → r.rptr = some p →
      protoRow c b nack r = .ret .read (some p)
        { r with rptr := some (refNext c.addrBits p), rrem := r.rrem - 1, pstate := .readInProgress }) ∧
    (r.pstate = .nackDone → protoRow c b nack r = .ret .stop none { r with pstate := .stopDone }) ∧
    (∀ s : State, r.pstate = .idle → runProto b nack r s = .next (s.raiseFatal 154 .badState 0))

/-- 41 R154: "It never returns `NONE`, `QUIT` or a reserved code", and the engine's fields are left to the engine (40 R128). -/
def Obligations.ProtoReturnsOnlyItsSevenCodes : Prop :=
  ∀ (c : Cfg) (b : Nat) (nack : Bool) (r r' : Bus) (p : PrimTag) (ref : Option Ref),
    protoRow c b nack r = .ret p ref r' →
    (p = .read ∨ p = .write ∨ p = .restart ∨ p = .ack ∨ p = .nack ∨ p = .stop ∨ p = .done) ∧
    r'.busy = r.busy ∧ r'.op = r.op ∧ r'.cont = r.cont ∧ r'.inflight = r.inflight ∧ r'.mif = r.mif ∧ r'.wire = r.wire ∧
    r'.handed = r.handed ∧ r'.udata = r.udata ∧ r'.rdest = r.rdest ∧ r'.ackstat = r.ackstat ∧ r'.rxbuf = r.rxbuf

/-- 41 R171 and 60 R244, R245: at either state that reads `nack`, a NACK makes the step issue STOP with result false, halting
nothing. That the trace gets the issued STOP alone, and no upcall event for the call of PROTO, is the model's choice (log 31). -/
def Obligations.NackAbortsWithStopAndNoRetry : Prop :=
  ∀ (s : State) (b : Nat) (r : Bus), s.halted = false → s.turn = .meng b → .meng b ∉ s.stuck → s.buses[b]? = some r →
    r.midTransfer →
    r.op = .write → r.ackstat = true → r.pstate = .addressDone ∨ r.pstate = .writeInProgress →
    canIssue s.cfg .stop r.wire →
    ∃ t r', step s = .next t ∧ t.halted = false ∧ t.buses[b]? = some r' ∧ r'.result = false ∧ r'.pstate = .stopDone ∧
      r'.inflight = some 0x200#11 ∧ r'.busy = true ∧ r'.wrem = r.wrem ∧ r'.rrem = r.rrem ∧
      t.trace = s.trace ++ [.issued b .stop]

/-- 41 R168, R176, 20 R73: the STOP_DONE interrupt upcalls the result callback, then PSTATE ← IDLE and DONE clears BUSY; BLKCB
stores BLK_RESULT. That the trace gets an upcall event for the result callback, BLKCB too, and none for the call of PROTO itself, is
the model's choice (log 31). -/
def Obligations.StopDoneReportsThenClearsBusy : Prop :=
  ∀ (s : State) (b : Nat) (r : Bus), s.halted = false → s.turn = .meng b → .meng b ∉ s.stuck → s.buses[b]? = some r →
    r.midTransfer →
    r.op ≠ .read → r.pstate = .stopDone →
    (∀ n, r.rcb = some (.user n) → s.popTurn.popAnswer.answer.acts = [] →
      step s = .next { s.popTurn.popAnswer.popAnswer with
        actor := .host
        buses := s.buses.set b { r with mif := false, pstate := .idle, op := .done, busy := false, cont := none }
        trace := s.trace ++ [.upcall (.onDone (.user n) b r.result)] }) ∧
    (r.rcb = some .blkcb →
      step s = .next { s.popTurn.popAnswer with
        actor := .host
        buses := s.buses.set b
          { r with mif := false, blkResult := some r.result, pstate := .idle, op := .done, busy := false, cont := none }
        trace := s.trace ++ [.upcall (.onDone .blkcb b r.result)] })

/-- 70 R289: a result callback that starts a transfer on its own bus raises E_BUSY, because BUSY is still 1. -/
def Obligations.ResultCallbackStartingOnItsBusIsFatal : Prop :=
  ∀ (s : State) (b n : Nat) (r : Bus) (c : CmdWord) (rest : List Act) (bus : BusField) (a7 : Addr7) (wb rb : Option Nat)
    (wl rl cb : Nat),
    s.halted = false → s.turn = .meng b → .meng b ∉ s.stuck → s.buses[b]? = some r → r.midTransfer → r.op ≠ .read →
    r.pstate = .stopDone → r.rcb = some (.user n) → roleOf s.cfg b = .master →
    s.popTurn.popAnswer.answer.acts = .cmd c :: rest →
    decodeCmd s.cfg.limits c = .ok (.tAsync bus a7 wb wl rb rl cb) → bus.toNat = b → 0 < wl + rl →
    ∃ t, step s = .next t ∧ t.sysFatal = some (.busy, (b : Int)) ∧ t.buses = s.buses.set b { r with mif := false }

/-- 41 R151, a poll iteration: nothing while BUSY = 1; then BLK_RESULT is returned, or a draw where it is ⊥. -/
def Obligations.BlockingPollReturnsTheResult : Prop :=
  ∀ (s : State) (b : Nat) (r : Bus), s.halted = false → s.turn = .host → s.hostCall = some b → s.buses[b]? = some r →
    (r.busy = true → step s = .next { s.popTurn with actor := .host }) ∧
    (∀ v, r.busy = false → r.blkResult = some v →
      step s = .next { s.popTurn with actor := .host, hostCall := none, ret := some v }) ∧
    (r.busy = false → r.blkResult = none →
      step s = .next { s.popTurn.popAnswer with actor := .host, hostCall := none, ret := some s.popTurn.answer.bit })

/-- 40 R137 and 70 R296: a bus fault drops the operation with no interrupt, BUSY stays 1; M_RESET is then legal and recovers. -/
def Obligations.BusFaultDropsTheOperationAndResetRecovers : Prop :=
  ∀ (s : State) (bus : BusField) (r : Bus), s.halted = false → s.turn = .busFault bus.toNat → s.busIs bus .master r →
    r.inflight ≠ none → r.mif = false →
    ∃ t, step s = .next t ∧
      t = { s.popTurn with
        actor := .host
        buses := s.buses.set bus.toNat { r with inflight := none, wire := wireKept s.cfg .free r.wire } } ∧
      exec (.mReset bus) t = .next { t with
        buses := s.buses.set bus.toNat
          { r with inflight := none, wire := wireKept s.cfg .free r.wire, busy := false, cont := none } }

/-! ### The slave -/

/-- 42 R206, R207, R208 with R205 and R212: the slave interrupt in IDLE, where the callbacks do nothing else. -/
def Obligations.SlaveIdleInterrupt : Prop :=
  ∀ (s : State) (b : Nat) (r : Bus), s.halted = false → s.buses[b]? = some r → r.sif = true → r.senabled = true →
    r.sstate = .idle →
    (r.slDa = true → sengStep b s = .next { s with
      buses := s.buses.set b { r with sif := false }
      sysFault := some .slaveDesync
      trace := s.trace ++ [.fault .slaveDesync 208] }) ∧
    (∀ cb, r.slDa = false → r.slRw = false → r.cbMsgFrom = some cb → s.answer.acts = [] →
      sengStep b s = .next { s.popAnswer with
        buses := s.buses.set b { r with sif := false, sstate := .fromMaster, sclhold := false }
        trace := s.trace ++ [.upcall (.msgFromMaster cb b)] }) ∧
    (∀ cb, r.slDa = false → r.slRw = true → r.cbMsgTo = some cb → s.answer.acts = [] → s.cfg.slaveTxOnAddress = false →
      sengStep b s = .next { s.popAnswer with
        buses := s.buses.set b { r with sif := false, sstate := .toMaster, sclhold := false }
        trace := s.trace ++ [.upcall (.msgToMaster cb b)] }) ∧
    (∀ cb cd, r.slDa = false → r.slRw = true → r.cbMsgTo = some cb → r.cbByteTo = some cd → s.answer.acts = [] →
      s.popAnswer.answer.acts = [] → s.cfg.slaveTxOnAddress = true →
      sengStep b s = .next { s.popAnswer.popAnswer with
        buses := s.buses.set b
          { r with
            sif := false, slTx := s.popAnswer.answer.byte, sclhold := false
            sstate := if s.popAnswer.answer.bit then .endToMaster else .toMaster }
        trace := s.trace ++ [.upcall (.msgToMaster cb b),
          .upcall (.byteToMaster cd b s.popAnswer.answer.byte s.popAnswer.answer.bit)] })

/-- 42 R209, R210, R211 with R205, R212 and R214: the slave interrupt outside IDLE, whatever SL_DA holds. -/
def Obligations.SlaveInterruptOutsideIdle : Prop :=
  ∀ (s : State) (b : Nat) (r : Bus), s.halted = false → s.buses[b]? = some r → r.sif = true → r.senabled = true →
    (∀ cb, r.sstate = .toMaster → r.cbByteTo = some cb → s.answer.acts = [] →
      sengStep b s = .next { s.popAnswer with
        buses := s.buses.set b
          { r with
            sif := false, slTx := s.answer.byte, sclhold := false
            sstate := if s.answer.bit then .endToMaster else .toMaster }
        trace := s.trace ++ [.upcall (.byteToMaster cb b s.answer.byte s.answer.bit)] }) ∧
    (r.sstate = .endToMaster →
      sengStep b s = .next { s with
        buses := s.buses.set b { r with sif := false, sstate := .idle, sclhold := false } }) ∧
    (∀ cb, r.sstate = .fromMaster → r.cbByteFrom = some cb → s.answer.acts = [] →
      sengStep b s = .next { s.popAnswer with
        buses := s.buses.set b
          { r with sif := false, sclhold := false, sstate := if s.answer.bit then .idle else .fromMaster }
        trace := s.trace ++ [.upcall (.byteFromMaster cb b r.slRx s.answer.bit)] })

/-- 42 R212: "Every SENG step that does not fault ends with `SCLHOLD <- 0`", whatever the callbacks do. -/
def Obligations.EverySlaveStepReleasesTheClock : Prop :=
  ∀ (s t : State) (b : Nat) (r : Bus), s.halted = false → s.buses[b]? = some r → r.sif = true → r.senabled = true →
    sengStep b s = .next t → t.halted = false → ∃ r', t.buses[b]? = some r' ∧ r'.sclhold = false

/-- 42 R204: each event of the remote master where it is enabled, and none while the slave stretches the clock, has an
interrupt pending or is off. -/
def Obligations.RemoteMasterEvents : Prop :=
  ∀ (s : State) (b : Nat) (r : Bus), s.buses[b]? = some r →
    (∀ e, r.senabled = false ∨ r.sclhold = true ∨ r.sif = true → rmasterStep b e s = .next s) ∧
    (r.senabled = true → r.sclhold = false → r.sif = false →
      (∀ rw a, r.saddr = some a →
        rmasterStep b (.address rw) s = .next { s with
          buses := s.buses.set b
            { r with
              slDa := false, slRw := rw, slRx := addressByte a rw, swire := if rw then .sr else .sw
              sclhold := true, sif := true } }) ∧
      (∀ v, r.swire = .sw →
        rmasterStep b (.dataIn v) s = .next { s with
          buses := s.buses.set b { r with slDa := true, slRx := v, sclhold := true, sif := true } }) ∧
      (∀ v, r.swire ≠ .sw → rmasterStep b (.dataIn v) s = .next s) ∧
      (∀ a, r.swire = .sr →
        rmasterStep b (.dataOut a) s = .next { s with
          buses := s.buses.set b
            { r with slDa := true, swire := if a then .srEnd else .sr, sclhold := true, sif := true }
          trace := s.trace ++ [.clockedOut b r.slTx a] }) ∧
      (∀ a, r.swire ≠ .sr → rmasterStep b (.dataOut a) s = .next s) ∧
      (r.swire ≠ .free → rmasterStep b .stop s = .next { s with buses := s.buses.set b { r with swire := .free } }) ∧
      (r.swire = .free → rmasterStep b .stop s = .next s))

/-! ### Whole phases of a transfer -/

/-- 41 R157, R161, R172, R174 and 20 R63: where the peer acknowledges, the write phase sends the bytes of the write buffer in
ascending order, one interrupt an operation, and nothing else: n bytes in 2n steps from any state in which PROTO is about to
send the first of them (the address acknowledged) or a later one. The buffer is the caller's, RCELL or WCELL; in the caller's the
addresses wrap at the top of the address space, the model's choice (log 23). -/
def Obligations.WritePhaseSendsTheBufferInOrder : Prop :=
  ∀ (vs : List Byte) (p : Ref) (b : Nat) (s : State) (r : Bus) (ts : List Turn) (ds : List Answer),
    s.halted = false → .meng b ∉ s.stuck → s.buses[b]? = some r → r.midTransfer → r.op = .write → r.ackstat = false →
    r.pstate = .addressDone ∨ r.pstate = .writeInProgress → r.wrem = vs.length → r.wptr = some p →
    refAdd s.cfg.addrBits p 0 = p → (vs = [] ∨ s.cfg.busSeqCheck = false ∨ r.wire = .mt) →
    (∀ k v, vs[k]? = some v → admitted s.cfg b r (refAdd s.cfg.addrBits p k) = true ∧
      s.byteAt (refAdd s.cfg.addrBits p k) = some v) →
    s.agenda = (List.replicate vs.length [Turn.meng b, Turn.busComplete b]).flatten ++ ts →
    s.answers = List.replicate (2 * vs.length) (quietDraw false 0) ++ ds →
    ∃ t r', core.run (2 * vs.length) s = .next t ∧ t.halted = false ∧ t.buses[b]? = some r' ∧
      t.busTrace b = s.busTrace b ++ vs.map HwOp.tx ∧
      r'.pstate = (if vs = [] then r.pstate else .writeInProgress) ∧ r'.wrem = 0 ∧ r'.rrem = r.rrem ∧
      r'.ackstat = false ∧ r'.mif = true ∧ r'.busy = true ∧ (∀ a, Memory.read t.mem a = Memory.read s.mem a) ∧
      t.agenda = ts ∧ t.answers = ds

/-- 41 R164, R166, R172, R174: the read phase acknowledges and reads on while bytes remain: n more bytes arrive at ascending
addresses, each after its own ACK, in 4n steps from any state in which PROTO has just received a byte. The addresses wrap at the top
of the address space, the model's choice (log 23). -/
def Obligations.ReadPhaseFillsTheBufferInOrder : Prop :=
  ∀ (vs : List Byte) (base b : Nat) (s : State) (r : Bus) (ts : List Turn) (ds : List Answer),
    s.halted = false → .meng b ∉ s.stuck → Memory.wf s.mem = true → s.buses[b]? = some r → r.midTransfer → r.op = .read →
    r.pstate = .readInProgress → r.rrem = vs.length → r.rdest = some (.mem base) →
    r.rptr = some (.mem ((base + 1) % 2 ^ s.cfg.addrBits)) → base < 2 ^ s.cfg.addrBits →
    vs.length < 2 ^ s.cfg.addrBits →
    (vs = [] ∨ canIssue s.cfg (.ackbit false) r.wire) →
    (∀ k, k < vs.length → admitted s.cfg b r (.mem ((base + k) % 2 ^ s.cfg.addrBits)) = true) →
    s.agenda = (List.replicate vs.length [Turn.meng b, Turn.busComplete b, Turn.meng b, Turn.busComplete b]).flatten ++ ts →
    s.answers = (vs.map fun v => [quietDraw false 0, quietDraw false 0, quietDraw false v]).flatten ++ ds →
    ∃ t r', core.run (4 * vs.length) s = .next t ∧ t.halted = false ∧ t.buses[b]? = some r' ∧
      t.busTrace b = s.busTrace b ++ (List.replicate vs.length [HwOp.ackbit false, HwOp.rxen]).flatten ∧
      r'.pstate = .readInProgress ∧ r'.rrem = 0 ∧ r'.mif = true ∧ r'.busy = true ∧
      r'.rdest = some (.mem ((base + vs.length) % 2 ^ s.cfg.addrBits)) ∧
      (∀ k, k < vs.length →
        Memory.read t.mem ((base + k) % 2 ^ s.cfg.addrBits) = ((r.rxbuf :: vs)[k]?).getD 0) ∧
      (∀ x, (∀ k, k < vs.length → x ≠ (base + k) % 2 ^ s.cfg.addrBits) → Memory.read t.mem x = Memory.read s.mem x) ∧
      r'.rxbuf = ((r.rxbuf :: vs)[vs.length]?).getD 0 ∧ t.agenda = ts ∧ t.answers = ds
end

