-- ==== Sys2Proof/Laws/Decode.lean ====
section
/-! SUPPORT. The decoder and the encoder: a header's fields, what the opcode column gives, and when each check of
30_encoding.md R90 refuses. -/

namespace Sys2Proof

/-! ### The header -/

theorem headerOf_toNat (k : Cmd) (bus : BusField) (a7 : Addr7) :
    (headerOf k bus a7).toNat = k.opc.toNat * 4096 + bus.toNat * 256 + a7.toNat := by
  have h : (headerOf k bus a7).toNat = ((k.opc.toNat <<< 4 ||| bus.toNat) <<< 1 ||| 0) <<< 7 ||| a7.toNat := rfl
  have h1 := bus.isLt
  have h2 := a7.isLt
  rw [h, Nat.or_zero, ← Nat.shiftLeft_add_eq_or_of_lt h2, ← Nat.shiftLeft_add_eq_or_of_lt h1]
  simp only [Nat.shiftLeft_eq]
  omega

@[simp] theorem hdrOpc_headerOf (k : Cmd) (bus : BusField) (a7 : Addr7) : hdrOpc (headerOf k bus a7) = k.opc := by
  apply BitVec.eq_of_toNat_eq
  have h0 := k.opc.isLt
  have h1 := bus.isLt
  have h2 := a7.isLt
  simp only [hdrOpc, BitVec.extractLsb'_toNat, headerOf_toNat, Nat.shiftRight_eq_div_pow]
  omega

@[simp] theorem hdrBus_headerOf (k : Cmd) (bus : BusField) (a7 : Addr7) : hdrBus (headerOf k bus a7) = bus := by
  apply BitVec.eq_of_toNat_eq
  have h0 := k.opc.isLt
  have h1 := bus.isLt
  have h2 := a7.isLt
  simp only [hdrBus, BitVec.extractLsb'_toNat, headerOf_toNat, Nat.shiftRight_eq_div_pow]
  omega

@[simp] theorem hdrA7_headerOf (k : Cmd) (bus : BusField) (a7 : Addr7) : hdrA7 (headerOf k bus a7) = a7 := by
  apply BitVec.eq_of_toNat_eq
  have h1 := bus.isLt
  have h2 := a7.isLt
  simp only [hdrA7, BitVec.extractLsb'_toNat, headerOf_toNat, Nat.shiftRight_zero]
  omega

@[simp] theorem hdrZ_headerOf (k : Cmd) (bus : BusField) (a7 : Addr7) : hdrZ (headerOf k bus a7) = false := by
  have h1 := bus.isLt
  have h2 := a7.isLt
  simp only [hdrZ, BitVec.getLsbD, headerOf_toNat, Nat.testBit_eq_decide_div_mod_eq, decide_eq_false_iff_not]
  omega

/-- A header with Z = 0 is the one its own fields make. -/
theorem headerOf_fields (h : BitVec 16) (k : Cmd) (ho : hdrOpc h = k.opc) (hz : hdrZ h = false) :
    headerOf k (hdrBus h) (hdrA7 h) = h := by
  apply BitVec.eq_of_toNat_eq
  rw [headerOf_toNat, ← ho]
  simp only [hdrZ, BitVec.getLsbD, Nat.testBit_eq_decide_div_mod_eq, decide_eq_false_iff_not] at hz
  simp only [hdrOpc, hdrBus, hdrA7, BitVec.extractLsb'_toNat, Nat.shiftRight_eq_div_pow]
  have := h.isLt
  omega

/-! ### The opcode column -/

@[simp] theorem Cmd.ofOpc_opc (k : Cmd) : Cmd.ofOpc k.opc = some k := by cases k <;> rfl

theorem Cmd.opc_of_ofOpc {o : BitVec 4} {k : Cmd} (h : Cmd.ofOpc o = some k) : o = k.opc := by
  unfold Cmd.ofOpc at h
  split at h <;> simp at h <;> subst h <;> rfl

theorem Cmd.ofOpc_eq_none : ∀ o : BitVec 4, Cmd.ofOpc o = none ↔ (o = 0#4 ∨ 11 ≤ o.toNat) := by decide

/-! ### The checks of R90 -/

theorem takeBase_eq_none (lim : Limits) (base : Option Nat) (n : Nat) :
    takeBase lim base n = none ↔ Machine.baseIsBad lim base (some n) := by
  cases base <;> simp [takeBase, Machine.baseIsBad, Limits.addrOk, Nat.pos_iff_ne_zero]

/-- A base that is already what R89 says is kept. -/
theorem takeBase_of_baseOk {lim : Limits} {base : Option Nat} {n : Nat} (h : lim.baseOk base n = true) :
    takeBase lim base n = some base := by
  cases base with
  | none => simpa [takeBase, Limits.baseOk] using h
  | some a =>
    simp only [Limits.baseOk, Bool.and_eq_true, bne_iff_ne] at h
    simp [takeBase, h.1, h.2]

/-- What the decoder keeps is what R89 says: ⊥ beside a length of 0, else a host address. -/
theorem baseOk_of_takeBase {lim : Limits} {base x : Option Nat} {n : Nat} (h : takeBase lim base n = some x) :
    lim.baseOk x n = true := by
  cases base with
  | none =>
    by_cases hn : n = 0 <;> simp [takeBase, hn] at h
    subst h; simp [Limits.baseOk, hn]
  | some a =>
    by_cases ha : lim.addrOk a = true <;> by_cases hn : n = 0 <;> simp [takeBase, ha, hn] at h <;> subst h <;>
      simp [Limits.baseOk, ha, hn]

/-- A reference of HOST_ADDR_BITS bits is kept. -/
theorem takeRef_of_refOk {lim : Limits} {ref : Option Ref} (h : lim.refOk ref = true) : takeRef lim ref = ref := by
  rcases ref with _ | ⟨a | b | ⟨b, i⟩ | ⟨b, i⟩⟩ <;> simp_all [takeRef, Limits.refOk, Limits.addrOk, Nat.mod_eq_of_lt]

/-- What the decoder keeps of a reference has HOST_ADDR_BITS bits (R81). -/
theorem refOk_takeRef (lim : Limits) (ref : Option Ref) : lim.refOk (takeRef lim ref) = true := by
  rcases ref with _ | ⟨a | b | ⟨b, i⟩ | ⟨b, i⟩⟩ <;> simp [takeRef, Limits.refOk, Limits.addrOk, Nat.mod_lt]

@[simp] theorem takeRef_takeRef (lim : Limits) (ref : Option Ref) : takeRef lim (takeRef lim ref) = takeRef lim ref :=
  takeRef_of_refOk (refOk_takeRef lim ref)

theorem takeByte_eq_none (v : Nat) : takeByte v = none ↔ 256 ≤ v := by
  unfold takeByte
  split <;> rename_i h <;> constructor <;> intro h' <;> first | omega | rfl | cases h'

theorem takeByte_toNat (v : Byte) : takeByte v.toNat = some v := by
  unfold takeByte; rw [if_pos v.isLt, BitVec.ofNat_toNat, BitVec.setWidth_eq]

theorem Limits.lenOk_eq_false (lim : Limits) (n : Nat) : lim.lenOk n = false ↔ lim.lenMax < n := by
  simp [Limits.lenOk]

theorem Option.all_eq_false_iff {α : Type} (p : α → Bool) (o : Option α) :
    o.all p = false ↔ ∃ x, o = some x ∧ p x = false := by
  cases o <;> simp

/-- (d): the length check fails exactly on a length that is too long. -/
theorem Cmd.lengthsOk_eq_false (lim : Limits) (o : OpRecord) (k : Cmd) :
    k.lengthsOk lim o = false ↔ Machine.lengthIsTooLong lim k.opc o := by
  cases k <;>
    simp only [Cmd.lengthsOk, Machine.lengthIsTooLong, Cmd.opc, Bool.and_eq_false_iff, Option.all_eq_false_iff,
      Limits.lenOk_eq_false] <;>
    simp
  all_goals
    constructor
    · rintro (⟨n, h, h'⟩ | ⟨n, h, h'⟩)
      · exact ⟨n, .inl h, h'⟩
      · exact ⟨n, .inr h, h'⟩
    · rintro ⟨n, h | h, h'⟩
      · exact .inl ⟨n, h, h'⟩
      · exact .inr ⟨n, h, h'⟩

/-- (e): no instruction comes of the operands exactly when one of them is bad. -/
theorem Cmd.operands_eq_none (lim : Limits) (bus : BusField) (a7 : Addr7) (o : OpRecord) (k : Cmd) :
    k.operands lim bus a7 o = none ↔ Machine.operandIsBad lim k.opc o := by
  obtain ⟨cont, udata, wbase, wlen, rbase, rlen, onDone, reg, obase, ibase, n, f, g, bf, bt, prio⟩ := o
  cases k <;> simp only [Cmd.operands, Machine.operandIsBad, Cmd.opc] <;> simp
  · cases cont <;> cases udata <;> simp
  · cases wlen <;> cases rlen <;> cases onDone <;> simp
    rename_i wl rl cb
    rw [← takeBase_eq_none, ← takeBase_eq_none]
    cases takeBase lim wbase wl <;> cases takeBase lim rbase rl <;> simp
  · cases wlen <;> cases rlen <;> simp
    rename_i wl rl
    rw [← takeBase_eq_none, ← takeBase_eq_none]
    cases takeBase lim wbase wl <;> cases takeBase lim rbase rl <;> simp
  · cases reg <;> cases n <;> simp
    rename_i v k
    rw [← takeBase_eq_none, ← takeByte_eq_none]
    cases takeByte v <;> rcases e : takeBase lim obase k with _ | x <;> simp [e]
  · cases reg <;> cases n <;> simp
    rename_i v k
    rw [← takeBase_eq_none, ← takeByte_eq_none]
    cases takeByte v <;> rcases e : takeBase lim ibase k with _ | x <;> simp [e]
  · cases f <;> cases g <;> cases bf <;> cases bt <;> cases prio <;> simp

end Sys2Proof
end

