-- ==== Sys2Proof/Laws/State.lean ====
section
/-! SUPPORT. One lemma per field per update of State and of a bus's record, so that no later proof unfolds a record update. -/

namespace Sys2Proof.Machine

/-! ### Updates of State -/

@[simp] theorem State.setBus_cfg (b : Nat) (r : Bus) (s : State) : (s.setBus b r).cfg = s.cfg := rfl
@[simp] theorem State.setBus_buses (b : Nat) (r : Bus) (s : State) : (s.setBus b r).buses = s.buses.set b r := rfl
@[simp] theorem State.setBus_mem (b : Nat) (r : Bus) (s : State) : (s.setBus b r).mem = s.mem := rfl
@[simp] theorem State.setBus_sysFatal (b : Nat) (r : Bus) (s : State) : (s.setBus b r).sysFatal = s.sysFatal := rfl
@[simp] theorem State.setBus_sysFault (b : Nat) (r : Bus) (s : State) : (s.setBus b r).sysFault = s.sysFault := rfl
@[simp] theorem State.setBus_sysRefused (b : Nat) (r : Bus) (s : State) : (s.setBus b r).sysRefused = s.sysRefused := rfl
@[simp] theorem State.setBus_trace (b : Nat) (r : Bus) (s : State) : (s.setBus b r).trace = s.trace := rfl
@[simp] theorem State.setBus_actor (b : Nat) (r : Bus) (s : State) : (s.setBus b r).actor = s.actor := rfl
@[simp] theorem State.setBus_hostCall (b : Nat) (r : Bus) (s : State) : (s.setBus b r).hostCall = s.hostCall := rfl
@[simp] theorem State.setBus_ret (b : Nat) (r : Bus) (s : State) : (s.setBus b r).ret = s.ret := rfl
@[simp] theorem State.setBus_program (b : Nat) (r : Bus) (s : State) : (s.setBus b r).program = s.program := rfl
@[simp] theorem State.setBus_agenda (b : Nat) (r : Bus) (s : State) : (s.setBus b r).agenda = s.agenda := rfl
@[simp] theorem State.setBus_answers (b : Nat) (r : Bus) (s : State) : (s.setBus b r).answers = s.answers := rfl
@[simp] theorem State.setBus_drawn (b : Nat) (r : Bus) (s : State) : (s.setBus b r).drawn = s.drawn := rfl
@[simp] theorem State.setBus_stuck (b : Nat) (r : Bus) (s : State) : (s.setBus b r).stuck = s.stuck := rfl
@[simp] theorem State.record_cfg (e : Event) (s : State) : (s.record e).cfg = s.cfg := rfl
@[simp] theorem State.record_buses (e : Event) (s : State) : (s.record e).buses = s.buses := rfl
@[simp] theorem State.record_mem (e : Event) (s : State) : (s.record e).mem = s.mem := rfl
@[simp] theorem State.record_sysFatal (e : Event) (s : State) : (s.record e).sysFatal = s.sysFatal := rfl
@[simp] theorem State.record_sysFault (e : Event) (s : State) : (s.record e).sysFault = s.sysFault := rfl
@[simp] theorem State.record_sysRefused (e : Event) (s : State) : (s.record e).sysRefused = s.sysRefused := rfl
@[simp] theorem State.record_trace (e : Event) (s : State) : (s.record e).trace = s.trace ++ [e] := rfl
@[simp] theorem State.record_actor (e : Event) (s : State) : (s.record e).actor = s.actor := rfl
@[simp] theorem State.record_hostCall (e : Event) (s : State) : (s.record e).hostCall = s.hostCall := rfl
@[simp] theorem State.record_ret (e : Event) (s : State) : (s.record e).ret = s.ret := rfl
@[simp] theorem State.record_program (e : Event) (s : State) : (s.record e).program = s.program := rfl
@[simp] theorem State.record_agenda (e : Event) (s : State) : (s.record e).agenda = s.agenda := rfl
@[simp] theorem State.record_answers (e : Event) (s : State) : (s.record e).answers = s.answers := rfl
@[simp] theorem State.record_drawn (e : Event) (s : State) : (s.record e).drawn = s.drawn := rfl
@[simp] theorem State.record_stuck (e : Event) (s : State) : (s.record e).stuck = s.stuck := rfl
@[simp] theorem State.raiseFatal_cfg (n : Nat) (c : FatalCode) (x : Int) (s : State) : (s.raiseFatal n c x).cfg = s.cfg := rfl
@[simp] theorem State.raiseFatal_buses (n : Nat) (c : FatalCode) (x : Int) (s : State) : (s.raiseFatal n c x).buses = s.buses := rfl
@[simp] theorem State.raiseFatal_mem (n : Nat) (c : FatalCode) (x : Int) (s : State) : (s.raiseFatal n c x).mem = s.mem := rfl
@[simp] theorem State.raiseFatal_sysFatal (n : Nat) (c : FatalCode) (x : Int) (s : State) : (s.raiseFatal n c x).sysFatal = some (c, x) := rfl
@[simp] theorem State.raiseFatal_sysFault (n : Nat) (c : FatalCode) (x : Int) (s : State) : (s.raiseFatal n c x).sysFault = s.sysFault := rfl
@[simp] theorem State.raiseFatal_sysRefused (n : Nat) (c : FatalCode) (x : Int) (s : State) : (s.raiseFatal n c x).sysRefused = s.sysRefused := rfl
@[simp] theorem State.raiseFatal_trace (n : Nat) (c : FatalCode) (x : Int) (s : State) : (s.raiseFatal n c x).trace = s.trace ++ (.fatal c x n :: hookEvents s.cfg.fatalHook n x) := rfl
@[simp] theorem State.raiseFatal_actor (n : Nat) (c : FatalCode) (x : Int) (s : State) : (s.raiseFatal n c x).actor = s.actor := rfl
@[simp] theorem State.raiseFatal_hostCall (n : Nat) (c : FatalCode) (x : Int) (s : State) : (s.raiseFatal n c x).hostCall = s.hostCall := rfl
@[simp] theorem State.raiseFatal_ret (n : Nat) (c : FatalCode) (x : Int) (s : State) : (s.raiseFatal n c x).ret = s.ret := rfl
@[simp] theorem State.raiseFatal_program (n : Nat) (c : FatalCode) (x : Int) (s : State) : (s.raiseFatal n c x).program = s.program := rfl
@[simp] theorem State.raiseFatal_agenda (n : Nat) (c : FatalCode) (x : Int) (s : State) : (s.raiseFatal n c x).agenda = s.agenda := rfl
@[simp] theorem State.raiseFatal_answers (n : Nat) (c : FatalCode) (x : Int) (s : State) : (s.raiseFatal n c x).answers = s.answers := rfl
@[simp] theorem State.raiseFatal_drawn (n : Nat) (c : FatalCode) (x : Int) (s : State) : (s.raiseFatal n c x).drawn = s.drawn := rfl
@[simp] theorem State.raiseFatal_stuck (n : Nat) (c : FatalCode) (x : Int) (s : State) : (s.raiseFatal n c x).stuck = s.stuck := rfl
@[simp] theorem State.raiseFault_cfg (n : Nat) (c : ModelFault) (s : State) : (s.raiseFault n c).cfg = s.cfg := rfl
@[simp] theorem State.raiseFault_buses (n : Nat) (c : ModelFault) (s : State) : (s.raiseFault n c).buses = s.buses := rfl
@[simp] theorem State.raiseFault_mem (n : Nat) (c : ModelFault) (s : State) : (s.raiseFault n c).mem = s.mem := rfl
@[simp] theorem State.raiseFault_sysFatal (n : Nat) (c : ModelFault) (s : State) : (s.raiseFault n c).sysFatal = s.sysFatal := rfl
@[simp] theorem State.raiseFault_sysFault (n : Nat) (c : ModelFault) (s : State) : (s.raiseFault n c).sysFault = some c := rfl
@[simp] theorem State.raiseFault_sysRefused (n : Nat) (c : ModelFault) (s : State) : (s.raiseFault n c).sysRefused = s.sysRefused := rfl
@[simp] theorem State.raiseFault_trace (n : Nat) (c : ModelFault) (s : State) : (s.raiseFault n c).trace = s.trace ++ [.fault c n] := rfl
@[simp] theorem State.raiseFault_actor (n : Nat) (c : ModelFault) (s : State) : (s.raiseFault n c).actor = s.actor := rfl
@[simp] theorem State.raiseFault_hostCall (n : Nat) (c : ModelFault) (s : State) : (s.raiseFault n c).hostCall = s.hostCall := rfl
@[simp] theorem State.raiseFault_ret (n : Nat) (c : ModelFault) (s : State) : (s.raiseFault n c).ret = s.ret := rfl
@[simp] theorem State.raiseFault_program (n : Nat) (c : ModelFault) (s : State) : (s.raiseFault n c).program = s.program := rfl
@[simp] theorem State.raiseFault_agenda (n : Nat) (c : ModelFault) (s : State) : (s.raiseFault n c).agenda = s.agenda := rfl
@[simp] theorem State.raiseFault_answers (n : Nat) (c : ModelFault) (s : State) : (s.raiseFault n c).answers = s.answers := rfl
@[simp] theorem State.raiseFault_drawn (n : Nat) (c : ModelFault) (s : State) : (s.raiseFault n c).drawn = s.drawn := rfl
@[simp] theorem State.raiseFault_stuck (n : Nat) (c : ModelFault) (s : State) : (s.raiseFault n c).stuck = s.stuck := rfl
@[simp] theorem State.refuse_cfg (e : Reason) (s : State) : (s.refuse e).cfg = s.cfg := rfl
@[simp] theorem State.refuse_buses (e : Reason) (s : State) : (s.refuse e).buses = s.buses := rfl
@[simp] theorem State.refuse_mem (e : Reason) (s : State) : (s.refuse e).mem = s.mem := rfl
@[simp] theorem State.refuse_sysFatal (e : Reason) (s : State) : (s.refuse e).sysFatal = s.sysFatal := rfl
@[simp] theorem State.refuse_sysFault (e : Reason) (s : State) : (s.refuse e).sysFault = s.sysFault := rfl
@[simp] theorem State.refuse_sysRefused (e : Reason) (s : State) : (s.refuse e).sysRefused = true := rfl
@[simp] theorem State.refuse_trace (e : Reason) (s : State) : (s.refuse e).trace = s.trace ++ [.refused e] := rfl
@[simp] theorem State.refuse_actor (e : Reason) (s : State) : (s.refuse e).actor = s.actor := rfl
@[simp] theorem State.refuse_hostCall (e : Reason) (s : State) : (s.refuse e).hostCall = s.hostCall := rfl
@[simp] theorem State.refuse_ret (e : Reason) (s : State) : (s.refuse e).ret = s.ret := rfl
@[simp] theorem State.refuse_program (e : Reason) (s : State) : (s.refuse e).program = s.program := rfl
@[simp] theorem State.refuse_agenda (e : Reason) (s : State) : (s.refuse e).agenda = s.agenda := rfl
@[simp] theorem State.refuse_answers (e : Reason) (s : State) : (s.refuse e).answers = s.answers := rfl
@[simp] theorem State.refuse_drawn (e : Reason) (s : State) : (s.refuse e).drawn = s.drawn := rfl
@[simp] theorem State.refuse_stuck (e : Reason) (s : State) : (s.refuse e).stuck = s.stuck := rfl
@[simp] theorem State.enter_cfg (a : Agent) (s : State) : (s.enter a).cfg = s.cfg := rfl
@[simp] theorem State.enter_buses (a : Agent) (s : State) : (s.enter a).buses = s.buses := rfl
@[simp] theorem State.enter_mem (a : Agent) (s : State) : (s.enter a).mem = s.mem := rfl
@[simp] theorem State.enter_sysFatal (a : Agent) (s : State) : (s.enter a).sysFatal = s.sysFatal := rfl
@[simp] theorem State.enter_sysFault (a : Agent) (s : State) : (s.enter a).sysFault = s.sysFault := rfl
@[simp] theorem State.enter_sysRefused (a : Agent) (s : State) : (s.enter a).sysRefused = s.sysRefused := rfl
@[simp] theorem State.enter_trace (a : Agent) (s : State) : (s.enter a).trace = s.trace := rfl
@[simp] theorem State.enter_actor (a : Agent) (s : State) : (s.enter a).actor = a := rfl
@[simp] theorem State.enter_hostCall (a : Agent) (s : State) : (s.enter a).hostCall = s.hostCall := rfl
@[simp] theorem State.enter_ret (a : Agent) (s : State) : (s.enter a).ret = s.ret := rfl
@[simp] theorem State.enter_program (a : Agent) (s : State) : (s.enter a).program = s.program := rfl
@[simp] theorem State.enter_agenda (a : Agent) (s : State) : (s.enter a).agenda = s.agenda := rfl
@[simp] theorem State.enter_answers (a : Agent) (s : State) : (s.enter a).answers = s.answers := rfl
@[simp] theorem State.enter_drawn (a : Agent) (s : State) : (s.enter a).drawn = s.drawn := rfl
@[simp] theorem State.enter_stuck (a : Agent) (s : State) : (s.enter a).stuck = s.stuck := rfl
@[simp] theorem State.stick_cfg (a : Agent) (s : State) : (s.stick a).cfg = s.cfg := rfl
@[simp] theorem State.stick_buses (a : Agent) (s : State) : (s.stick a).buses = s.buses := rfl
@[simp] theorem State.stick_mem (a : Agent) (s : State) : (s.stick a).mem = s.mem := rfl
@[simp] theorem State.stick_sysFatal (a : Agent) (s : State) : (s.stick a).sysFatal = s.sysFatal := rfl
@[simp] theorem State.stick_sysFault (a : Agent) (s : State) : (s.stick a).sysFault = s.sysFault := rfl
@[simp] theorem State.stick_sysRefused (a : Agent) (s : State) : (s.stick a).sysRefused = s.sysRefused := rfl
@[simp] theorem State.stick_trace (a : Agent) (s : State) : (s.stick a).trace = s.trace := rfl
@[simp] theorem State.stick_actor (a : Agent) (s : State) : (s.stick a).actor = s.actor := rfl
@[simp] theorem State.stick_hostCall (a : Agent) (s : State) : (s.stick a).hostCall = s.hostCall := rfl
@[simp] theorem State.stick_ret (a : Agent) (s : State) : (s.stick a).ret = s.ret := rfl
@[simp] theorem State.stick_program (a : Agent) (s : State) : (s.stick a).program = s.program := rfl
@[simp] theorem State.stick_agenda (a : Agent) (s : State) : (s.stick a).agenda = s.agenda := rfl
@[simp] theorem State.stick_answers (a : Agent) (s : State) : (s.stick a).answers = s.answers := rfl
@[simp] theorem State.stick_drawn (a : Agent) (s : State) : (s.stick a).drawn = s.drawn := rfl
@[simp] theorem State.stick_stuck (a : Agent) (s : State) : (s.stick a).stuck = a :: s.stuck := rfl
@[simp] theorem State.leave_cfg  (s : State) : (s.leave).cfg = s.cfg := rfl
@[simp] theorem State.leave_buses  (s : State) : (s.leave).buses = s.buses := rfl
@[simp] theorem State.leave_mem  (s : State) : (s.leave).mem = s.mem := rfl
@[simp] theorem State.leave_sysFatal  (s : State) : (s.leave).sysFatal = s.sysFatal := rfl
@[simp] theorem State.leave_sysFault  (s : State) : (s.leave).sysFault = s.sysFault := rfl
@[simp] theorem State.leave_sysRefused  (s : State) : (s.leave).sysRefused = s.sysRefused := rfl
@[simp] theorem State.leave_trace  (s : State) : (s.leave).trace = s.trace := rfl
@[simp] theorem State.leave_actor  (s : State) : (s.leave).actor = .host := rfl
@[simp] theorem State.leave_hostCall  (s : State) : (s.leave).hostCall = s.hostCall := rfl
@[simp] theorem State.leave_ret  (s : State) : (s.leave).ret = s.ret := rfl
@[simp] theorem State.leave_program  (s : State) : (s.leave).program = s.program := rfl
@[simp] theorem State.leave_agenda  (s : State) : (s.leave).agenda = s.agenda := rfl
@[simp] theorem State.leave_answers  (s : State) : (s.leave).answers = s.answers := rfl
@[simp] theorem State.leave_drawn  (s : State) : (s.leave).drawn = s.drawn := rfl
@[simp] theorem State.leave_stuck  (s : State) : (s.leave).stuck = s.stuck := rfl
@[simp] theorem State.noteRead_cfg (a : Ref) (v : Byte) (s : State) : (s.noteRead a v).cfg = s.cfg := rfl
@[simp] theorem State.noteRead_buses (a : Ref) (v : Byte) (s : State) : (s.noteRead a v).buses = s.buses := rfl
@[simp] theorem State.noteRead_mem (a : Ref) (v : Byte) (s : State) : (s.noteRead a v).mem = s.mem := rfl
@[simp] theorem State.noteRead_sysFatal (a : Ref) (v : Byte) (s : State) : (s.noteRead a v).sysFatal = s.sysFatal := rfl
@[simp] theorem State.noteRead_sysFault (a : Ref) (v : Byte) (s : State) : (s.noteRead a v).sysFault = s.sysFault := rfl
@[simp] theorem State.noteRead_sysRefused (a : Ref) (v : Byte) (s : State) : (s.noteRead a v).sysRefused = s.sysRefused := rfl
@[simp] theorem State.noteRead_trace (a : Ref) (v : Byte) (s : State) : (s.noteRead a v).trace = s.trace ++ [.memRead a v] := rfl
@[simp] theorem State.noteRead_actor (a : Ref) (v : Byte) (s : State) : (s.noteRead a v).actor = s.actor := rfl
@[simp] theorem State.noteRead_hostCall (a : Ref) (v : Byte) (s : State) : (s.noteRead a v).hostCall = s.hostCall := rfl
@[simp] theorem State.noteRead_ret (a : Ref) (v : Byte) (s : State) : (s.noteRead a v).ret = s.ret := rfl
@[simp] theorem State.noteRead_program (a : Ref) (v : Byte) (s : State) : (s.noteRead a v).program = s.program := rfl
@[simp] theorem State.noteRead_agenda (a : Ref) (v : Byte) (s : State) : (s.noteRead a v).agenda = s.agenda := rfl
@[simp] theorem State.noteRead_answers (a : Ref) (v : Byte) (s : State) : (s.noteRead a v).answers = s.answers := rfl
@[simp] theorem State.noteRead_drawn (a : Ref) (v : Byte) (s : State) : (s.noteRead a v).drawn = s.drawn := rfl
@[simp] theorem State.noteRead_stuck (a : Ref) (v : Byte) (s : State) : (s.noteRead a v).stuck = s.stuck := rfl
@[simp] theorem State.noteReads_cfg (l : List (Ref × Byte)) (s : State) : (s.noteReads l).cfg = s.cfg := rfl
@[simp] theorem State.noteReads_buses (l : List (Ref × Byte)) (s : State) : (s.noteReads l).buses = s.buses := rfl
@[simp] theorem State.noteReads_mem (l : List (Ref × Byte)) (s : State) : (s.noteReads l).mem = s.mem := rfl
@[simp] theorem State.noteReads_sysFatal (l : List (Ref × Byte)) (s : State) : (s.noteReads l).sysFatal = s.sysFatal := rfl
@[simp] theorem State.noteReads_sysFault (l : List (Ref × Byte)) (s : State) : (s.noteReads l).sysFault = s.sysFault := rfl
@[simp] theorem State.noteReads_sysRefused (l : List (Ref × Byte)) (s : State) : (s.noteReads l).sysRefused = s.sysRefused := rfl
@[simp] theorem State.noteReads_trace (l : List (Ref × Byte)) (s : State) : (s.noteReads l).trace = s.trace ++ l.map fun p => .memRead p.1 p.2 := rfl
@[simp] theorem State.noteReads_actor (l : List (Ref × Byte)) (s : State) : (s.noteReads l).actor = s.actor := rfl
@[simp] theorem State.noteReads_hostCall (l : List (Ref × Byte)) (s : State) : (s.noteReads l).hostCall = s.hostCall := rfl
@[simp] theorem State.noteReads_ret (l : List (Ref × Byte)) (s : State) : (s.noteReads l).ret = s.ret := rfl
@[simp] theorem State.noteReads_program (l : List (Ref × Byte)) (s : State) : (s.noteReads l).program = s.program := rfl
@[simp] theorem State.noteReads_agenda (l : List (Ref × Byte)) (s : State) : (s.noteReads l).agenda = s.agenda := rfl
@[simp] theorem State.noteReads_answers (l : List (Ref × Byte)) (s : State) : (s.noteReads l).answers = s.answers := rfl
@[simp] theorem State.noteReads_drawn (l : List (Ref × Byte)) (s : State) : (s.noteReads l).drawn = s.drawn := rfl
@[simp] theorem State.noteReads_stuck (l : List (Ref × Byte)) (s : State) : (s.noteReads l).stuck = s.stuck := rfl
@[simp] theorem State.hostStore_cfg (a : Nat) (v : Byte) (s : State) : (s.hostStore a v).cfg = s.cfg := rfl
@[simp] theorem State.hostStore_buses (a : Nat) (v : Byte) (s : State) : (s.hostStore a v).buses = s.buses := rfl
@[simp] theorem State.hostStore_mem (a : Nat) (v : Byte) (s : State) : (s.hostStore a v).mem = Memory.write s.mem (a % 2 ^ s.cfg.addrBits) v := rfl
@[simp] theorem State.hostStore_sysFatal (a : Nat) (v : Byte) (s : State) : (s.hostStore a v).sysFatal = s.sysFatal := rfl
@[simp] theorem State.hostStore_sysFault (a : Nat) (v : Byte) (s : State) : (s.hostStore a v).sysFault = s.sysFault := rfl
@[simp] theorem State.hostStore_sysRefused (a : Nat) (v : Byte) (s : State) : (s.hostStore a v).sysRefused = s.sysRefused := rfl
@[simp] theorem State.hostStore_trace (a : Nat) (v : Byte) (s : State) : (s.hostStore a v).trace = s.trace := rfl
@[simp] theorem State.hostStore_actor (a : Nat) (v : Byte) (s : State) : (s.hostStore a v).actor = s.actor := rfl
@[simp] theorem State.hostStore_hostCall (a : Nat) (v : Byte) (s : State) : (s.hostStore a v).hostCall = s.hostCall := rfl
@[simp] theorem State.hostStore_ret (a : Nat) (v : Byte) (s : State) : (s.hostStore a v).ret = s.ret := rfl
@[simp] theorem State.hostStore_program (a : Nat) (v : Byte) (s : State) : (s.hostStore a v).program = s.program := rfl
@[simp] theorem State.hostStore_agenda (a : Nat) (v : Byte) (s : State) : (s.hostStore a v).agenda = s.agenda := rfl
@[simp] theorem State.hostStore_answers (a : Nat) (v : Byte) (s : State) : (s.hostStore a v).answers = s.answers := rfl
@[simp] theorem State.hostStore_drawn (a : Nat) (v : Byte) (s : State) : (s.hostStore a v).drawn = s.drawn := rfl
@[simp] theorem State.hostStore_stuck (a : Nat) (v : Byte) (s : State) : (s.hostStore a v).stuck = s.stuck := rfl
@[simp] theorem State.complete_cfg (b : Nat) (r : Bus) (op : HwOp) (x : PeerAnswer) (s : State) : (s.complete b r op x).cfg = s.cfg := rfl
@[simp] theorem State.complete_buses (b : Nat) (r : Bus) (op : HwOp) (x : PeerAnswer) (s : State) : (s.complete b r op x).buses = s.buses.set b { r with inflight := none, mif := true } := rfl
@[simp] theorem State.complete_mem (b : Nat) (r : Bus) (op : HwOp) (x : PeerAnswer) (s : State) : (s.complete b r op x).mem = s.mem := rfl
@[simp] theorem State.complete_sysFatal (b : Nat) (r : Bus) (op : HwOp) (x : PeerAnswer) (s : State) : (s.complete b r op x).sysFatal = s.sysFatal := rfl
@[simp] theorem State.complete_sysFault (b : Nat) (r : Bus) (op : HwOp) (x : PeerAnswer) (s : State) : (s.complete b r op x).sysFault = s.sysFault := rfl
@[simp] theorem State.complete_sysRefused (b : Nat) (r : Bus) (op : HwOp) (x : PeerAnswer) (s : State) : (s.complete b r op x).sysRefused = s.sysRefused := rfl
@[simp] theorem State.complete_trace (b : Nat) (r : Bus) (op : HwOp) (x : PeerAnswer) (s : State) : (s.complete b r op x).trace = s.trace ++ [.completed b op x] := rfl
@[simp] theorem State.complete_actor (b : Nat) (r : Bus) (op : HwOp) (x : PeerAnswer) (s : State) : (s.complete b r op x).actor = s.actor := rfl
@[simp] theorem State.complete_hostCall (b : Nat) (r : Bus) (op : HwOp) (x : PeerAnswer) (s : State) : (s.complete b r op x).hostCall = s.hostCall := rfl
@[simp] theorem State.complete_ret (b : Nat) (r : Bus) (op : HwOp) (x : PeerAnswer) (s : State) : (s.complete b r op x).ret = s.ret := rfl
@[simp] theorem State.complete_program (b : Nat) (r : Bus) (op : HwOp) (x : PeerAnswer) (s : State) : (s.complete b r op x).program = s.program := rfl
@[simp] theorem State.complete_agenda (b : Nat) (r : Bus) (op : HwOp) (x : PeerAnswer) (s : State) : (s.complete b r op x).agenda = s.agenda := rfl
@[simp] theorem State.complete_answers (b : Nat) (r : Bus) (op : HwOp) (x : PeerAnswer) (s : State) : (s.complete b r op x).answers = s.answers := rfl
@[simp] theorem State.complete_drawn (b : Nat) (r : Bus) (op : HwOp) (x : PeerAnswer) (s : State) : (s.complete b r op x).drawn = s.drawn := rfl
@[simp] theorem State.complete_stuck (b : Nat) (r : Bus) (op : HwOp) (x : PeerAnswer) (s : State) : (s.complete b r op x).stuck = s.stuck := rfl
/-! ### Updates that look at the state first -/

@[simp] theorem State.popAnswer_cfg (s : State) : s.popAnswer.cfg = s.cfg := by unfold State.popAnswer; split <;> rfl
@[simp] theorem State.popAnswer_buses (s : State) : s.popAnswer.buses = s.buses := by unfold State.popAnswer; split <;> rfl
@[simp] theorem State.popAnswer_mem (s : State) : s.popAnswer.mem = s.mem := by unfold State.popAnswer; split <;> rfl
@[simp] theorem State.popAnswer_sysFatal (s : State) : s.popAnswer.sysFatal = s.sysFatal := by unfold State.popAnswer; split <;> rfl
@[simp] theorem State.popAnswer_sysFault (s : State) : s.popAnswer.sysFault = s.sysFault := by unfold State.popAnswer; split <;> rfl
@[simp] theorem State.popAnswer_sysRefused (s : State) : s.popAnswer.sysRefused = s.sysRefused := by unfold State.popAnswer; split <;> rfl
@[simp] theorem State.popAnswer_trace (s : State) : s.popAnswer.trace = s.trace := by unfold State.popAnswer; split <;> rfl
@[simp] theorem State.popAnswer_actor (s : State) : s.popAnswer.actor = s.actor := by unfold State.popAnswer; split <;> rfl
@[simp] theorem State.popAnswer_hostCall (s : State) : s.popAnswer.hostCall = s.hostCall := by unfold State.popAnswer; split <;> rfl
@[simp] theorem State.popAnswer_ret (s : State) : s.popAnswer.ret = s.ret := by unfold State.popAnswer; split <;> rfl
@[simp] theorem State.popAnswer_program (s : State) : s.popAnswer.program = s.program := by unfold State.popAnswer; split <;> rfl
@[simp] theorem State.popAnswer_agenda (s : State) : s.popAnswer.agenda = s.agenda := by unfold State.popAnswer; split <;> rfl
@[simp] theorem State.popAnswer_stuck (s : State) : s.popAnswer.stuck = s.stuck := by unfold State.popAnswer; split <;> rfl
@[simp] theorem State.popTurn_cfg (s : State) : s.popTurn.cfg = s.cfg := by unfold State.popTurn; split <;> rfl
@[simp] theorem State.popTurn_buses (s : State) : s.popTurn.buses = s.buses := by unfold State.popTurn; split <;> rfl
@[simp] theorem State.popTurn_mem (s : State) : s.popTurn.mem = s.mem := by unfold State.popTurn; split <;> rfl
@[simp] theorem State.popTurn_sysFatal (s : State) : s.popTurn.sysFatal = s.sysFatal := by unfold State.popTurn; split <;> rfl
@[simp] theorem State.popTurn_sysFault (s : State) : s.popTurn.sysFault = s.sysFault := by unfold State.popTurn; split <;> rfl
@[simp] theorem State.popTurn_sysRefused (s : State) : s.popTurn.sysRefused = s.sysRefused := by unfold State.popTurn; split <;> rfl
@[simp] theorem State.popTurn_trace (s : State) : s.popTurn.trace = s.trace := by unfold State.popTurn; split <;> rfl
@[simp] theorem State.popTurn_actor (s : State) : s.popTurn.actor = s.actor := by unfold State.popTurn; split <;> rfl
@[simp] theorem State.popTurn_hostCall (s : State) : s.popTurn.hostCall = s.hostCall := by unfold State.popTurn; split <;> rfl
@[simp] theorem State.popTurn_ret (s : State) : s.popTurn.ret = s.ret := by unfold State.popTurn; split <;> rfl
@[simp] theorem State.popTurn_program (s : State) : s.popTurn.program = s.program := by unfold State.popTurn; split <;> rfl
@[simp] theorem State.popTurn_answers (s : State) : s.popTurn.answers = s.answers := by unfold State.popTurn; split <;> rfl
@[simp] theorem State.popTurn_stuck (s : State) : s.popTurn.stuck = s.stuck := by unfold State.popTurn; split <;> rfl
@[simp] theorem State.modBus_cfg (b : Nat) (g : Bus → Bus) (s : State) : (s.modBus b g).cfg = s.cfg := by
  unfold State.modBus; split <;> rfl
@[simp] theorem State.modBus_mem (b : Nat) (g : Bus → Bus) (s : State) : (s.modBus b g).mem = s.mem := by
  unfold State.modBus; split <;> rfl
@[simp] theorem State.modBus_sysFatal (b : Nat) (g : Bus → Bus) (s : State) : (s.modBus b g).sysFatal = s.sysFatal := by
  unfold State.modBus; split <;> rfl
@[simp] theorem State.modBus_sysFault (b : Nat) (g : Bus → Bus) (s : State) : (s.modBus b g).sysFault = s.sysFault := by
  unfold State.modBus; split <;> rfl
@[simp] theorem State.modBus_sysRefused (b : Nat) (g : Bus → Bus) (s : State) : (s.modBus b g).sysRefused = s.sysRefused := by
  unfold State.modBus; split <;> rfl
@[simp] theorem State.modBus_trace (b : Nat) (g : Bus → Bus) (s : State) : (s.modBus b g).trace = s.trace := by
  unfold State.modBus; split <;> rfl
@[simp] theorem State.modBus_actor (b : Nat) (g : Bus → Bus) (s : State) : (s.modBus b g).actor = s.actor := by
  unfold State.modBus; split <;> rfl
@[simp] theorem State.modBus_hostCall (b : Nat) (g : Bus → Bus) (s : State) : (s.modBus b g).hostCall = s.hostCall := by
  unfold State.modBus; split <;> rfl
@[simp] theorem State.modBus_ret (b : Nat) (g : Bus → Bus) (s : State) : (s.modBus b g).ret = s.ret := by
  unfold State.modBus; split <;> rfl
@[simp] theorem State.modBus_program (b : Nat) (g : Bus → Bus) (s : State) : (s.modBus b g).program = s.program := by
  unfold State.modBus; split <;> rfl
@[simp] theorem State.modBus_agenda (b : Nat) (g : Bus → Bus) (s : State) : (s.modBus b g).agenda = s.agenda := by
  unfold State.modBus; split <;> rfl
@[simp] theorem State.modBus_answers (b : Nat) (g : Bus → Bus) (s : State) : (s.modBus b g).answers = s.answers := by
  unfold State.modBus; split <;> rfl
@[simp] theorem State.modBus_drawn (b : Nat) (g : Bus → Bus) (s : State) : (s.modBus b g).drawn = s.drawn := by
  unfold State.modBus; split <;> rfl
@[simp] theorem State.modBus_stuck (b : Nat) (g : Bus → Bus) (s : State) : (s.modBus b g).stuck = s.stuck := by
  unfold State.modBus; split <;> rfl
@[simp] theorem State.setByteAt_cfg (a : Ref) (v : Byte) (s : State) : (s.setByteAt a v).cfg = s.cfg := by
  unfold State.setByteAt; split <;> (try split) <;> simp
@[simp] theorem State.setByteAt_sysFatal (a : Ref) (v : Byte) (s : State) : (s.setByteAt a v).sysFatal = s.sysFatal := by
  unfold State.setByteAt; split <;> (try split) <;> simp
@[simp] theorem State.setByteAt_sysFault (a : Ref) (v : Byte) (s : State) : (s.setByteAt a v).sysFault = s.sysFault := by
  unfold State.setByteAt; split <;> (try split) <;> simp
@[simp] theorem State.setByteAt_sysRefused (a : Ref) (v : Byte) (s : State) : (s.setByteAt a v).sysRefused = s.sysRefused := by
  unfold State.setByteAt; split <;> (try split) <;> simp
@[simp] theorem State.setByteAt_trace (a : Ref) (v : Byte) (s : State) : (s.setByteAt a v).trace = s.trace := by
  unfold State.setByteAt; split <;> (try split) <;> simp
@[simp] theorem State.setByteAt_actor (a : Ref) (v : Byte) (s : State) : (s.setByteAt a v).actor = s.actor := by
  unfold State.setByteAt; split <;> (try split) <;> simp
@[simp] theorem State.setByteAt_hostCall (a : Ref) (v : Byte) (s : State) : (s.setByteAt a v).hostCall = s.hostCall := by
  unfold State.setByteAt; split <;> (try split) <;> simp
@[simp] theorem State.setByteAt_ret (a : Ref) (v : Byte) (s : State) : (s.setByteAt a v).ret = s.ret := by
  unfold State.setByteAt; split <;> (try split) <;> simp
@[simp] theorem State.setByteAt_program (a : Ref) (v : Byte) (s : State) : (s.setByteAt a v).program = s.program := by
  unfold State.setByteAt; split <;> (try split) <;> simp
@[simp] theorem State.setByteAt_agenda (a : Ref) (v : Byte) (s : State) : (s.setByteAt a v).agenda = s.agenda := by
  unfold State.setByteAt; split <;> (try split) <;> simp
@[simp] theorem State.setByteAt_answers (a : Ref) (v : Byte) (s : State) : (s.setByteAt a v).answers = s.answers := by
  unfold State.setByteAt; split <;> (try split) <;> simp
@[simp] theorem State.setByteAt_drawn (a : Ref) (v : Byte) (s : State) : (s.setByteAt a v).drawn = s.drawn := by
  unfold State.setByteAt; split <;> (try split) <;> simp
@[simp] theorem State.setByteAt_stuck (a : Ref) (v : Byte) (s : State) : (s.setByteAt a v).stuck = s.stuck := by
  unfold State.setByteAt; split <;> (try split) <;> simp
@[simp] theorem State.memWrite_cfg (a : Ref) (v : Byte) (s : State) : (s.memWrite a v).cfg = s.cfg := by simp [State.memWrite]
@[simp] theorem State.memWrite_sysFatal (a : Ref) (v : Byte) (s : State) : (s.memWrite a v).sysFatal = s.sysFatal := by simp [State.memWrite]
@[simp] theorem State.memWrite_sysFault (a : Ref) (v : Byte) (s : State) : (s.memWrite a v).sysFault = s.sysFault := by simp [State.memWrite]
@[simp] theorem State.memWrite_sysRefused (a : Ref) (v : Byte) (s : State) : (s.memWrite a v).sysRefused = s.sysRefused := by simp [State.memWrite]
@[simp] theorem State.memWrite_actor (a : Ref) (v : Byte) (s : State) : (s.memWrite a v).actor = s.actor := by simp [State.memWrite]
@[simp] theorem State.memWrite_hostCall (a : Ref) (v : Byte) (s : State) : (s.memWrite a v).hostCall = s.hostCall := by simp [State.memWrite]
@[simp] theorem State.memWrite_ret (a : Ref) (v : Byte) (s : State) : (s.memWrite a v).ret = s.ret := by simp [State.memWrite]
@[simp] theorem State.memWrite_program (a : Ref) (v : Byte) (s : State) : (s.memWrite a v).program = s.program := by simp [State.memWrite]
@[simp] theorem State.memWrite_agenda (a : Ref) (v : Byte) (s : State) : (s.memWrite a v).agenda = s.agenda := by simp [State.memWrite]
@[simp] theorem State.memWrite_answers (a : Ref) (v : Byte) (s : State) : (s.memWrite a v).answers = s.answers := by simp [State.memWrite]
@[simp] theorem State.memWrite_drawn (a : Ref) (v : Byte) (s : State) : (s.memWrite a v).drawn = s.drawn := by simp [State.memWrite]
@[simp] theorem State.memWrite_stuck (a : Ref) (v : Byte) (s : State) : (s.memWrite a v).stuck = s.stuck := by simp [State.memWrite]
@[simp] theorem State.memWrite_trace (a : Ref) (v : Byte) (s : State) : (s.memWrite a v).trace = s.trace ++ [.memWrite a v] := by
  simp [State.memWrite]
@[simp] theorem State.issue_cfg (b : Nat) (r : Bus) (op : HwOp) (s : State) : (s.issue b r op).cfg = s.cfg := by
  unfold State.issue; split <;> rfl
@[simp] theorem State.issue_mem (b : Nat) (r : Bus) (op : HwOp) (s : State) : (s.issue b r op).mem = s.mem := by
  unfold State.issue; split <;> rfl
@[simp] theorem State.issue_sysFatal (b : Nat) (r : Bus) (op : HwOp) (s : State) : (s.issue b r op).sysFatal = s.sysFatal := by
  unfold State.issue; split <;> rfl
@[simp] theorem State.issue_sysRefused (b : Nat) (r : Bus) (op : HwOp) (s : State) : (s.issue b r op).sysRefused = s.sysRefused := by
  unfold State.issue; split <;> rfl
@[simp] theorem State.issue_actor (b : Nat) (r : Bus) (op : HwOp) (s : State) : (s.issue b r op).actor = s.actor := by
  unfold State.issue; split <;> rfl
@[simp] theorem State.issue_hostCall (b : Nat) (r : Bus) (op : HwOp) (s : State) : (s.issue b r op).hostCall = s.hostCall := by
  unfold State.issue; split <;> rfl
@[simp] theorem State.issue_ret (b : Nat) (r : Bus) (op : HwOp) (s : State) : (s.issue b r op).ret = s.ret := by
  unfold State.issue; split <;> rfl
@[simp] theorem State.issue_program (b : Nat) (r : Bus) (op : HwOp) (s : State) : (s.issue b r op).program = s.program := by
  unfold State.issue; split <;> rfl
@[simp] theorem State.issue_agenda (b : Nat) (r : Bus) (op : HwOp) (s : State) : (s.issue b r op).agenda = s.agenda := by
  unfold State.issue; split <;> rfl
@[simp] theorem State.issue_answers (b : Nat) (r : Bus) (op : HwOp) (s : State) : (s.issue b r op).answers = s.answers := by
  unfold State.issue; split <;> rfl
@[simp] theorem State.issue_drawn (b : Nat) (r : Bus) (op : HwOp) (s : State) : (s.issue b r op).drawn = s.drawn := by
  unfold State.issue; split <;> rfl
@[simp] theorem State.issue_stuck (b : Nat) (r : Bus) (op : HwOp) (s : State) : (s.issue b r op).stuck = s.stuck := by
  unfold State.issue; split <;> rfl
@[simp] theorem State.start_cfg (b : Nat) (r : Bus) (c : ContId) (u : UData) (h : List Buf) (s : State) :
    (s.start b r c u h).cfg = s.cfg := by simp [State.start]
@[simp] theorem State.start_mem (b : Nat) (r : Bus) (c : ContId) (u : UData) (h : List Buf) (s : State) :
    (s.start b r c u h).mem = s.mem := by simp [State.start]
@[simp] theorem State.start_sysFatal (b : Nat) (r : Bus) (c : ContId) (u : UData) (h : List Buf) (s : State) :
    (s.start b r c u h).sysFatal = s.sysFatal := by simp [State.start]
@[simp] theorem State.start_sysRefused (b : Nat) (r : Bus) (c : ContId) (u : UData) (h : List Buf) (s : State) :
    (s.start b r c u h).sysRefused = s.sysRefused := by simp [State.start]
@[simp] theorem State.start_actor (b : Nat) (r : Bus) (c : ContId) (u : UData) (h : List Buf) (s : State) :
    (s.start b r c u h).actor = s.actor := by simp [State.start]
@[simp] theorem State.start_hostCall (b : Nat) (r : Bus) (c : ContId) (u : UData) (h : List Buf) (s : State) :
    (s.start b r c u h).hostCall = s.hostCall := by simp [State.start]
@[simp] theorem State.start_ret (b : Nat) (r : Bus) (c : ContId) (u : UData) (h : List Buf) (s : State) :
    (s.start b r c u h).ret = s.ret := by simp [State.start]
@[simp] theorem State.start_program (b : Nat) (r : Bus) (c : ContId) (u : UData) (h : List Buf) (s : State) :
    (s.start b r c u h).program = s.program := by simp [State.start]
@[simp] theorem State.start_agenda (b : Nat) (r : Bus) (c : ContId) (u : UData) (h : List Buf) (s : State) :
    (s.start b r c u h).agenda = s.agenda := by simp [State.start]
@[simp] theorem State.start_answers (b : Nat) (r : Bus) (c : ContId) (u : UData) (h : List Buf) (s : State) :
    (s.start b r c u h).answers = s.answers := by simp [State.start]
@[simp] theorem State.start_drawn (b : Nat) (r : Bus) (c : ContId) (u : UData) (h : List Buf) (s : State) :
    (s.start b r c u h).drawn = s.drawn := by simp [State.start]
@[simp] theorem State.start_stuck (b : Nat) (r : Bus) (c : ContId) (u : UData) (h : List Buf) (s : State) :
    (s.start b r c u h).stuck = s.stuck := by simp [State.start]

/-! ### Updates of a bus's record -/

@[simp] theorem Bus.register_busy (k : ContId) (u : UData) (h : List Buf) (r : Bus) : (r.register k u h).busy = true := rfl
@[simp] theorem Bus.register_op (k : ContId) (u : UData) (h : List Buf) (r : Bus) : (r.register k u h).op = r.op := rfl
@[simp] theorem Bus.register_cont (k : ContId) (u : UData) (h : List Buf) (r : Bus) : (r.register k u h).cont = some k := rfl
@[simp] theorem Bus.register_udata (k : ContId) (u : UData) (h : List Buf) (r : Bus) : (r.register k u h).udata = some u := rfl
@[simp] theorem Bus.register_rdest (k : ContId) (u : UData) (h : List Buf) (r : Bus) : (r.register k u h).rdest = r.rdest := rfl
@[simp] theorem Bus.register_inflight (k : ContId) (u : UData) (h : List Buf) (r : Bus) : (r.register k u h).inflight = r.inflight := rfl
@[simp] theorem Bus.register_wire (k : ContId) (u : UData) (h : List Buf) (r : Bus) : (r.register k u h).wire = r.wire := rfl
@[simp] theorem Bus.register_ackstat (k : ContId) (u : UData) (h : List Buf) (r : Bus) : (r.register k u h).ackstat = r.ackstat := rfl
@[simp] theorem Bus.register_rxbuf (k : ContId) (u : UData) (h : List Buf) (r : Bus) : (r.register k u h).rxbuf = r.rxbuf := rfl
@[simp] theorem Bus.register_mif (k : ContId) (u : UData) (h : List Buf) (r : Bus) : (r.register k u h).mif = r.mif := rfl
@[simp] theorem Bus.register_pstate (k : ContId) (u : UData) (h : List Buf) (r : Bus) : (r.register k u h).pstate = r.pstate := rfl
@[simp] theorem Bus.register_addr (k : ContId) (u : UData) (h : List Buf) (r : Bus) : (r.register k u h).addr = r.addr := rfl
@[simp] theorem Bus.register_wptr (k : ContId) (u : UData) (h : List Buf) (r : Bus) : (r.register k u h).wptr = r.wptr := rfl
@[simp] theorem Bus.register_wrem (k : ContId) (u : UData) (h : List Buf) (r : Bus) : (r.register k u h).wrem = r.wrem := rfl
@[simp] theorem Bus.register_rptr (k : ContId) (u : UData) (h : List Buf) (r : Bus) : (r.register k u h).rptr = r.rptr := rfl
@[simp] theorem Bus.register_rrem (k : ContId) (u : UData) (h : List Buf) (r : Bus) : (r.register k u h).rrem = r.rrem := rfl
@[simp] theorem Bus.register_result (k : ContId) (u : UData) (h : List Buf) (r : Bus) : (r.register k u h).result = r.result := rfl
@[simp] theorem Bus.register_rcb (k : ContId) (u : UData) (h : List Buf) (r : Bus) : (r.register k u h).rcb = r.rcb := rfl
@[simp] theorem Bus.register_addrByte (k : ContId) (u : UData) (h : List Buf) (r : Bus) : (r.register k u h).addrByte = r.addrByte := rfl
@[simp] theorem Bus.register_wsent (k : ContId) (u : UData) (h : List Buf) (r : Bus) : (r.register k u h).wsent = r.wsent := rfl
@[simp] theorem Bus.register_rcode (k : ContId) (u : UData) (h : List Buf) (r : Bus) : (r.register k u h).rcode = r.rcode := rfl
@[simp] theorem Bus.register_blkResult (k : ContId) (u : UData) (h : List Buf) (r : Bus) : (r.register k u h).blkResult = r.blkResult := rfl
@[simp] theorem Bus.register_rcell (k : ContId) (u : UData) (h : List Buf) (r : Bus) : (r.register k u h).rcell = r.rcell := rfl
@[simp] theorem Bus.register_wcell (k : ContId) (u : UData) (h : List Buf) (r : Bus) : (r.register k u h).wcell = r.wcell := rfl
@[simp] theorem Bus.register_senabled (k : ContId) (u : UData) (h : List Buf) (r : Bus) : (r.register k u h).senabled = r.senabled := rfl
@[simp] theorem Bus.register_sstate (k : ContId) (u : UData) (h : List Buf) (r : Bus) : (r.register k u h).sstate = r.sstate := rfl
@[simp] theorem Bus.register_saddr (k : ContId) (u : UData) (h : List Buf) (r : Bus) : (r.register k u h).saddr = r.saddr := rfl
@[simp] theorem Bus.register_sprio (k : ContId) (u : UData) (h : List Buf) (r : Bus) : (r.register k u h).sprio = r.sprio := rfl
@[simp] theorem Bus.register_cbMsgFrom (k : ContId) (u : UData) (h : List Buf) (r : Bus) : (r.register k u h).cbMsgFrom = r.cbMsgFrom := rfl
@[simp] theorem Bus.register_cbMsgTo (k : ContId) (u : UData) (h : List Buf) (r : Bus) : (r.register k u h).cbMsgTo = r.cbMsgTo := rfl
@[simp] theorem Bus.register_cbByteFrom (k : ContId) (u : UData) (h : List Buf) (r : Bus) : (r.register k u h).cbByteFrom = r.cbByteFrom := rfl
@[simp] theorem Bus.register_cbByteTo (k : ContId) (u : UData) (h : List Buf) (r : Bus) : (r.register k u h).cbByteTo = r.cbByteTo := rfl
@[simp] theorem Bus.register_slDa (k : ContId) (u : UData) (h : List Buf) (r : Bus) : (r.register k u h).slDa = r.slDa := rfl
@[simp] theorem Bus.register_slRw (k : ContId) (u : UData) (h : List Buf) (r : Bus) : (r.register k u h).slRw = r.slRw := rfl
@[simp] theorem Bus.register_slRx (k : ContId) (u : UData) (h : List Buf) (r : Bus) : (r.register k u h).slRx = r.slRx := rfl
@[simp] theorem Bus.register_slTx (k : ContId) (u : UData) (h : List Buf) (r : Bus) : (r.register k u h).slTx = r.slTx := rfl
@[simp] theorem Bus.register_sclhold (k : ContId) (u : UData) (h : List Buf) (r : Bus) : (r.register k u h).sclhold = r.sclhold := rfl
@[simp] theorem Bus.register_sif (k : ContId) (u : UData) (h : List Buf) (r : Bus) : (r.register k u h).sif = r.sif := rfl
@[simp] theorem Bus.register_swire (k : ContId) (u : UData) (h : List Buf) (r : Bus) : (r.register k u h).swire = r.swire := rfl
@[simp] theorem Bus.register_handed (k : ContId) (u : UData) (h : List Buf) (r : Bus) : (r.register k u h).handed = h := rfl
@[simp] theorem Bus.deregister_busy  (r : Bus) : (r.deregister).busy = false := rfl
@[simp] theorem Bus.deregister_op  (r : Bus) : (r.deregister).op = r.op := rfl
@[simp] theorem Bus.deregister_cont  (r : Bus) : (r.deregister).cont = none := rfl
@[simp] theorem Bus.deregister_udata  (r : Bus) : (r.deregister).udata = r.udata := rfl
@[simp] theorem Bus.deregister_rdest  (r : Bus) : (r.deregister).rdest = r.rdest := rfl
@[simp] theorem Bus.deregister_inflight  (r : Bus) : (r.deregister).inflight = r.inflight := rfl
@[simp] theorem Bus.deregister_wire  (r : Bus) : (r.deregister).wire = r.wire := rfl
@[simp] theorem Bus.deregister_ackstat  (r : Bus) : (r.deregister).ackstat = r.ackstat := rfl
@[simp] theorem Bus.deregister_rxbuf  (r : Bus) : (r.deregister).rxbuf = r.rxbuf := rfl
@[simp] theorem Bus.deregister_mif  (r : Bus) : (r.deregister).mif = r.mif := rfl
@[simp] theorem Bus.deregister_pstate  (r : Bus) : (r.deregister).pstate = r.pstate := rfl
@[simp] theorem Bus.deregister_addr  (r : Bus) : (r.deregister).addr = r.addr := rfl
@[simp] theorem Bus.deregister_wptr  (r : Bus) : (r.deregister).wptr = r.wptr := rfl
@[simp] theorem Bus.deregister_wrem  (r : Bus) : (r.deregister).wrem = r.wrem := rfl
@[simp] theorem Bus.deregister_rptr  (r : Bus) : (r.deregister).rptr = r.rptr := rfl
@[simp] theorem Bus.deregister_rrem  (r : Bus) : (r.deregister).rrem = r.rrem := rfl
@[simp] theorem Bus.deregister_result  (r : Bus) : (r.deregister).result = r.result := rfl
@[simp] theorem Bus.deregister_rcb  (r : Bus) : (r.deregister).rcb = r.rcb := rfl
@[simp] theorem Bus.deregister_addrByte  (r : Bus) : (r.deregister).addrByte = r.addrByte := rfl
@[simp] theorem Bus.deregister_wsent  (r : Bus) : (r.deregister).wsent = r.wsent := rfl
@[simp] theorem Bus.deregister_rcode  (r : Bus) : (r.deregister).rcode = r.rcode := rfl
@[simp] theorem Bus.deregister_blkResult  (r : Bus) : (r.deregister).blkResult = r.blkResult := rfl
@[simp] theorem Bus.deregister_rcell  (r : Bus) : (r.deregister).rcell = r.rcell := rfl
@[simp] theorem Bus.deregister_wcell  (r : Bus) : (r.deregister).wcell = r.wcell := rfl
@[simp] theorem Bus.deregister_senabled  (r : Bus) : (r.deregister).senabled = r.senabled := rfl
@[simp] theorem Bus.deregister_sstate  (r : Bus) : (r.deregister).sstate = r.sstate := rfl
@[simp] theorem Bus.deregister_saddr  (r : Bus) : (r.deregister).saddr = r.saddr := rfl
@[simp] theorem Bus.deregister_sprio  (r : Bus) : (r.deregister).sprio = r.sprio := rfl
@[simp] theorem Bus.deregister_cbMsgFrom  (r : Bus) : (r.deregister).cbMsgFrom = r.cbMsgFrom := rfl
@[simp] theorem Bus.deregister_cbMsgTo  (r : Bus) : (r.deregister).cbMsgTo = r.cbMsgTo := rfl
@[simp] theorem Bus.deregister_cbByteFrom  (r : Bus) : (r.deregister).cbByteFrom = r.cbByteFrom := rfl
@[simp] theorem Bus.deregister_cbByteTo  (r : Bus) : (r.deregister).cbByteTo = r.cbByteTo := rfl
@[simp] theorem Bus.deregister_slDa  (r : Bus) : (r.deregister).slDa = r.slDa := rfl
@[simp] theorem Bus.deregister_slRw  (r : Bus) : (r.deregister).slRw = r.slRw := rfl
@[simp] theorem Bus.deregister_slRx  (r : Bus) : (r.deregister).slRx = r.slRx := rfl
@[simp] theorem Bus.deregister_slTx  (r : Bus) : (r.deregister).slTx = r.slTx := rfl
@[simp] theorem Bus.deregister_sclhold  (r : Bus) : (r.deregister).sclhold = r.sclhold := rfl
@[simp] theorem Bus.deregister_sif  (r : Bus) : (r.deregister).sif = r.sif := rfl
@[simp] theorem Bus.deregister_swire  (r : Bus) : (r.deregister).swire = r.swire := rfl
@[simp] theorem Bus.deregister_handed  (r : Bus) : (r.deregister).handed = r.handed := rfl
@[simp] theorem Bus.conclude_busy (c : Cfg) (ok : Bool) (k : RCode) (r : Bus) : (r.conclude c ok k).busy = r.busy := rfl
@[simp] theorem Bus.conclude_op (c : Cfg) (ok : Bool) (k : RCode) (r : Bus) : (r.conclude c ok k).op = r.op := rfl
@[simp] theorem Bus.conclude_cont (c : Cfg) (ok : Bool) (k : RCode) (r : Bus) : (r.conclude c ok k).cont = r.cont := rfl
@[simp] theorem Bus.conclude_udata (c : Cfg) (ok : Bool) (k : RCode) (r : Bus) : (r.conclude c ok k).udata = r.udata := rfl
@[simp] theorem Bus.conclude_rdest (c : Cfg) (ok : Bool) (k : RCode) (r : Bus) : (r.conclude c ok k).rdest = r.rdest := rfl
@[simp] theorem Bus.conclude_inflight (c : Cfg) (ok : Bool) (k : RCode) (r : Bus) : (r.conclude c ok k).inflight = r.inflight := rfl
@[simp] theorem Bus.conclude_wire (c : Cfg) (ok : Bool) (k : RCode) (r : Bus) : (r.conclude c ok k).wire = r.wire := rfl
@[simp] theorem Bus.conclude_ackstat (c : Cfg) (ok : Bool) (k : RCode) (r : Bus) : (r.conclude c ok k).ackstat = r.ackstat := rfl
@[simp] theorem Bus.conclude_rxbuf (c : Cfg) (ok : Bool) (k : RCode) (r : Bus) : (r.conclude c ok k).rxbuf = r.rxbuf := rfl
@[simp] theorem Bus.conclude_mif (c : Cfg) (ok : Bool) (k : RCode) (r : Bus) : (r.conclude c ok k).mif = r.mif := rfl
@[simp] theorem Bus.conclude_pstate (c : Cfg) (ok : Bool) (k : RCode) (r : Bus) : (r.conclude c ok k).pstate = r.pstate := rfl
@[simp] theorem Bus.conclude_addr (c : Cfg) (ok : Bool) (k : RCode) (r : Bus) : (r.conclude c ok k).addr = r.addr := rfl
@[simp] theorem Bus.conclude_wptr (c : Cfg) (ok : Bool) (k : RCode) (r : Bus) : (r.conclude c ok k).wptr = r.wptr := rfl
@[simp] theorem Bus.conclude_wrem (c : Cfg) (ok : Bool) (k : RCode) (r : Bus) : (r.conclude c ok k).wrem = r.wrem := rfl
@[simp] theorem Bus.conclude_rptr (c : Cfg) (ok : Bool) (k : RCode) (r : Bus) : (r.conclude c ok k).rptr = r.rptr := rfl
@[simp] theorem Bus.conclude_rrem (c : Cfg) (ok : Bool) (k : RCode) (r : Bus) : (r.conclude c ok k).rrem = r.rrem := rfl
@[simp] theorem Bus.conclude_result (c : Cfg) (ok : Bool) (k : RCode) (r : Bus) : (r.conclude c ok k).result = ok := rfl
@[simp] theorem Bus.conclude_rcb (c : Cfg) (ok : Bool) (k : RCode) (r : Bus) : (r.conclude c ok k).rcb = r.rcb := rfl
@[simp] theorem Bus.conclude_addrByte (c : Cfg) (ok : Bool) (k : RCode) (r : Bus) : (r.conclude c ok k).addrByte = r.addrByte := rfl
@[simp] theorem Bus.conclude_wsent (c : Cfg) (ok : Bool) (k : RCode) (r : Bus) : (r.conclude c ok k).wsent = r.wsent := rfl
@[simp] theorem Bus.conclude_rcode (c : Cfg) (ok : Bool) (k : RCode) (r : Bus) : (r.conclude c ok k).rcode = if c.richResult then some k else r.rcode := rfl
@[simp] theorem Bus.conclude_blkResult (c : Cfg) (ok : Bool) (k : RCode) (r : Bus) : (r.conclude c ok k).blkResult = r.blkResult := rfl
@[simp] theorem Bus.conclude_rcell (c : Cfg) (ok : Bool) (k : RCode) (r : Bus) : (r.conclude c ok k).rcell = r.rcell := rfl
@[simp] theorem Bus.conclude_wcell (c : Cfg) (ok : Bool) (k : RCode) (r : Bus) : (r.conclude c ok k).wcell = r.wcell := rfl
@[simp] theorem Bus.conclude_senabled (c : Cfg) (ok : Bool) (k : RCode) (r : Bus) : (r.conclude c ok k).senabled = r.senabled := rfl
@[simp] theorem Bus.conclude_sstate (c : Cfg) (ok : Bool) (k : RCode) (r : Bus) : (r.conclude c ok k).sstate = r.sstate := rfl
@[simp] theorem Bus.conclude_saddr (c : Cfg) (ok : Bool) (k : RCode) (r : Bus) : (r.conclude c ok k).saddr = r.saddr := rfl
@[simp] theorem Bus.conclude_sprio (c : Cfg) (ok : Bool) (k : RCode) (r : Bus) : (r.conclude c ok k).sprio = r.sprio := rfl
@[simp] theorem Bus.conclude_cbMsgFrom (c : Cfg) (ok : Bool) (k : RCode) (r : Bus) : (r.conclude c ok k).cbMsgFrom = r.cbMsgFrom := rfl
@[simp] theorem Bus.conclude_cbMsgTo (c : Cfg) (ok : Bool) (k : RCode) (r : Bus) : (r.conclude c ok k).cbMsgTo = r.cbMsgTo := rfl
@[simp] theorem Bus.conclude_cbByteFrom (c : Cfg) (ok : Bool) (k : RCode) (r : Bus) : (r.conclude c ok k).cbByteFrom = r.cbByteFrom := rfl
@[simp] theorem Bus.conclude_cbByteTo (c : Cfg) (ok : Bool) (k : RCode) (r : Bus) : (r.conclude c ok k).cbByteTo = r.cbByteTo := rfl
@[simp] theorem Bus.conclude_slDa (c : Cfg) (ok : Bool) (k : RCode) (r : Bus) : (r.conclude c ok k).slDa = r.slDa := rfl
@[simp] theorem Bus.conclude_slRw (c : Cfg) (ok : Bool) (k : RCode) (r : Bus) : (r.conclude c ok k).slRw = r.slRw := rfl
@[simp] theorem Bus.conclude_slRx (c : Cfg) (ok : Bool) (k : RCode) (r : Bus) : (r.conclude c ok k).slRx = r.slRx := rfl
@[simp] theorem Bus.conclude_slTx (c : Cfg) (ok : Bool) (k : RCode) (r : Bus) : (r.conclude c ok k).slTx = r.slTx := rfl
@[simp] theorem Bus.conclude_sclhold (c : Cfg) (ok : Bool) (k : RCode) (r : Bus) : (r.conclude c ok k).sclhold = r.sclhold := rfl
@[simp] theorem Bus.conclude_sif (c : Cfg) (ok : Bool) (k : RCode) (r : Bus) : (r.conclude c ok k).sif = r.sif := rfl
@[simp] theorem Bus.conclude_swire (c : Cfg) (ok : Bool) (k : RCode) (r : Bus) : (r.conclude c ok k).swire = r.swire := rfl
@[simp] theorem Bus.conclude_handed (c : Cfg) (ok : Bool) (k : RCode) (r : Bus) : (r.conclude c ok k).handed = r.handed := rfl
@[simp] theorem Bus.slaveEvent_busy  (r : Bus) : (r.slaveEvent).busy = r.busy := rfl
@[simp] theorem Bus.slaveEvent_op  (r : Bus) : (r.slaveEvent).op = r.op := rfl
@[simp] theorem Bus.slaveEvent_cont  (r : Bus) : (r.slaveEvent).cont = r.cont := rfl
@[simp] theorem Bus.slaveEvent_udata  (r : Bus) : (r.slaveEvent).udata = r.udata := rfl
@[simp] theorem Bus.slaveEvent_rdest  (r : Bus) : (r.slaveEvent).rdest = r.rdest := rfl
@[simp] theorem Bus.slaveEvent_inflight  (r : Bus) : (r.slaveEvent).inflight = r.inflight := rfl
@[simp] theorem Bus.slaveEvent_wire  (r : Bus) : (r.slaveEvent).wire = r.wire := rfl
@[simp] theorem Bus.slaveEvent_ackstat  (r : Bus) : (r.slaveEvent).ackstat = r.ackstat := rfl
@[simp] theorem Bus.slaveEvent_rxbuf  (r : Bus) : (r.slaveEvent).rxbuf = r.rxbuf := rfl
@[simp] theorem Bus.slaveEvent_mif  (r : Bus) : (r.slaveEvent).mif = r.mif := rfl
@[simp] theorem Bus.slaveEvent_pstate  (r : Bus) : (r.slaveEvent).pstate = r.pstate := rfl
@[simp] theorem Bus.slaveEvent_addr  (r : Bus) : (r.slaveEvent).addr = r.addr := rfl
@[simp] theorem Bus.slaveEvent_wptr  (r : Bus) : (r.slaveEvent).wptr = r.wptr := rfl
@[simp] theorem Bus.slaveEvent_wrem  (r : Bus) : (r.slaveEvent).wrem = r.wrem := rfl
@[simp] theorem Bus.slaveEvent_rptr  (r : Bus) : (r.slaveEvent).rptr = r.rptr := rfl
@[simp] theorem Bus.slaveEvent_rrem  (r : Bus) : (r.slaveEvent).rrem = r.rrem := rfl
@[simp] theorem Bus.slaveEvent_result  (r : Bus) : (r.slaveEvent).result = r.result := rfl
@[simp] theorem Bus.slaveEvent_rcb  (r : Bus) : (r.slaveEvent).rcb = r.rcb := rfl
@[simp] theorem Bus.slaveEvent_addrByte  (r : Bus) : (r.slaveEvent).addrByte = r.addrByte := rfl
@[simp] theorem Bus.slaveEvent_wsent  (r : Bus) : (r.slaveEvent).wsent = r.wsent := rfl
@[simp] theorem Bus.slaveEvent_rcode  (r : Bus) : (r.slaveEvent).rcode = r.rcode := rfl
@[simp] theorem Bus.slaveEvent_blkResult  (r : Bus) : (r.slaveEvent).blkResult = r.blkResult := rfl
@[simp] theorem Bus.slaveEvent_rcell  (r : Bus) : (r.slaveEvent).rcell = r.rcell := rfl
@[simp] theorem Bus.slaveEvent_wcell  (r : Bus) : (r.slaveEvent).wcell = r.wcell := rfl
@[simp] theorem Bus.slaveEvent_senabled  (r : Bus) : (r.slaveEvent).senabled = r.senabled := rfl
@[simp] theorem Bus.slaveEvent_sstate  (r : Bus) : (r.slaveEvent).sstate = r.sstate := rfl
@[simp] theorem Bus.slaveEvent_saddr  (r : Bus) : (r.slaveEvent).saddr = r.saddr := rfl
@[simp] theorem Bus.slaveEvent_sprio  (r : Bus) : (r.slaveEvent).sprio = r.sprio := rfl
@[simp] theorem Bus.slaveEvent_cbMsgFrom  (r : Bus) : (r.slaveEvent).cbMsgFrom = r.cbMsgFrom := rfl
@[simp] theorem Bus.slaveEvent_cbMsgTo  (r : Bus) : (r.slaveEvent).cbMsgTo = r.cbMsgTo := rfl
@[simp] theorem Bus.slaveEvent_cbByteFrom  (r : Bus) : (r.slaveEvent).cbByteFrom = r.cbByteFrom := rfl
@[simp] theorem Bus.slaveEvent_cbByteTo  (r : Bus) : (r.slaveEvent).cbByteTo = r.cbByteTo := rfl
@[simp] theorem Bus.slaveEvent_slDa  (r : Bus) : (r.slaveEvent).slDa = r.slDa := rfl
@[simp] theorem Bus.slaveEvent_slRw  (r : Bus) : (r.slaveEvent).slRw = r.slRw := rfl
@[simp] theorem Bus.slaveEvent_slRx  (r : Bus) : (r.slaveEvent).slRx = r.slRx := rfl
@[simp] theorem Bus.slaveEvent_slTx  (r : Bus) : (r.slaveEvent).slTx = r.slTx := rfl
@[simp] theorem Bus.slaveEvent_sclhold  (r : Bus) : (r.slaveEvent).sclhold = true := rfl
@[simp] theorem Bus.slaveEvent_sif  (r : Bus) : (r.slaveEvent).sif = true := rfl
@[simp] theorem Bus.slaveEvent_swire  (r : Bus) : (r.slaveEvent).swire = r.swire := rfl
@[simp] theorem Bus.slaveEvent_handed  (r : Bus) : (r.slaveEvent).handed = r.handed := rfl
@[simp] theorem Bus.seed_busy (c : Cfg) (a : Addr7) (p : Option Ref) (m : Nat) (q : Option Ref) (n : Nat) (k : CallbackId) (r : Bus) : (r.seed c a p m q n k).busy = r.busy := rfl
@[simp] theorem Bus.seed_op (c : Cfg) (a : Addr7) (p : Option Ref) (m : Nat) (q : Option Ref) (n : Nat) (k : CallbackId) (r : Bus) : (r.seed c a p m q n k).op = r.op := rfl
@[simp] theorem Bus.seed_cont (c : Cfg) (a : Addr7) (p : Option Ref) (m : Nat) (q : Option Ref) (n : Nat) (k : CallbackId) (r : Bus) : (r.seed c a p m q n k).cont = r.cont := rfl
@[simp] theorem Bus.seed_udata (c : Cfg) (a : Addr7) (p : Option Ref) (m : Nat) (q : Option Ref) (n : Nat) (k : CallbackId) (r : Bus) : (r.seed c a p m q n k).udata = r.udata := rfl
@[simp] theorem Bus.seed_rdest (c : Cfg) (a : Addr7) (p : Option Ref) (m : Nat) (q : Option Ref) (n : Nat) (k : CallbackId) (r : Bus) : (r.seed c a p m q n k).rdest = r.rdest := rfl
@[simp] theorem Bus.seed_inflight (c : Cfg) (a : Addr7) (p : Option Ref) (m : Nat) (q : Option Ref) (n : Nat) (k : CallbackId) (r : Bus) : (r.seed c a p m q n k).inflight = r.inflight := rfl
@[simp] theorem Bus.seed_wire (c : Cfg) (a : Addr7) (p : Option Ref) (m : Nat) (q : Option Ref) (n : Nat) (k : CallbackId) (r : Bus) : (r.seed c a p m q n k).wire = r.wire := rfl
@[simp] theorem Bus.seed_ackstat (c : Cfg) (a : Addr7) (p : Option Ref) (m : Nat) (q : Option Ref) (n : Nat) (k : CallbackId) (r : Bus) : (r.seed c a p m q n k).ackstat = r.ackstat := rfl
@[simp] theorem Bus.seed_rxbuf (c : Cfg) (a : Addr7) (p : Option Ref) (m : Nat) (q : Option Ref) (n : Nat) (k : CallbackId) (r : Bus) : (r.seed c a p m q n k).rxbuf = r.rxbuf := rfl
@[simp] theorem Bus.seed_mif (c : Cfg) (a : Addr7) (p : Option Ref) (m : Nat) (q : Option Ref) (n : Nat) (k : CallbackId) (r : Bus) : (r.seed c a p m q n k).mif = r.mif := rfl
@[simp] theorem Bus.seed_pstate (c : Cfg) (a : Addr7) (p : Option Ref) (m : Nat) (q : Option Ref) (n : Nat) (k : CallbackId) (r : Bus) : (r.seed c a p m q n k).pstate = .startDone := rfl
@[simp] theorem Bus.seed_addr (c : Cfg) (a : Addr7) (p : Option Ref) (m : Nat) (q : Option Ref) (n : Nat) (k : CallbackId) (r : Bus) : (r.seed c a p m q n k).addr = some a := rfl
@[simp] theorem Bus.seed_wptr (c : Cfg) (a : Addr7) (p : Option Ref) (m : Nat) (q : Option Ref) (n : Nat) (k : CallbackId) (r : Bus) : (r.seed c a p m q n k).wptr = p := rfl
@[simp] theorem Bus.seed_wrem (c : Cfg) (a : Addr7) (p : Option Ref) (m : Nat) (q : Option Ref) (n : Nat) (k : CallbackId) (r : Bus) : (r.seed c a p m q n k).wrem = m := rfl
@[simp] theorem Bus.seed_rptr (c : Cfg) (a : Addr7) (p : Option Ref) (m : Nat) (q : Option Ref) (n : Nat) (k : CallbackId) (r : Bus) : (r.seed c a p m q n k).rptr = q := rfl
@[simp] theorem Bus.seed_rrem (c : Cfg) (a : Addr7) (p : Option Ref) (m : Nat) (q : Option Ref) (n : Nat) (k : CallbackId) (r : Bus) : (r.seed c a p m q n k).rrem = n := rfl
@[simp] theorem Bus.seed_result (c : Cfg) (a : Addr7) (p : Option Ref) (m : Nat) (q : Option Ref) (n : Nat) (k : CallbackId) (r : Bus) : (r.seed c a p m q n k).result = false := rfl
@[simp] theorem Bus.seed_rcb (c : Cfg) (a : Addr7) (p : Option Ref) (m : Nat) (q : Option Ref) (n : Nat) (k : CallbackId) (r : Bus) : (r.seed c a p m q n k).rcb = some k := rfl
@[simp] theorem Bus.seed_addrByte (c : Cfg) (a : Addr7) (p : Option Ref) (m : Nat) (q : Option Ref) (n : Nat) (k : CallbackId) (r : Bus) : (r.seed c a p m q n k).addrByte = r.addrByte := rfl
@[simp] theorem Bus.seed_wsent (c : Cfg) (a : Addr7) (p : Option Ref) (m : Nat) (q : Option Ref) (n : Nat) (k : CallbackId) (r : Bus) : (r.seed c a p m q n k).wsent = if c.richResult then 0 else r.wsent := rfl
@[simp] theorem Bus.seed_rcode (c : Cfg) (a : Addr7) (p : Option Ref) (m : Nat) (q : Option Ref) (n : Nat) (k : CallbackId) (r : Bus) : (r.seed c a p m q n k).rcode = if c.richResult then none else r.rcode := rfl
@[simp] theorem Bus.seed_blkResult (c : Cfg) (a : Addr7) (p : Option Ref) (m : Nat) (q : Option Ref) (n : Nat) (k : CallbackId) (r : Bus) : (r.seed c a p m q n k).blkResult = r.blkResult := rfl
@[simp] theorem Bus.seed_rcell (c : Cfg) (a : Addr7) (p : Option Ref) (m : Nat) (q : Option Ref) (n : Nat) (k : CallbackId) (r : Bus) : (r.seed c a p m q n k).rcell = r.rcell := rfl
@[simp] theorem Bus.seed_wcell (c : Cfg) (a : Addr7) (p : Option Ref) (m : Nat) (q : Option Ref) (n : Nat) (k : CallbackId) (r : Bus) : (r.seed c a p m q n k).wcell = r.wcell := rfl
@[simp] theorem Bus.seed_senabled (c : Cfg) (a : Addr7) (p : Option Ref) (m : Nat) (q : Option Ref) (n : Nat) (k : CallbackId) (r : Bus) : (r.seed c a p m q n k).senabled = r.senabled := rfl
@[simp] theorem Bus.seed_sstate (c : Cfg) (a : Addr7) (p : Option Ref) (m : Nat) (q : Option Ref) (n : Nat) (k : CallbackId) (r : Bus) : (r.seed c a p m q n k).sstate = r.sstate := rfl
@[simp] theorem Bus.seed_saddr (c : Cfg) (a : Addr7) (p : Option Ref) (m : Nat) (q : Option Ref) (n : Nat) (k : CallbackId) (r : Bus) : (r.seed c a p m q n k).saddr = r.saddr := rfl
@[simp] theorem Bus.seed_sprio (c : Cfg) (a : Addr7) (p : Option Ref) (m : Nat) (q : Option Ref) (n : Nat) (k : CallbackId) (r : Bus) : (r.seed c a p m q n k).sprio = r.sprio := rfl
@[simp] theorem Bus.seed_cbMsgFrom (c : Cfg) (a : Addr7) (p : Option Ref) (m : Nat) (q : Option Ref) (n : Nat) (k : CallbackId) (r : Bus) : (r.seed c a p m q n k).cbMsgFrom = r.cbMsgFrom := rfl
@[simp] theorem Bus.seed_cbMsgTo (c : Cfg) (a : Addr7) (p : Option Ref) (m : Nat) (q : Option Ref) (n : Nat) (k : CallbackId) (r : Bus) : (r.seed c a p m q n k).cbMsgTo = r.cbMsgTo := rfl
@[simp] theorem Bus.seed_cbByteFrom (c : Cfg) (a : Addr7) (p : Option Ref) (m : Nat) (q : Option Ref) (n : Nat) (k : CallbackId) (r : Bus) : (r.seed c a p m q n k).cbByteFrom = r.cbByteFrom := rfl
@[simp] theorem Bus.seed_cbByteTo (c : Cfg) (a : Addr7) (p : Option Ref) (m : Nat) (q : Option Ref) (n : Nat) (k : CallbackId) (r : Bus) : (r.seed c a p m q n k).cbByteTo = r.cbByteTo := rfl
@[simp] theorem Bus.seed_slDa (c : Cfg) (a : Addr7) (p : Option Ref) (m : Nat) (q : Option Ref) (n : Nat) (k : CallbackId) (r : Bus) : (r.seed c a p m q n k).slDa = r.slDa := rfl
@[simp] theorem Bus.seed_slRw (c : Cfg) (a : Addr7) (p : Option Ref) (m : Nat) (q : Option Ref) (n : Nat) (k : CallbackId) (r : Bus) : (r.seed c a p m q n k).slRw = r.slRw := rfl
@[simp] theorem Bus.seed_slRx (c : Cfg) (a : Addr7) (p : Option Ref) (m : Nat) (q : Option Ref) (n : Nat) (k : CallbackId) (r : Bus) : (r.seed c a p m q n k).slRx = r.slRx := rfl
@[simp] theorem Bus.seed_slTx (c : Cfg) (a : Addr7) (p : Option Ref) (m : Nat) (q : Option Ref) (n : Nat) (k : CallbackId) (r : Bus) : (r.seed c a p m q n k).slTx = r.slTx := rfl
@[simp] theorem Bus.seed_sclhold (c : Cfg) (a : Addr7) (p : Option Ref) (m : Nat) (q : Option Ref) (n : Nat) (k : CallbackId) (r : Bus) : (r.seed c a p m q n k).sclhold = r.sclhold := rfl
@[simp] theorem Bus.seed_sif (c : Cfg) (a : Addr7) (p : Option Ref) (m : Nat) (q : Option Ref) (n : Nat) (k : CallbackId) (r : Bus) : (r.seed c a p m q n k).sif = r.sif := rfl
@[simp] theorem Bus.seed_swire (c : Cfg) (a : Addr7) (p : Option Ref) (m : Nat) (q : Option Ref) (n : Nat) (k : CallbackId) (r : Bus) : (r.seed c a p m q n k).swire = r.swire := rfl
@[simp] theorem Bus.seed_handed (c : Cfg) (a : Addr7) (p : Option Ref) (m : Nat) (q : Option Ref) (n : Nat) (k : CallbackId) (r : Bus) : (r.seed c a p m q n k).handed = r.handed := rfl
@[simp] theorem Bus.setWire_busy (c : Cfg) (w : Wire) (r : Bus) : (r.setWire c w).busy = r.busy := by unfold Bus.setWire; split <;> rfl
@[simp] theorem Bus.setWire_op (c : Cfg) (w : Wire) (r : Bus) : (r.setWire c w).op = r.op := by unfold Bus.setWire; split <;> rfl
@[simp] theorem Bus.setWire_cont (c : Cfg) (w : Wire) (r : Bus) : (r.setWire c w).cont = r.cont := by unfold Bus.setWire; split <;> rfl
@[simp] theorem Bus.setWire_udata (c : Cfg) (w : Wire) (r : Bus) : (r.setWire c w).udata = r.udata := by unfold Bus.setWire; split <;> rfl
@[simp] theorem Bus.setWire_rdest (c : Cfg) (w : Wire) (r : Bus) : (r.setWire c w).rdest = r.rdest := by unfold Bus.setWire; split <;> rfl
@[simp] theorem Bus.setWire_inflight (c : Cfg) (w : Wire) (r : Bus) : (r.setWire c w).inflight = r.inflight := by unfold Bus.setWire; split <;> rfl
@[simp] theorem Bus.setWire_wire (c : Cfg) (w : Wire) (r : Bus) : (r.setWire c w).wire = if c.busSeqCheck then w else r.wire := by unfold Bus.setWire; split <;> rfl
@[simp] theorem Bus.setWire_ackstat (c : Cfg) (w : Wire) (r : Bus) : (r.setWire c w).ackstat = r.ackstat := by unfold Bus.setWire; split <;> rfl
@[simp] theorem Bus.setWire_rxbuf (c : Cfg) (w : Wire) (r : Bus) : (r.setWire c w).rxbuf = r.rxbuf := by unfold Bus.setWire; split <;> rfl
@[simp] theorem Bus.setWire_mif (c : Cfg) (w : Wire) (r : Bus) : (r.setWire c w).mif = r.mif := by unfold Bus.setWire; split <;> rfl
@[simp] theorem Bus.setWire_pstate (c : Cfg) (w : Wire) (r : Bus) : (r.setWire c w).pstate = r.pstate := by unfold Bus.setWire; split <;> rfl
@[simp] theorem Bus.setWire_addr (c : Cfg) (w : Wire) (r : Bus) : (r.setWire c w).addr = r.addr := by unfold Bus.setWire; split <;> rfl
@[simp] theorem Bus.setWire_wptr (c : Cfg) (w : Wire) (r : Bus) : (r.setWire c w).wptr = r.wptr := by unfold Bus.setWire; split <;> rfl
@[simp] theorem Bus.setWire_wrem (c : Cfg) (w : Wire) (r : Bus) : (r.setWire c w).wrem = r.wrem := by unfold Bus.setWire; split <;> rfl
@[simp] theorem Bus.setWire_rptr (c : Cfg) (w : Wire) (r : Bus) : (r.setWire c w).rptr = r.rptr := by unfold Bus.setWire; split <;> rfl
@[simp] theorem Bus.setWire_rrem (c : Cfg) (w : Wire) (r : Bus) : (r.setWire c w).rrem = r.rrem := by unfold Bus.setWire; split <;> rfl
@[simp] theorem Bus.setWire_result (c : Cfg) (w : Wire) (r : Bus) : (r.setWire c w).result = r.result := by unfold Bus.setWire; split <;> rfl
@[simp] theorem Bus.setWire_rcb (c : Cfg) (w : Wire) (r : Bus) : (r.setWire c w).rcb = r.rcb := by unfold Bus.setWire; split <;> rfl
@[simp] theorem Bus.setWire_addrByte (c : Cfg) (w : Wire) (r : Bus) : (r.setWire c w).addrByte = r.addrByte := by unfold Bus.setWire; split <;> rfl
@[simp] theorem Bus.setWire_wsent (c : Cfg) (w : Wire) (r : Bus) : (r.setWire c w).wsent = r.wsent := by unfold Bus.setWire; split <;> rfl
@[simp] theorem Bus.setWire_rcode (c : Cfg) (w : Wire) (r : Bus) : (r.setWire c w).rcode = r.rcode := by unfold Bus.setWire; split <;> rfl
@[simp] theorem Bus.setWire_blkResult (c : Cfg) (w : Wire) (r : Bus) : (r.setWire c w).blkResult = r.blkResult := by unfold Bus.setWire; split <;> rfl
@[simp] theorem Bus.setWire_rcell (c : Cfg) (w : Wire) (r : Bus) : (r.setWire c w).rcell = r.rcell := by unfold Bus.setWire; split <;> rfl
@[simp] theorem Bus.setWire_wcell (c : Cfg) (w : Wire) (r : Bus) : (r.setWire c w).wcell = r.wcell := by unfold Bus.setWire; split <;> rfl
@[simp] theorem Bus.setWire_senabled (c : Cfg) (w : Wire) (r : Bus) : (r.setWire c w).senabled = r.senabled := by unfold Bus.setWire; split <;> rfl
@[simp] theorem Bus.setWire_sstate (c : Cfg) (w : Wire) (r : Bus) : (r.setWire c w).sstate = r.sstate := by unfold Bus.setWire; split <;> rfl
@[simp] theorem Bus.setWire_saddr (c : Cfg) (w : Wire) (r : Bus) : (r.setWire c w).saddr = r.saddr := by unfold Bus.setWire; split <;> rfl
@[simp] theorem Bus.setWire_sprio (c : Cfg) (w : Wire) (r : Bus) : (r.setWire c w).sprio = r.sprio := by unfold Bus.setWire; split <;> rfl
@[simp] theorem Bus.setWire_cbMsgFrom (c : Cfg) (w : Wire) (r : Bus) : (r.setWire c w).cbMsgFrom = r.cbMsgFrom := by unfold Bus.setWire; split <;> rfl
@[simp] theorem Bus.setWire_cbMsgTo (c : Cfg) (w : Wire) (r : Bus) : (r.setWire c w).cbMsgTo = r.cbMsgTo := by unfold Bus.setWire; split <;> rfl
@[simp] theorem Bus.setWire_cbByteFrom (c : Cfg) (w : Wire) (r : Bus) : (r.setWire c w).cbByteFrom = r.cbByteFrom := by unfold Bus.setWire; split <;> rfl
@[simp] theorem Bus.setWire_cbByteTo (c : Cfg) (w : Wire) (r : Bus) : (r.setWire c w).cbByteTo = r.cbByteTo := by unfold Bus.setWire; split <;> rfl
@[simp] theorem Bus.setWire_slDa (c : Cfg) (w : Wire) (r : Bus) : (r.setWire c w).slDa = r.slDa := by unfold Bus.setWire; split <;> rfl
@[simp] theorem Bus.setWire_slRw (c : Cfg) (w : Wire) (r : Bus) : (r.setWire c w).slRw = r.slRw := by unfold Bus.setWire; split <;> rfl
@[simp] theorem Bus.setWire_slRx (c : Cfg) (w : Wire) (r : Bus) : (r.setWire c w).slRx = r.slRx := by unfold Bus.setWire; split <;> rfl
@[simp] theorem Bus.setWire_slTx (c : Cfg) (w : Wire) (r : Bus) : (r.setWire c w).slTx = r.slTx := by unfold Bus.setWire; split <;> rfl
@[simp] theorem Bus.setWire_sclhold (c : Cfg) (w : Wire) (r : Bus) : (r.setWire c w).sclhold = r.sclhold := by unfold Bus.setWire; split <;> rfl
@[simp] theorem Bus.setWire_sif (c : Cfg) (w : Wire) (r : Bus) : (r.setWire c w).sif = r.sif := by unfold Bus.setWire; split <;> rfl
@[simp] theorem Bus.setWire_swire (c : Cfg) (w : Wire) (r : Bus) : (r.setWire c w).swire = r.swire := by unfold Bus.setWire; split <;> rfl
@[simp] theorem Bus.setWire_handed (c : Cfg) (w : Wire) (r : Bus) : (r.setWire c w).handed = r.handed := by unfold Bus.setWire; split <;> rfl

/-! ### Looking a record up after an update -/

theorem getElem?_set_same {l : List Bus} {b : Nat} {r r' : Bus} (h : l[b]? = some r) : (l.set b r')[b]? = some r' := by
  obtain ⟨hb, -⟩ := List.getElem?_eq_some_iff.mp h
  simp [hb]

theorem getElem?_set_other {l : List Bus} {b c : Nat} {r' : Bus} (h : b ≠ c) : (l.set b r')[c]? = l[c]? := by
  simp [h]

@[simp] theorem State.modBus_length (b : Nat) (g : Bus → Bus) (s : State) : (s.modBus b g).buses.length = s.buses.length := by
  unfold State.modBus; split <;> simp

/-- The record of bus `c` after a change of bus `b`. -/
theorem State.modBus_get (b c : Nat) (g : Bus → Bus) (s : State) :
    (s.modBus b g).buses[c]? = if b = c then (s.buses[c]?).map g else s.buses[c]? := by
  unfold State.modBus
  split
  · next r h =>
    by_cases hbc : b = c
    · subst hbc; simp [h, getElem?_set_same h]
    · simp [hbc, getElem?_set_other hbc]
  · next h =>
    by_cases hbc : b = c
    · subst hbc; simp [h]
    · simp [hbc]

theorem State.modBus_of_get {b : Nat} {g : Bus → Bus} {s : State} {r : Bus} (h : s.buses[b]? = some r) :
    s.modBus b g = s.setBus b (g r) := by
  simp [State.modBus, h]

/-! ### Equal states, equal records -/

/-- Two states with the same fields are one state. -/
theorem State.eq_of_fields {s t : State}
    (h_cfg : s.cfg = t.cfg) (h_buses : s.buses = t.buses) (h_mem : s.mem = t.mem)
    (h_sysFatal : s.sysFatal = t.sysFatal) (h_sysFault : s.sysFault = t.sysFault)
    (h_sysRefused : s.sysRefused = t.sysRefused) (h_trace : s.trace = t.trace) (h_actor : s.actor = t.actor)
    (h_hostCall : s.hostCall = t.hostCall) (h_ret : s.ret = t.ret) (h_program : s.program = t.program)
    (h_agenda : s.agenda = t.agenda) (h_answers : s.answers = t.answers) (h_drawn : s.drawn = t.drawn)
    (h_stuck : s.stuck = t.stuck) : s = t := by
  cases s; cases t; simp_all

/-- Two records with the same fields are one record. -/
theorem Bus.eq_of_fields {r r' : Bus}
    (h_busy : r.busy = r'.busy) (h_op : r.op = r'.op) (h_cont : r.cont = r'.cont) (h_udata : r.udata = r'.udata)
    (h_rdest : r.rdest = r'.rdest) (h_inflight : r.inflight = r'.inflight) (h_wire : r.wire = r'.wire)
    (h_ackstat : r.ackstat = r'.ackstat) (h_rxbuf : r.rxbuf = r'.rxbuf) (h_mif : r.mif = r'.mif)
    (h_pstate : r.pstate = r'.pstate) (h_addr : r.addr = r'.addr) (h_wptr : r.wptr = r'.wptr)
    (h_wrem : r.wrem = r'.wrem) (h_rptr : r.rptr = r'.rptr) (h_rrem : r.rrem = r'.rrem)
    (h_result : r.result = r'.result) (h_rcb : r.rcb = r'.rcb) (h_addrByte : r.addrByte = r'.addrByte)
    (h_wsent : r.wsent = r'.wsent) (h_rcode : r.rcode = r'.rcode) (h_blkResult : r.blkResult = r'.blkResult)
    (h_rcell : r.rcell = r'.rcell) (h_wcell : r.wcell = r'.wcell) (h_senabled : r.senabled = r'.senabled)
    (h_sstate : r.sstate = r'.sstate) (h_saddr : r.saddr = r'.saddr) (h_sprio : r.sprio = r'.sprio)
    (h_cbMsgFrom : r.cbMsgFrom = r'.cbMsgFrom) (h_cbMsgTo : r.cbMsgTo = r'.cbMsgTo)
    (h_cbByteFrom : r.cbByteFrom = r'.cbByteFrom) (h_cbByteTo : r.cbByteTo = r'.cbByteTo) (h_slDa : r.slDa = r'.slDa)
    (h_slRw : r.slRw = r'.slRw) (h_slRx : r.slRx = r'.slRx) (h_slTx : r.slTx = r'.slTx)
    (h_sclhold : r.sclhold = r'.sclhold) (h_sif : r.sif = r'.sif) (h_swire : r.swire = r'.swire)
    (h_handed : r.handed = r'.handed) : r = r' := by
  cases r; cases r'; simp_all

/-! ### Halting and draws -/

theorem State.halted_iff (s : State) :
    s.halted = true ↔ s.sysFatal ≠ none ∨ s.sysFault ≠ none ∨ s.sysRefused = true := by
  simp [State.halted, Option.isSome_iff_ne_none, or_assoc]

@[simp] theorem State.answer_setBus (b : Nat) (r : Bus) (s : State) : (s.setBus b r).answer = s.answer := rfl
@[simp] theorem State.answer_record (e : Event) (s : State) : (s.record e).answer = s.answer := rfl
@[simp] theorem State.answer_stick (a : Agent) (s : State) : (s.stick a).answer = s.answer := rfl
@[simp] theorem State.answer_enter (a : Agent) (s : State) : (s.enter a).answer = s.answer := rfl

/-- A draw depends on the answers and the count alone. -/
theorem State.answer_congr {s t : State} (h : t.answers = s.answers) (h' : t.drawn = s.drawn) : t.answer = s.answer := by
  unfold State.answer; rw [h, h']

end Sys2Proof.Machine
end

