-- ==== Sys2Proof/Laws/Memory.lean ====
section
/-! SUPPORT. Host memory: every operation keeps the canonical form, a read after a write to the same address gives the byte
written, and a write leaves every other address alone. -/

namespace Sys2Proof.Machine

theorem Memory.wfFrom_mono {lo lo' : Nat} {m : List Host.Cell} (h : lo' ≤ lo) (hm : Memory.wfFrom lo m = true) :
    Memory.wfFrom lo' m = true := by
  cases m with
  | nil => rfl
  | cons c m =>
    simp only [Memory.wfFrom, Bool.and_eq_true, decide_eq_true_eq] at hm ⊢
    exact ⟨⟨by omega, hm.1.2⟩, hm.2⟩

/-- An address below all those listed reads as an unlisted one. -/
theorem Memory.read_of_lt {lo a : Nat} {m : List Host.Cell} (hm : Memory.wfFrom lo m = true) (h : a < lo) :
    Memory.read m a = Memory.unlisted := by
  induction m generalizing lo with
  | nil => rfl
  | cons c m ih =>
    simp only [Memory.wfFrom, Bool.and_eq_true, decide_eq_true_eq] at hm
    rw [Memory.read, if_neg (by omega)]
    exact ih hm.2 (by omega)

theorem Memory.erase_wfFrom {lo : Nat} {m : List Host.Cell} (a : Nat) (hm : Memory.wfFrom lo m = true) :
    Memory.wfFrom lo (Memory.erase m a) = true := by
  induction m generalizing lo with
  | nil => rfl
  | cons c m ih =>
    simp only [Memory.wfFrom, Bool.and_eq_true, decide_eq_true_eq] at hm
    rw [Memory.erase]
    split
    · exact Memory.wfFrom_mono (by omega) hm.2
    · simp only [Memory.wfFrom, Bool.and_eq_true, decide_eq_true_eq]
      exact ⟨hm.1, ih hm.2⟩

theorem Memory.insert_wfFrom {lo a : Nat} {v : Byte} {m : List Host.Cell} (hv : v ≠ Memory.unlisted) (ha : lo ≤ a)
    (hm : Memory.wfFrom lo m = true) : Memory.wfFrom lo (Memory.insert m a v) = true := by
  induction m generalizing lo with
  | nil => simp [Memory.insert, Memory.wfFrom, ha, hv]
  | cons c m ih =>
    obtain ⟨k, w⟩ := c
    simp only [Memory.wfFrom, Bool.and_eq_true, decide_eq_true_eq] at hm
    rw [Memory.insert]
    split
    · simp only [Memory.wfFrom, Bool.and_eq_true, decide_eq_true_eq, bne_iff_ne]
      exact ⟨⟨ha, hv⟩, ⟨by omega, by simpa using hm.1.2⟩, hm.2⟩
    · split
      · next h => subst h; simp [Memory.wfFrom, hm.2, hm.1.1, hv]
      · simp only [Memory.wfFrom, Bool.and_eq_true, decide_eq_true_eq]
        exact ⟨hm.1, ih (by omega) hm.2⟩

/-- A write keeps the canonical form. -/
theorem Memory.write_wf {m : List Host.Cell} (a : Nat) (v : Byte) (hm : Memory.wf m = true) :
    Memory.wf (Memory.write m a v) = true := by
  unfold Memory.write
  split
  · exact Memory.erase_wfFrom a hm
  · next h => exact Memory.insert_wfFrom h (Nat.zero_le a) hm

theorem Memory.read_erase_same {lo : Nat} {m : List Host.Cell} (a : Nat) (hm : Memory.wfFrom lo m = true) :
    Memory.read (Memory.erase m a) a = Memory.unlisted := by
  induction m generalizing lo with
  | nil => rfl
  | cons c m ih =>
    simp only [Memory.wfFrom, Bool.and_eq_true, decide_eq_true_eq] at hm
    rw [Memory.erase]
    split
    · next h => exact Memory.read_of_lt hm.2 (by omega)
    · next h => rw [Memory.read, if_neg h]; exact ih hm.2

theorem Memory.read_erase_other {m : List Host.Cell} {a y : Nat} (h : y ≠ a) :
    Memory.read (Memory.erase m a) y = Memory.read m y := by
  induction m with
  | nil => rfl
  | cons c m ih =>
    rw [Memory.erase]
    split
    · next hk => rw [Memory.read, if_neg (by omega)]
    · rw [Memory.read, Memory.read, ih]

theorem Memory.read_insert_same (m : List Host.Cell) (a : Nat) (v : Byte) :
    Memory.read (Memory.insert m a v) a = v := by
  induction m with
  | nil => simp [Memory.insert, Memory.read]
  | cons c m ih =>
    rw [Memory.insert]
    split
    · simp [Memory.read]
    · split
      · simp [Memory.read]
      · next h => rw [Memory.read, if_neg h, ih]

theorem Memory.read_insert_other {m : List Host.Cell} {a y : Nat} {v : Byte} (h : y ≠ a) :
    Memory.read (Memory.insert m a v) y = Memory.read m y := by
  induction m with
  | nil => simp [Memory.insert, Memory.read, h.symm]
  | cons c m ih =>
    rw [Memory.insert]
    split
    · rw [Memory.read, if_neg h.symm]
    · split
      · next hk => rw [Memory.read, if_neg h.symm, Memory.read, if_neg (by omega)]
      · rw [Memory.read, Memory.read, ih]

/-- A read after a write to the same address gives the byte written. -/
theorem Memory.read_write_same {m : List Host.Cell} (a : Nat) (v : Byte) (hm : Memory.wf m = true) :
    Memory.read (Memory.write m a v) a = v := by
  unfold Memory.write
  split
  · next h => rw [Memory.read_erase_same a hm, h]
  · exact Memory.read_insert_same m a v

/-- A write leaves every other address alone. -/
theorem Memory.read_write_other {m : List Host.Cell} {a y : Nat} (v : Byte) (h : y ≠ a) :
    Memory.read (Memory.write m a v) y = Memory.read m y := by
  unfold Memory.write
  split
  · exact Memory.read_erase_other h
  · exact Memory.read_insert_other h

/-! ### The operations over State -/

theorem State.resetWith_mem_wf (c : Cfg) : Memory.wf (State.resetWith c).mem = true := rfl

theorem State.setByteAt_mem_wf (ref : Ref) (v : Byte) (s : State) (h : Memory.wf s.mem = true) :
    Memory.wf (s.setByteAt ref v).mem = true := by
  cases ref with
  | mem a => exact Memory.write_wf a v h
  | addrByte b => simpa [State.setByteAt] using h
  | rcell b i => simp only [State.setByteAt]; split <;> simpa using h
  | wcell b i => simpa [State.setByteAt] using h

theorem State.memWrite_mem_wf (ref : Ref) (v : Byte) (s : State) (h : Memory.wf s.mem = true) :
    Memory.wf (s.memWrite ref v).mem = true := s.setByteAt_mem_wf ref v h

theorem State.hostStore_mem_wf (a : Nat) (v : Byte) (s : State) (h : Memory.wf s.mem = true) :
    Memory.wf (s.hostStore a v).mem = true := Memory.write_wf _ v h

/-- A cell put is the cell read, and no other cell changes. -/
theorem cellAt_setCell (l : List (Option Byte)) (i j : Nat) (v : Byte) :
    cellAt (setCell l i v) j = if j = i then some v else cellAt l j := by
  induction i generalizing l j with
  | zero =>
    cases l <;> cases j <;> simp [setCell, cellAt]
  | succ i ih =>
    cases l with
    | nil =>
      cases j with
      | zero => simp [setCell, cellAt]
      | succ j => simpa [setCell, cellAt] using ih [] j
    | cons c l =>
      cases j with
      | zero => simp [setCell, cellAt]
      | succ j => simpa [setCell, cellAt] using ih l j

end Sys2Proof.Machine
end

