-- ==== Sys2Proof/Laws/Ops.lean ====
section
/-! SUPPORT. One lemma for each thing a shared operation can answer, cited instead of unfolding the operation. -/

namespace Sys2Proof.Machine

/-! ### The registry -/

@[simp] theorem State.setBus_setBus (b : Nat) (r r' : Bus) (s : State) : (s.setBus b r).setBus b r' = s.setBus b r' := by
  simp [State.setBus]

theorem State.setBus_get {b : Nat} {r r' : Bus} {s : State} (h : s.buses[b]? = some r) :
    (s.setBus b r').buses[b]? = some r' := getElem?_set_same h

theorem State.record_record (e e' : Event) (s : State) :
    (s.record e).record e' = { s with trace := s.trace ++ [e, e'] } := by
  simp [State.record]

/-! ### Finding the bus -/

theorem withBus_unknown {site : Nat} {role : Role} {bus : BusField} {s : State} {k : Nat → Bus → Out}
    (h : s.buses.length ≤ bus.toNat) : withBus site role bus s k = .next (s.raiseFatal site .invalidBus bus.toNat) := by
  simp [withBus, List.getElem?_eq_none h]

theorem withBus_known {site : Nat} {role : Role} {bus : BusField} {s : State} {k : Nat → Bus → Out} {r : Bus}
    (h : s.busIs bus role r) : withBus site role bus s k = k bus.toNat r := by
  simp [withBus, h.1, h.2]

theorem withBus_otherRole {site : Nat} {role role' : Role} {bus : BusField} {s : State} {k : Nat → Bus → Out} {r : Bus}
    (h : s.busIs bus role' r) (hr : role' ≠ role) : withBus site role bus s k = .next (s.refuse .wrongRole) := by
  simp [withBus, h.1, h.2, hr]

/-- What `withBus` can answer. -/
theorem withBus_cases (site : Nat) (role : Role) (bus : BusField) (s : State) (k : Nat → Bus → Out) :
    withBus site role bus s k = .next (s.raiseFatal site .invalidBus bus.toNat) ∨
    withBus site role bus s k = .next (s.refuse .wrongRole) ∨
    ∃ r, s.busIs bus role r ∧ withBus site role bus s k = k bus.toNat r := by
  cases h : s.buses[bus.toNat]? with
  | none => simp [withBus, h]
  | some r =>
    by_cases hr : roleOf s.cfg bus.toNat = role
    · exact .inr (.inr ⟨r, ⟨h, hr⟩, by simp [withBus, h, hr]⟩)
    · simp [withBus, h, hr]

theorem onBus_runs {s : State} {b : Nat} {r : Bus} {k : Nat → Bus → Out} (h : s.runsOn b r) : onBus s k = k b r := by
  simp [onBus, h.1, h.2]

/-- What `onBus` can answer. -/
theorem onBus_cases (s : State) (k : Nat → Bus → Out) :
    onBus s k = .fault .noBus ∨ ∃ b r, s.runsOn b r ∧ onBus s k = k b r := by
  cases h : s.actor.bus? with
  | none => simp [onBus, h]
  | some b =>
    cases h' : s.buses[b]? with
    | none => simp [onBus, h, h']
    | some r => exact .inr ⟨b, r, ⟨h, h'⟩, by simp [onBus, h, h']⟩

/-! ### Checks of a transfer -/

theorem withTransfer_unknown {site : Nat} {bus : BusField} {wl rl : Nat} {s : State} {k : Nat → Bus → Out}
    (h : s.buses.length ≤ bus.toNat) :
    withTransfer site bus wl rl s k = .next (s.raiseFatal site .invalidBus bus.toNat) := withBus_unknown h

theorem withTransfer_empty {site : Nat} {bus : BusField} {wl rl : Nat} {s : State} {k : Nat → Bus → Out} {r : Bus}
    (h : s.busIs bus .master r) (hw : wl = 0) (hr : rl = 0) :
    withTransfer site bus wl rl s k = .next (s.raiseFatal site .emptyTransfer bus.toNat) := by
  simp [withTransfer, withBus_known h, hw, hr]

theorem withTransfer_busy {site : Nat} {bus : BusField} {wl rl : Nat} {s : State} {k : Nat → Bus → Out} {r : Bus}
    (h : s.busIs bus .master r) (hl : 0 < wl + rl) (hb : r.busy = true) :
    withTransfer site bus wl rl s k = .next (s.raiseFatal site .busy bus.toNat) := by
  have : ¬(wl = 0 ∧ rl = 0) := by omega
  simp only [withTransfer, withBus_known h, if_neg this, if_pos hb]

theorem withTransfer_ok {site : Nat} {bus : BusField} {wl rl : Nat} {s : State} {k : Nat → Bus → Out} {r : Bus}
    (h : s.busIs bus .master r) (hl : 0 < wl + rl) (hb : r.busy = false) :
    withTransfer site bus wl rl s k = k bus.toNat r := by
  have : ¬(wl = 0 ∧ rl = 0) := by omega
  simp only [withTransfer, withBus_known h, if_neg this, hb, Bool.false_eq_true, if_false]

/-- What `withTransfer` can answer. -/
theorem withTransfer_cases (site : Nat) (bus : BusField) (wl rl : Nat) (s : State) (k : Nat → Bus → Out) :
    (∃ code info, withTransfer site bus wl rl s k = .next (s.raiseFatal site code info)) ∨
    withTransfer site bus wl rl s k = .next (s.refuse .wrongRole) ∨
    ∃ r, s.busIs bus .master r ∧ r.busy = false ∧ 0 < wl + rl ∧ withTransfer site bus wl rl s k = k bus.toNat r := by
  obtain h | h | ⟨r, hb, h⟩ := withBus_cases site .master bus s fun b r =>
    if wl = 0 ∧ rl = 0 then .next (s.raiseFatal site .emptyTransfer b)
    else if r.busy then .next (s.raiseFatal site .busy b)
    else k b r
  · exact .inl ⟨_, _, h⟩
  · exact .inr (.inl h)
  · by_cases hl : wl = 0 ∧ rl = 0
    · exact .inl ⟨_, _, withTransfer_empty hb hl.1 hl.2⟩
    · cases hy : r.busy with
      | true => exact .inl ⟨_, _, withTransfer_busy hb (by omega) hy⟩
      | false => exact .inr (.inr ⟨r, hb, hy, by omega, withTransfer_ok hb (by omega) hy⟩)

/-! ### Issuing a bus operation -/

theorem State.issue_ok {b : Nat} {r : Bus} {op : HwOp} {s : State} (h : canIssue s.cfg op r.wire) :
    s.issue b r op = (s.setBus b { r with inflight := some op.word }).record (.issued b op) := by
  have : (s.cfg.busSeqCheck && !legalIn op r.wire) = false := by
    cases hc : s.cfg.busSeqCheck with
    | false => rfl
    | true => simp [h hc]
  simp [State.issue, this]

theorem State.issue_illegal {b : Nat} {r : Bus} {op : HwOp} {s : State} (hc : s.cfg.busSeqCheck = true)
    (h : legalIn op r.wire = false) : s.issue b r op = (s.setBus b r).raiseFault 129 .busSequence := by
  simp [State.issue, hc, h]

/-- What `issue` can leave. -/
theorem State.issue_cases (b : Nat) (r : Bus) (op : HwOp) (s : State) :
    (canIssue s.cfg op r.wire ∧
      s.issue b r op = (s.setBus b { r with inflight := some op.word }).record (.issued b op)) ∨
    (s.cfg.busSeqCheck = true ∧ legalIn op r.wire = false ∧
      s.issue b r op = (s.setBus b r).raiseFault 129 .busSequence) := by
  by_cases h : canIssue s.cfg op r.wire
  · exact .inl ⟨h, State.issue_ok h⟩
  · simp only [canIssue, Classical.not_imp, Bool.not_eq_true] at h
    exact .inr ⟨h.1, h.2, State.issue_illegal h.1 h.2⟩

/-! ### Handing over buffers and launching a transfer -/

@[simp] theorem bufOf_none (n : Nat) : bufOf none n = [] := rfl
@[simp] theorem bufOf_zero (base : Option Ref) : bufOf base 0 = [] := by cases base <;> rfl
@[simp] theorem bufOf_succ (r : Ref) (n : Nat) : bufOf (some r) (n + 1) = [⟨r, n + 1⟩] := rfl

/-- An entry of ADMIT(CONT) is cut, never extended. -/
theorem spanOf_le (c : Cfg) (base : Ref) (len : Nat) : spanOf c base len ≤ len := by
  cases base <;> simp only [spanOf] <;> first | exact Nat.le_refl _ | (split <;> omega)

/-- A transfer launched where HW_START is in sequence: the seeded record holds every buffer handed over. -/
theorem State.launch_ok {b : Nat} {r : Bus} {a7 : Addr7} {wptr rptr : Option Ref} {wlen rlen : Nat} {rcb : CallbackId}
    {more : List Buf} {s : State} (h : canIssue s.cfg .start r.wire) :
    s.launch b r a7 wptr wlen rptr rlen rcb more =
      (s.setBus b
        { (r.seed s.cfg a7 wptr wlen rptr rlen rcb).register .proto (.record b)
            (more ++ bufOf wptr wlen ++ bufOf rptr rlen) with
          op := .none
          inflight := some HwOp.start.word }).record (.issued b .start) := by
  simp only [State.launch, State.start]
  rw [State.issue_ok (by exact h)]

theorem HwOp.ofWord_word (op : HwOp) : HwOp.ofWord op.word = some op := by
  cases op with
  | tx v => revert v; decide
  | ackbit k => cases k <;> rfl
  | _ => rfl

/-! ### Outcomes in sequence -/

theorem andThen_next {o : Out} {k : State → Out} {t : State} (h : andThen o k = .next t) :
    ∃ s, o = .next s ∧ ((s.halted = true ∧ t = s) ∨ (s.halted = false ∧ k s = .next t)) := by
  cases o with
  | next s =>
    refine ⟨s, rfl, ?_⟩
    cases hs : s.halted with
    | true => exact .inl ⟨rfl, by simpa [andThen, hs] using h.symm⟩
    | false => exact .inr ⟨rfl, by simpa [andThen, hs] using h⟩
  | fault e => simp [andThen] at h
  | refused e => simp [andThen] at h

theorem andThen_running {s : State} {k : State → Out} (h : s.halted = false) : andThen (.next s) k = k s := by
  simp [andThen, h]

theorem mapNext_next {f : State → State} {o : Out} {t : State} (h : mapNext f o = .next t) :
    ∃ s, o = .next s ∧ t = f s := by
  cases o with
  | next s => exact ⟨s, rfl, by simpa [mapNext] using h.symm⟩
  | fault e => simp [mapNext] at h
  | refused e => simp [mapNext] at h

@[simp] theorem upcall_nothing (u : Upcall) (s : State) : upcall u [] s = .next (s.record (.upcall u)) := rfl

/-! ### What leaves the halt fields and the draws alone -/

@[simp] theorem State.setBus_halted (b : Nat) (r : Bus) (s : State) : (s.setBus b r).halted = s.halted := rfl
@[simp] theorem State.record_halted (e : Event) (s : State) : (s.record e).halted = s.halted := rfl
@[simp] theorem State.stick_halted (a : Agent) (s : State) : (s.stick a).halted = s.halted := rfl
@[simp] theorem State.enter_halted (a : Agent) (s : State) : (s.enter a).halted = s.halted := rfl
@[simp] theorem State.leave_halted (s : State) : s.leave.halted = s.halted := rfl
@[simp] theorem State.popAnswer_halted (s : State) : s.popAnswer.halted = s.halted := by simp [State.halted]
@[simp] theorem State.popTurn_halted (s : State) : s.popTurn.halted = s.halted := by simp [State.halted]
@[simp] theorem State.modBus_halted (b : Nat) (g : Bus → Bus) (s : State) : (s.modBus b g).halted = s.halted := by
  simp [State.halted]
@[simp] theorem State.memWrite_halted (a : Ref) (v : Byte) (s : State) : (s.memWrite a v).halted = s.halted := by
  simp [State.halted]

@[simp] theorem State.popAnswer_answers (s : State) : s.popAnswer.answers = s.answers.tail := by
  unfold State.popAnswer; cases h : s.answers <;> simp

theorem State.popAnswer_drawn (s : State) :
    s.popAnswer.drawn = s.drawn + bif s.answers.isEmpty then 1 else 0 := by
  unfold State.popAnswer; cases h : s.answers <;> simp

@[simp] theorem State.popTurn_agenda (s : State) : s.popTurn.agenda = s.agenda.tail := by
  unfold State.popTurn; cases h : s.agenda <;> simp

theorem State.popAnswer_setBus (b : Nat) (r : Bus) (s : State) : (s.setBus b r).popAnswer = s.popAnswer.setBus b r := by
  unfold State.popAnswer; cases h : s.answers <;> simp [State.setBus, h]

theorem State.popAnswer_record (e : Event) (s : State) : (s.record e).popAnswer = s.popAnswer.record e := by
  unfold State.popAnswer; cases h : s.answers <;> simp [State.record, h]

@[simp] theorem State.popAnswer_enter (a : Agent) (s : State) : (s.enter a).popAnswer = s.popAnswer.enter a := by
  unfold State.popAnswer; cases h : s.answers <;> simp [State.enter, h]

/-! ### The master completion interrupt -/

/-- The interrupt is taken: MIF is cleared and the handler runs. -/
theorem mengStep_taken {b : Nat} {r : Bus} {s : State} (hb : s.buses[b]? = some r) (hm : r.mif = true) :
    mengStep b s = mengHandler b { r with mif := false } (s.setBus b { r with mif := false }) := by
  simp [mengStep, hb, hm]

/-- A live transaction whose last primitive was no READ: the continuation is called with `nack_observed`. -/
theorem mengStep_live {b : Nat} {r : Bus} {s : State} (hb : s.buses[b]? = some r) (hm : r.mif = true) (hy : r.busy = true)
    (ho : r.op ≠ .read) :
    mengStep b s = callContinuation b (nackObserved r s.answer.bit) s.answer
      (s.popAnswer.setBus b { r with mif := false }) := by
  rw [mengStep_taken hb hm]
  simp [mengHandler, hy, ho, resumeTransaction, nackObserved, State.popAnswer_setBus]

/-- After a READ the latch comes first. -/
theorem mengStep_read {b : Nat} {r : Bus} {s : State} (hb : s.buses[b]? = some r) (hm : r.mif = true) (hy : r.busy = true)
    (ho : r.op = .read) :
    mengStep b s = latchRead b { r with mif := false } (s.setBus b { r with mif := false }) := by
  rw [mengStep_taken hb hm]
  simp [mengHandler, hy, ho]

theorem State.popAnswer_memWrite (a : Ref) (v : Byte) (s : State) : (s.memWrite a v).popAnswer = s.popAnswer.memWrite a v := by
  have h (t : State) : t.popAnswer = { t with
      answers := t.answers.tail, drawn := t.drawn + bif t.answers.isEmpty then 1 else 0 } := by
    unfold State.popAnswer; cases h : t.answers <;> simp
  cases a with
  | mem x => rw [h, h s]; simp [State.memWrite, State.setByteAt, State.record]
  | addrByte b =>
    rw [h, h s]
    simp only [State.memWrite, State.setByteAt, State.record, State.modBus]
    split <;> simp [State.setBus]
  | rcell b i =>
    rw [h, h s]
    simp only [State.memWrite, State.setByteAt, State.record, State.modBus]
    split <;> (try split) <;> simp [State.setBus]
  | wcell b i =>
    rw [h, h s]
    simp only [State.memWrite, State.setByteAt, State.record, State.modBus]
    split <;> simp [State.setBus]

theorem latchRead_admitted {b : Nat} {r : Bus} {s : State} {a : Ref} (hd : r.rdest = some a)
    (ha : admitted s.cfg b r a = true) : latchRead b r s = resumeTransaction b r (s.memWrite a r.rxbuf) := by
  simp [latchRead, hd, ha]

theorem latchRead_stuck {b : Nat} {r : Bus} {s : State} {a : Ref} (hd : r.rdest = some a)
    (ha : admitted s.cfg b r a = false) : latchRead b r s = .next (s.stick (.meng b)) := by
  simp [latchRead, hd, ha]

/-- After a READ whose destination is admitted, the byte is latched first. -/
theorem mengStep_latch {b : Nat} {r : Bus} {s : State} {a : Ref} (hb : s.buses[b]? = some r) (hm : r.mif = true)
    (hy : r.busy = true) (ho : r.op = .read) (hd : r.rdest = some a) (ha : admitted s.cfg b r a = true) :
    mengStep b s = callContinuation b s.answer.bit s.answer
      ((s.popAnswer.setBus b { r with mif := false }).memWrite a r.rxbuf) := by
  rw [mengStep_read hb hm hy ho,
    latchRead_admitted (r := { r with mif := false }) (s := s.setBus b { r with mif := false }) hd ha]
  have h1 : ((s.setBus b { r with mif := false }).memWrite a r.rxbuf).answer = s.answer :=
    State.answer_congr (by simp) (by simp)
  have h2 : nackObserved { r with mif := false } s.answer.bit = s.answer.bit := if_neg (by simp [ho])
  simp only [resumeTransaction, h1, h2, State.popAnswer_memWrite, State.popAnswer_setBus]

/-- After a READ whose destination is not admitted, MENG(b) is stuck and MIF stays cleared. -/
theorem mengStep_latch_stuck {b : Nat} {r : Bus} {s : State} {a : Ref} (hb : s.buses[b]? = some r) (hm : r.mif = true)
    (hy : r.busy = true) (ho : r.op = .read) (hd : r.rdest = some a) (ha : admitted s.cfg b r a = false) :
    mengStep b s = .next ((s.setBus b { r with mif := false }).stick (.meng b)) := by
  rw [mengStep_read hb hm hy ho]
  exact latchRead_stuck (r := { r with mif := false }) (s := s.setBus b { r with mif := false }) hd ha

/-! ### A handler's turn -/

theorem handlerTurn_stuck {a : Agent} {f : State → Out} {s : State} (h : a ∈ s.stuck) : handlerTurn a f s = .next s := by
  simp [handlerTurn, h]

/-- A handler that is not stuck, and whose step is taken. -/
theorem handlerTurn_taken {a : Agent} {f : State → Out} {s : State} (h : a ∉ s.stuck)
    (hf : f (s.enter a) ≠ .fault .stuckBlockingCall) : handlerTurn a f s = f (s.enter a) := by
  unfold handlerTurn
  rw [if_neg h]
  split
  · next he => exact absurd he hf
  · rfl

/-- The handler's step is not taken: nothing is written, and the handler is stuck. -/
theorem handlerTurn_notTaken {a : Agent} {f : State → Out} {s : State} (h : a ∉ s.stuck)
    (hf : f (s.enter a) = .fault .stuckBlockingCall) : handlerTurn a f s = .next (s.stick a) := by
  simp [handlerTurn, h, hf]

/-- Everything a handler's turn that answers a next state can have done. -/
theorem handlerTurn_next {a : Agent} {f : State → Out} {s t : State} (h : handlerTurn a f s = .next t) :
    (a ∈ s.stuck ∧ t = s) ∨ (a ∉ s.stuck ∧ (f (s.enter a) = .next t ∨
      f (s.enter a) = .fault .stuckBlockingCall ∧ t = s.stick a)) := by
  unfold handlerTurn at h
  split at h
  · next hs => exact .inl ⟨hs, (Host.Outcome.next.inj h).symm⟩
  · next hs =>
    refine .inr ⟨hs, ?_⟩
    split at h
    · next he => exact .inr ⟨he, (Host.Outcome.next.inj h).symm⟩
    · exact .inl h

theorem callContinuation_proto {b : Nat} {r : Bus} {s : State} (nack : Bool) (d : Answer) (hb : s.buses[b]? = some r)
    (hc : r.cont = some .proto) (hu : r.udata.isSome = true) : callContinuation b nack d s = runProto b nack r s := by
  obtain ⟨u, hu⟩ := Option.isSome_iff_exists.mp hu
  simp [callContinuation, hb, hc, hu]

/-- A custom continuation that only returns its result. -/
theorem callContinuation_custom {b n : Nat} {r : Bus} {s : State} {ud : UData} (nack : Bool) (d : Answer)
    (hh : s.halted = false) (hb : s.buses[b]? = some r) (hc : r.cont = some (.custom n)) (hu : r.udata = some ud)
    (ha : d.acts = []) : callContinuation b nack d s =
      dispatch d.prim (takeRef s.cfg.limits d.ref)
        (s.record (.upcall (.continuation n b ud nack d.prim (takeRef s.cfg.limits d.ref)))) := by
  simp [callContinuation, hb, hc, hu, ha, andThen, hh]

theorem dispatch_decoded {p : BitVec 4} {ref : Option Ref} {i : Instr} (s : State)
    (h : decodePrim s.cfg.limits p ref = some i) :
    dispatch p ref s = exec i s := by simp [dispatch, h]

theorem runProto_ret {b : Nat} {nack : Bool} {r r' : Bus} {p : PrimTag} {ref : Option Ref} {s : State}
    (h : protoRow s.cfg b nack r = .ret p ref r') : runProto b nack r s = dispatch p.code ref (s.setBus b r') := by
  simp [runProto, h]

end Sys2Proof.Machine
end

