-- ==== Sys2Proof/Laws/PerInstr.lean ====
section
/-! SUPPORT. Statements for all instructions, one lemma a constructor: the word of an instruction lies in its own row of
spec/opcode_table.json. -/

namespace Sys2Proof.Laws.TableRow

/-- A row's `match` and `mask`. -/
structure Row where
  pattern : BitVec 16
  mask    : BitVec 16
  deriving DecidableEq, Repr

/-- The row of an instruction, copied from the table. -/
def row : Instr → Row
  | .mStart _ _ _ => ⟨0x1000, 0xF0FF⟩
  | .mIsBusy _ => ⟨0x2000, 0xF0FF⟩
  | .mReset _ => ⟨0x3000, 0xF0FF⟩
  | .tAsync _ _ _ _ _ _ _ => ⟨0x4000, 0xF080⟩
  | .tBlock _ _ _ _ _ _ => ⟨0x5000, 0xF080⟩
  | .readReg _ _ _ _ _ => ⟨0x6000, 0xF080⟩
  | .writeReg _ _ _ _ _ => ⟨0x7000, 0xF080⟩
  | .sInit _ _ _ _ _ _ _ => ⟨0x8000, 0xF080⟩
  | .sDisable _ => ⟨0x9000, 0xF0FF⟩
  | .sForceIdle _ => ⟨0xA000, 0xF0FF⟩
  | .primNone => ⟨0, 0xF⟩
  | .read _ => ⟨1, 0xF⟩
  | .write _ => ⟨2, 0xF⟩
  | .restart => ⟨3, 0xF⟩
  | .ack => ⟨4, 0xF⟩
  | .nack => ⟨5, 0xF⟩
  | .stop => ⟨6, 0xF⟩
  | .done => ⟨7, 0xF⟩
  | .quit => ⟨8, 0xF⟩
  | .hwStart => ⟨0x000, 0x7FF⟩
  | .hwRestart => ⟨0x100, 0x7FF⟩
  | .hwStop => ⟨0x200, 0x7FF⟩
  | .hwTx _ => ⟨0x300, 0x700⟩
  | .hwRxen => ⟨0x400, 0x7FF⟩
  | .hwAckbit _ => ⟨0x500, 0x7FE⟩

/-- An instruction's word. -/
def word : Code → BitVec 16
  | .cmd c => c.header
  | .prim p _ => p.setWidth 16
  | .hw w => w.setWidth 16

/-- The instruction's word has its row's fixed bits. -/
def Statement (i : Instr) : Prop := word (encode i) &&& (row i).mask = (row i).pattern

theorem header_noA7 (k : Cmd) (bus : BusField) : headerOf k bus 0 &&& 0xF0FF#16 = k.opc ++ 0#12 := by
  revert bus
  cases k <;> decide

theorem header_a7 (k : Cmd) (bus : BusField) (a7 : Addr7) : headerOf k bus a7 &&& 0xF080#16 = k.opc ++ 0#12 := by
  apply BitVec.eq_of_getLsbD_eq
  intro i hi
  unfold headerOf
  interval_cases i <;> simp only [BitVec.getLsbD_and, BitVec.getLsbD_append] <;> simp

theorem mStart (bus : BusField) (c : ContId) (u : UData) : Statement (.mStart bus c u) := header_noA7 .mStart bus
theorem mIsBusy (bus : BusField) : Statement (.mIsBusy bus) := header_noA7 .mIsBusy bus
theorem mReset (bus : BusField) : Statement (.mReset bus) := header_noA7 .mReset bus
theorem tAsync (bus : BusField) (a7 : Addr7) (wb : Option Nat) (wl : Nat) (rb : Option Nat) (rl cb : Nat) :
    Statement (.tAsync bus a7 wb wl rb rl cb) := header_a7 .tAsync bus a7
theorem tBlock (bus : BusField) (a7 : Addr7) (wb : Option Nat) (wl : Nat) (rb : Option Nat) (rl : Nat) :
    Statement (.tBlock bus a7 wb wl rb rl) := header_a7 .tBlock bus a7
theorem readReg (bus : BusField) (a7 : Addr7) (rg : Byte) (ob : Option Nat) (n : Nat) :
    Statement (.readReg bus a7 rg ob n) := header_a7 .readReg bus a7
theorem writeReg (bus : BusField) (a7 : Addr7) (rg : Byte) (ib : Option Nat) (n : Nat) :
    Statement (.writeReg bus a7 rg ib n) := header_a7 .writeReg bus a7
theorem sInit (bus : BusField) (a7 : Addr7) (f t bf bt : Nat) (p : Int) : Statement (.sInit bus a7 f t bf bt p) :=
  header_a7 .sInit bus a7
theorem sDisable (bus : BusField) : Statement (.sDisable bus) := header_noA7 .sDisable bus
theorem sForceIdle (bus : BusField) : Statement (.sForceIdle bus) := header_noA7 .sForceIdle bus
theorem primNone : Statement .primNone := by unfold Statement; decide
theorem read (ref : Option Ref) : Statement (.read ref) := by
  show (1#4).setWidth 16 &&& 0xF#16 = 1#16
  decide
theorem write (ref : Option Ref) : Statement (.write ref) := by
  show (2#4).setWidth 16 &&& 0xF#16 = 2#16
  decide
theorem restart : Statement .restart := by unfold Statement; decide
theorem ack : Statement .ack := by unfold Statement; decide
theorem nack : Statement .nack := by unfold Statement; decide
theorem stop : Statement .stop := by unfold Statement; decide
theorem done : Statement .done := by unfold Statement; decide
theorem quit : Statement .quit := by unfold Statement; decide
theorem hwStart : Statement .hwStart := by unfold Statement; decide
theorem hwRestart : Statement .hwRestart := by unfold Statement; decide
theorem hwStop : Statement .hwStop := by unfold Statement; decide
theorem hwTx (v : Byte) : Statement (.hwTx v) := by
  show ((3#3 ++ v).setWidth 16 : BitVec 16) &&& 0x700#16 = 0x300#16
  apply BitVec.eq_of_getLsbD_eq
  intro i hi
  interval_cases i <;> simp only [BitVec.getLsbD_and, BitVec.getLsbD_setWidth, BitVec.getLsbD_append] <;> simp
theorem hwRxen : Statement .hwRxen := by unfold Statement; decide
theorem hwAckbit (k : Bool) : Statement (.hwAckbit k) := by unfold Statement; cases k <;> decide

end Sys2Proof.Laws.TableRow
end

