-- ==== Sys2Proof/Tests/Slice0.lean ====
section
/-! SUPPORT. The model's own tests. Expected results are the spec's: 95_test_vectors.md V-ENC, V-HOP, V-ADDR, V-PRIM, V-ENG,
V-PROTO, V-API, V-SLV and V-RST, and the words of spec/opcode_table.json. After them, for every obligation with hypotheses, a
witness that meets them together. -/

namespace Sys2Proof.Tests

open Sys2Proof Sys2Proof.Machine

/-! ### Small states -/

/-- The vectors' configuration: two buses, 0 a master and 1 a slave, LEN_MAX 4, one admitted cell for continuation 0. -/
def cfg : Cfg :=
  { Cfg.default with nbus := 2, lenMax := 4, roles := [.master, .slave], admits := [⟨0, .mem 0x3000, 1⟩] }

/-- An idle bus whose reset draws are settled. -/
def idleBus : Bus :=
  { Bus.reset 0 with ackstat := false, rxbuf := 0, slDa := false, slRw := false, slRx := 0, slTx := 0 }

/-- A bus in the middle of a transfer of PROTO, its completion interrupt pending. -/
def liveBus : Bus :=
  { idleBus with
    busy := true, cont := some .proto, udata := some (.record 0), mif := true, op := .write, wire := .mt
    pstate := .writeInProgress, addr := some 0x6E, wptr := some (.mem 0x1000), rptr := some (.mem 0x2000), rcb := some (.user 7)
    handed := [⟨.mem 0x1000, 4⟩, ⟨.mem 0x2000, 4⟩] }

/-- A bus whose custom continuation 0 is due, with one admitted cell. -/
def customBus : Bus := { liveBus with cont := some (.custom 0), udata := some (.val 0), handed := [⟨.mem 0x3000, 1⟩] }

/-- An enabled slave at address 0x10 with its four callbacks. -/
def slaveBus : Bus :=
  { idleBus with
    senabled := true, saddr := some 0x10, sprio := some 3
    cbMsgFrom := some 1, cbMsgTo := some 2, cbByteFrom := some 3, cbByteTo := some 4 }

/-- The same with its interrupt pending and the clock held. -/
def slaveDue : Bus := { slaveBus with sif := true, sclhold := true }

/-- A machine of two buses. -/
def two (r0 r1 : Bus) : State := { State.resetWith cfg with buses := [r0, r1] }

/-- The machine in which bus 0 runs MENG's or BUS's step. -/
def onMeng (r : Bus) : State := { two r slaveBus with actor := .meng 0 }
def onWire (r : Bus) : State := { two r slaveBus with actor := .bus 0 }

/-- The next state, if there is one. -/
def nextOf (o : Out) : Option State :=
  match o with
  | .next s => some s
  | .fault _ => none
  | .refused _ => none

/-- The fault, if there is one. -/
def faultOf (o : Out) : Option Fault :=
  match o with
  | .next _ => none
  | .fault e => some e
  | .refused _ => none

/-- A field of bus `b` in the next state. -/
def busAfter {α : Type} (o : Out) (b : Nat) (f : Bus → α) : Option α :=
  (nextOf o).bind fun s => (s.buses[b]?).map f

/-! ### Decoding the words of the spec (V-ENC, V-HOP, R80) -/

def tRec : OpRecord := { wbase := some 0x1000, wlen := some 1, rbase := some 0x2000, rlen := some 2, onDone := some 7 }

def sRec : OpRecord :=
  { cbMsgFrom := some 1, cbMsgTo := some 2, cbByteFrom := some 3, cbByteTo := some 4, prio := some (-1) }

theorem test_word_mStart : decodeCmd ⟨4, 32⟩ ⟨0x1000#16, { cont := some (.custom 0), udata := some (.val 9) }⟩
    = .ok (.mStart 0 (.custom 0) (.val 9)) := by decide
theorem test_word_mIsBusy : decodeCmd ⟨4, 32⟩ ⟨0x2000#16, {}⟩ = .ok (.mIsBusy 0) := by decide
theorem test_word_mIsBusy_15 : decodeCmd ⟨4, 32⟩ ⟨0x2F00#16, {}⟩ = .ok (.mIsBusy 15) := by decide
theorem test_word_mReset : decodeCmd ⟨4, 32⟩ ⟨0x3000#16, {}⟩ = .ok (.mReset 0) := by decide
theorem test_word_tAsync : decodeCmd ⟨4, 32⟩ ⟨0x406E#16, tRec⟩
    = .ok (.tAsync 0 0x6E (some 0x1000) 1 (some 0x2000) 2 7) := by decide
theorem test_word_tBlock : decodeCmd ⟨4, 32⟩ ⟨0x506E#16, tRec⟩
    = .ok (.tBlock 0 0x6E (some 0x1000) 1 (some 0x2000) 2) := by decide
theorem test_word_readReg : decodeCmd ⟨4, 32⟩ ⟨0x606E#16, { reg := some 0, obase := some 0x2000, n := some 2 }⟩
    = .ok (.readReg 0 0x6E 0 (some 0x2000) 2) := by decide
theorem test_word_writeReg : decodeCmd ⟨4, 32⟩ ⟨0x7048#16, { reg := some 4, ibase := some 0x1000, n := some 1 }⟩
    = .ok (.writeReg 0 0x48 4 (some 0x1000) 1) := by decide
theorem test_word_sInit : decodeCmd ⟨4, 32⟩ ⟨0x8110#16, sRec⟩
    = .ok (.sInit 1 0x10 1 2 3 4 (-1)) := by decide
theorem test_word_sDisable : decodeCmd ⟨4, 32⟩ ⟨0x9100#16, {}⟩ = .ok (.sDisable 1) := by decide
theorem test_word_sForceIdle : decodeCmd ⟨4, 32⟩ ⟨0xA100#16, {}⟩ = .ok (.sForceIdle 1) := by decide

theorem test_refused_a : decodeCmd ⟨4, 32⟩ ⟨0x0000#16, tRec⟩ = .error .reservedOpcode := by decide
theorem test_refused_a_high : decodeCmd ⟨4, 32⟩ ⟨0xF000#16, tRec⟩ = .error .reservedOpcode := by decide
theorem test_refused_b : decodeCmd ⟨4, 32⟩ ⟨0x40EE#16, tRec⟩ = .error .reservedBit := by decide
theorem test_refused_b_before_bus : decodeCmd ⟨4, 32⟩ ⟨0x4F80#16, tRec⟩ = .error .reservedBit := by decide
theorem test_refused_c : decodeCmd ⟨4, 32⟩ ⟨0x2001#16, {}⟩ = .error .addressNotTaken := by decide
theorem test_refused_d : decodeCmd ⟨4, 32⟩ ⟨0x7048#16, { reg := some 4, ibase := some 0x1000, n := some 4 }⟩
    = .error .lengthTooLong := by decide
theorem test_refused_e : decodeCmd ⟨4, 32⟩ ⟨0x406E#16, { tRec with onDone := none }⟩ = .error .badOperand := by decide

/-- A base given beside length 0 is ⊥ in the instruction (R89; log 19). -/
theorem test_base_beside_length_zero : decodeCmd ⟨4, 32⟩ ⟨0x406E#16, { tRec with wlen := some 0 }⟩
    = .ok (.tAsync 0 0x6E none 0 (some 0x2000) 2 7) := by decide

/-- REF has HOST_ADDR_BITS bits (R81; log 34). -/
theorem test_reference_width : decodePrim ⟨4, 32⟩ 1#4 (some (.mem 0x100002000)) = some (.read (some (.mem 0x2000))) := by
  decide

theorem test_prims : (List.range 10).map (fun n => decodePrim ⟨4, 32⟩ (BitVec.ofNat 4 n) none)
    = [some .primNone, some (.read none), some (.write none), some .restart, some .ack, some .nack, some .stop, some .done,
       some .quit, none] := by decide

theorem test_hw_words : [0x000#11, 0x100#11, 0x200#11, 0x3DC#11, 0x300#11, 0x400#11, 0x500#11, 0x501#11].map decodeHw
    = [some .hwStart, some .hwRestart, some .hwStop, some (.hwTx 0xDC), some (.hwTx 0), some .hwRxen, some (.hwAckbit false),
       some (.hwAckbit true)] := by decide

theorem test_hw_reserved : [0x600#11, 0x7FF#11, 0x001#11, 0x502#11].map decodeHw = [none, none, none, none] := by decide

/-! ### The opcode table's rows: decoded, and run as the first instruction after reset -/

theorem test_table_commands : [0x1000, 0x2000, 0x3000, 0x4000, 0x5000, 0x6000, 0x7000, 0x8000, 0x9000, 0xA000].map
      (fun w => (decodeTableWord 16 w).map Instr.mnemonic)
    = ["M_START", "M_IS_BUSY", "M_RESET", "T_ASYNC", "T_BLOCK", "READ_REG", "WRITE_REG", "S_INIT", "S_DISABLE",
       "S_FORCE_IDLE"].map some := by decide

theorem test_table_primitives : (List.range 9).map (fun w => (decodeTableWord 8 w).map Instr.mnemonic)
    = ["NONE", "READ", "WRITE", "RESTART", "ACK", "NACK", "STOP", "DONE", "QUIT"].map some := by decide

theorem test_table_bus_operations : [0x000, 0x100, 0x200, 0x300, 0x400, 0x500].map
      (fun w => (decodeTableWord 16 w).map Instr.mnemonic)
    = ["HW_START", "HW_RESTART", "HW_STOP", "HW_TX", "HW_RXEN", "HW_ACKBIT"].map some := by decide

/-- Every row runs as the first instruction after reset: the step answers a next state. -/
theorem test_step_runs_commands : [0x1000, 0x2000, 0x3000, 0x4000, 0x5000, 0x6000, 0x7000, 0x8000, 0x9000, 0xA000, 0x000, 0x100,
    0x200, 0x300, 0x400, 0x500].all (fun w => (nextOf (step (State.reset.withFetchWord 16 w))).isSome) = true := by decide

theorem test_step_runs_primitives :
    (List.range 9).all (fun w => (nextOf (step (State.reset.withFetchWord 8 w))).isSome) = true := by decide

theorem test_step_runs_mStart : busAfter (step (State.reset.withFetchWord 16 0x1000)) 0 (fun r => (r.busy, r.inflight))
    = some (true, some 0x000#11) := by decide

theorem test_step_runs_sInit : busAfter (step (State.reset.withFetchWord 16 0x8310)) 3 (fun r => (r.senabled, r.saddr))
    = some (true, some 0x10#7) := by decide

theorem test_step_runs_done : busAfter (step (State.reset.withFetchWord 8 7)) 0 (fun r => (r.busy, r.op))
    = some (false, .done) := by decide

theorem test_step_runs_hwTx : busAfter (step (State.reset.withFetchWord 16 0x3DC)) 0 (fun r => (r.mif, r.inflight))
    = some (true, none) := by decide

/-! ### Well-formedness: each check refuses its ill-formed term -/

theorem test_wf_ok : Instr.wellFormed ⟨4, 32⟩ (.tAsync 0 0x6E (some 0xFFFFFFFF) 4 none 0 7) = true := by decide
theorem test_ill_wlen : Instr.wellFormed ⟨4, 32⟩ (.tAsync 0 0x6E (some 0) 5 none 0 7) = false := by decide
theorem test_ill_rlen : Instr.wellFormed ⟨4, 32⟩ (.tAsync 0 0x6E (some 0) 1 (some 0) 5 7) = false := by decide
theorem test_ill_wbase_missing : Instr.wellFormed ⟨4, 32⟩ (.tBlock 0 0x6E none 1 none 0) = false := by decide
theorem test_ill_rbase_wide : Instr.wellFormed ⟨4, 32⟩ (.tBlock 0 0x6E none 0 (some 0x100000000) 1) = false := by decide
theorem test_ill_tBlock_wlen : Instr.wellFormed ⟨4, 32⟩ (.tBlock 0 0x6E (some 0) 5 none 0) = false := by decide
theorem test_ill_tBlock_rlen : Instr.wellFormed ⟨4, 32⟩ (.tBlock 0 0x6E none 0 (some 0) 5) = false := by decide
theorem test_ill_tAsync_base : Instr.wellFormed ⟨4, 32⟩ (.tAsync 0 0x6E none 1 none 0 7) = false := by decide
theorem test_ill_tAsync_rbase : Instr.wellFormed ⟨4, 32⟩ (.tAsync 0 0x6E none 0 none 1 7) = false := by decide
theorem test_ill_readReg_n : Instr.wellFormed ⟨4, 32⟩ (.readReg 0 0x6E 0 (some 0) 5) = false := by decide
theorem test_ill_readReg_base : Instr.wellFormed ⟨4, 32⟩ (.readReg 0 0x6E 0 none 1) = false := by decide
theorem test_ill_writeReg_n : Instr.wellFormed ⟨4, 32⟩ (.writeReg 0 0x6E 0 (some 0) 4) = false := by decide
theorem test_ill_writeReg_base : Instr.wellFormed ⟨4, 32⟩ (.writeReg 0 0x6E 0 none 1) = false := by decide

theorem test_ill_tBlock_base_beside_zero : Instr.wellFormed ⟨4, 32⟩ (.tBlock 0 0x6E (some 0x1000) 0 (some 0) 1) = false := by
  decide
theorem test_ill_read_ref : Instr.wellFormed ⟨4, 32⟩ (.read (some (.mem 0x100000000))) = false := by decide
theorem test_ill_write_ref : Instr.wellFormed ⟨4, 32⟩ (.write (some (.mem 0x100000000))) = false := by decide

/-! ### The address byte (V-ADDR) -/

theorem test_address_byte : [addressByte 0x6E false, addressByte 0x6E true, addressByte 0x00 true, addressByte 0x7F true,
    addressByte 0x48 false, addressByte 0x10 true] = [0xDC, 0xDD, 0x01, 0xFF, 0x90, 0x21] := by decide

/-! ### Host commands (V-ENG, V-API, V-SLV, V-RST) -/

theorem test_mStart_busy : (nextOf (exec (.mStart 0 (.custom 0) (.val 9)) (two liveBus slaveBus))).map
    (fun s => (s.sysFatal, (s.buses[0]?).map fun r => r.cont)) = some (some (.busy, 0), some (some .proto)) := by decide
theorem test_mStart_unknown_bus : (nextOf (exec (.mStart 5 (.custom 0) (.val 9)) (two idleBus slaveBus))).map
    (fun s => s.sysFatal) = some (some (.invalidBus, 5)) := by decide
theorem test_mIsBusy_parked : (nextOf (exec (.mIsBusy 0) (two { customBus with mif := false, op := .quit } slaveBus))).map
    (fun s => s.ret) = some (some true) := by decide
theorem test_mIsBusy_reset : (nextOf (exec (.mIsBusy 0) (two idleBus slaveBus))).map (fun s => s.ret)
    = some (some false) := by decide
theorem test_mReset_parked : busAfter (exec (.mReset 0) (two { customBus with mif := false, op := .quit } slaveBus)) 0
    (fun r => (r.busy, r.cont, r.op)) = some (false, none, .quit) := by decide
theorem test_mReset_in_flight : (nextOf (exec (.mReset 0) (two { idleBus with inflight := some 0x300#11 } slaveBus))).map
    (fun s => s.sysFault) = some (some .resetInFlight) := by decide
theorem test_tAsync_empty_before_busy : (nextOf (exec (.tAsync 0 0x6E none 0 none 0 7) (two liveBus slaveBus))).map
    (fun s => s.sysFatal) = some (some (.emptyTransfer, 0)) := by decide
theorem test_tAsync_starts : busAfter (exec (.tAsync 0 0x6E (some 0x1000) 1 (some 0x2000) 2 7) (two idleBus slaveBus)) 0
    (fun r => (r.pstate, r.wrem, r.rrem, r.busy, r.inflight)) = some (.startDone, 1, 2, true, some 0#11) := by decide
theorem test_tBlock_polls : (nextOf (exec (.tBlock 0 0x6E none 0 (some 0x2000) 1) (two idleBus slaveBus))).map
    (fun s => s.hostCall) = some (some 0) := by decide
theorem test_tBlock_in_callback : faultOf (exec (.tBlock 0 0x6E none 0 (some 0x2000) 1) (onMeng liveBus))
    = some .stuckBlockingCall := by decide
theorem test_readReg_cell : busAfter (exec (.readReg 0 0x6E 0x00 (some 0x2000) 2) (two idleBus slaveBus)) 0
    (fun r => (r.rcell, r.wptr, r.wrem, r.rrem)) = some (some 0, some (.rcell 0 0), 1, 2) := by decide
theorem test_readReg_no_data : busAfter (exec (.readReg 0 0x6E 0x00 none 0) (two idleBus slaveBus)) 0
    (fun r => (r.wrem, r.rrem)) = some (1, 0) := by decide
theorem test_writeReg_cells : busAfter (exec (.writeReg 0 0x48 4 (some 0x1000) 1)
      { two idleBus slaveBus with mem := [(0x1000, 0x60)] }) 0
    (fun r => (r.wcell, r.wrem)) = some ([some 0x04, some 0x60], 2) := by decide
/-- Both the buffer the record names and WCELL are handed over (R62). -/
theorem test_writeReg_handed : busAfter (exec (.writeReg 0 0x48 4 (some 0x1000) 1) (two idleBus slaveBus)) 0
    (fun r => r.handed) = some [⟨.mem 0x1000, 1⟩, ⟨.wcell 0 0, 2⟩] := by decide
theorem test_writeReg_wraps : busAfter (exec (.writeReg 0 0x48 4 (some 0xFFFFFFFF) 2)
      { two idleBus slaveBus with mem := [(0, 0x61), (0xFFFFFFFF, 0x60)] }) 0
    (fun r => r.wcell) = some [some 0x04, some 0x60, some 0x61] := by decide
theorem test_sInit_priority : (nextOf (exec (.sInit 1 0x10 1 2 3 4 8) (two idleBus slaveBus))).map (fun s => s.sysFatal)
    = some (some (.invalidPriority, 8)) := by decide
theorem test_sInit_enables : busAfter (exec (.sInit 1 0x10 1 2 3 4 3) (two idleBus idleBus)) 1
    (fun r => (r.senabled, r.saddr, r.sprio, r.cbByteTo)) = some (true, some 0x10, some 3, some 4) := by decide
theorem test_sDisable : busAfter (exec (.sDisable 1) (two idleBus { slaveDue with sstate := .toMaster })) 1
    (fun r => (r.senabled, r.sstate, r.sif, r.sclhold)) = some (false, .idle, false, false) := by decide
theorem test_sForceIdle : busAfter (exec (.sForceIdle 1) (two idleBus { slaveDue with sstate := .toMaster })) 1
    (fun r => (r.senabled, r.sstate, r.sif, r.sclhold)) = some (true, .idle, true, true) := by decide
theorem test_wrong_role : (nextOf (exec (.sDisable 0) (two idleBus slaveBus))).map (fun s => s.sysRefused)
    = some true := by decide

/-! ### Primitives (V-PRIM) -/

theorem test_none_is_fatal : (nextOf (exec .primNone (onMeng customBus))).map
    (fun s => (s.sysFatal, (s.buses[0]?).map fun r => r.op)) = some (some (.badPrimitive, 0), some .write) := by decide
theorem test_code_fifteen : (nextOf (dispatch 15 none (onMeng customBus))).map (fun s => s.sysFatal)
    = some (some (.badPrimitive, 15)) := by decide
theorem test_read : busAfter (exec (.read (some (.mem 0x2000))) (onMeng { customBus with wire := .mr })) 0
    (fun r => (r.rdest, r.inflight, r.op)) = some (some (.mem 0x2000), some 0x400#11, .read) := by decide
theorem test_write : busAfter (exec (.write (some (.mem 0x3000))) { onMeng customBus with mem := [(0x3000, 0x90)] }) 0
    (fun r => (r.inflight, r.op)) = some (some 0x390#11, .write) := by decide
/-- The handler is stuck (V-PRIM), and the write of OP before that point remains (60 R251). -/
theorem test_write_not_admitted : (nextOf (exec (.write (some (.mem 0x3001)))
      (onMeng { customBus with op := .ack }))).map
    (fun s => (s.stuck, (s.buses[0]?).map fun r => (r.op, r.inflight))) = some ([.meng 0], some (.write, none)) := by decide
/-- A custom continuation 0 whose ADMIT (R62) names RCELL of bus 0 (two addresses, of which one exists) and ADDRBYTE of bus 1. -/
def cellAdmits : Cfg := { cfg with admits := [⟨0, .rcell 0 0, 2⟩, ⟨0, .addrByte 1, 1⟩] }
def cellBus : Bus := { customBus with rcell := some 0x5A, handed := admitOf cellAdmits (.custom 0) }
theorem test_write_admitted_cell : busAfter (exec (.write (some (.rcell 0 0))) (onMeng cellBus)) 0 (fun r => r.inflight)
    = some (some 0x35A#11) := by decide
theorem test_admitted_cells : [Ref.rcell 0 0, .rcell 0 1, .addrByte 1, .wcell 0 0].map (admitted cellAdmits 0 cellBus)
    = [true, false, true, false] := by decide
theorem test_restart : busAfter (exec .restart (onMeng { customBus with wire := .peerNacked })) 0 (fun r => r.inflight)
    = some (some 0x100#11) := by decide
theorem test_ack : busAfter (exec .ack (onMeng { customBus with wire := .mrData })) 0 (fun r => r.inflight)
    = some (some 0x500#11) := by decide
theorem test_ack_out_of_sequence : (nextOf (exec .ack (onMeng customBus))).map (fun s => s.sysFault)
    = some (some .busSequence) := by decide
theorem test_nack : busAfter (exec .nack (onMeng { customBus with wire := .mrData })) 0 (fun r => r.inflight)
    = some (some 0x501#11) := by decide
theorem test_stop : busAfter (exec .stop (onMeng customBus)) 0 (fun r => (r.inflight, r.busy))
    = some (some 0x200#11, true) := by decide
theorem test_done : busAfter (exec .done (onMeng customBus)) 0 (fun r => (r.busy, r.cont, r.inflight))
    = some (false, none, none) := by decide
theorem test_quit : busAfter (exec .quit (onMeng customBus)) 0 (fun r => (r.busy, r.cont, r.inflight))
    = some (true, some (.custom 0), none) := by decide

/-! ### Bus operations (95 W2, W3) -/

theorem test_hwStart : busAfter (exec .hwStart (onWire { liveBus with mif := false, wire := .free })) 0
    (fun r => (r.wire, r.mif)) = some (.addr, true) := by decide
theorem test_hwRestart : busAfter (exec .hwRestart (onWire { liveBus with mif := false })) 0
    (fun r => (r.wire, r.mif)) = some (.addr, true) := by decide
theorem test_hwStop : busAfter (exec .hwStop (onWire { liveBus with mif := false })) 0
    (fun r => (r.wire, r.mif)) = some (.free, true) := by decide
theorem test_hwTx_read_address : busAfter (exec (.hwTx 0xDD)
      { onWire { liveBus with wire := .addr } with answers := [quietDraw false 0] }) 0
    (fun r => (r.wire, r.ackstat)) = some (.mr, false) := by decide
theorem test_hwTx_nacked : busAfter (exec (.hwTx 0xDC)
      { onWire { liveBus with wire := .addr } with answers := [quietDraw true 0] }) 0
    (fun r => (r.wire, r.ackstat)) = some (.peerNacked, true) := by decide
theorem test_hwRxen : busAfter (exec .hwRxen { onWire { liveBus with wire := .mr } with answers := [quietDraw false 0x12] }) 0
    (fun r => (r.wire, r.rxbuf)) = some (.mrData, 0x12) := by decide
theorem test_hwAckbit_ack : busAfter (exec (.hwAckbit false) (onWire { liveBus with wire := .mrData })) 0 (fun r => r.wire)
    = some .mr := by decide
theorem test_hwAckbit_nack : busAfter (exec (.hwAckbit true) (onWire { liveBus with wire := .mrData })) 0 (fun r => r.wire)
    = some .mrEnd := by decide

/-! ### Interrupt handlers (V-PROTO, V-ENG, V-SLV) -/

theorem test_row_R155 : protoRow cfg 0 false { liveBus with pstate := .startDone, rrem := 3 }
    = .ret .write (some (.addrByte 0))
        { liveBus with pstate := .addressDone, rrem := 3, addrByte := some 0xDD } := by decide
theorem test_row_R162 : protoRow cfg 0 false { liveBus with rrem := 2 }
    = .ret .restart none { liveBus with rrem := 2, pstate := .startDone } := by decide
theorem test_nack_register : protoRow { cfg with richResult := true } 0 true { liveBus with wsent := 1 }
    = .ret .stop none { liveBus with wsent := 1, rcode := some .nackRegister, pstate := .stopDone } := by decide
/-- A READ has just completed with 0xA5 for 0x2000, and nothing is left to read. -/
def latchBus : Bus :=
  { liveBus with op := .read, rdest := some (.mem 0x2000), rxbuf := 0xA5, pstate := .readInProgress, wire := .mrData }

theorem test_latch : (nextOf (mengStep 0 (onMeng latchBus))).map
    (fun s => (Memory.read s.mem 0x2000, (s.buses[0]?).map fun r => r.inflight)) = some (0xA5, some (some 0x501#11)) := by decide
/-- The final NACK as a step (41 R165): the byte is latched, and HW_ACKBIT(1) issued. -/
theorem test_step_final_nack : (nextOf (step { two latchBus slaveBus with agenda := [.meng 0] })).map
    (fun s => (Memory.read s.mem 0x2000, (s.buses[0]?).map fun r => (r.op, r.inflight)))
    = some (0xA5, some (.nack, some 0x501#11)) := by decide
/-- A callback that issues T_BLOCK: "the handler's step has no step" (V-API): MENG(0) is stuck and its pending bit stays set. -/
theorem test_callback_blocks : (nextOf (step { two { liveBus with pstate := .stopDone, op := .stop, wire := .free } slaveBus with
      agenda := [.meng 0], answers := [quietDraw false 0, ⟨false, 0, 0, none, [.cmd ⟨0x506E, tRec⟩]⟩] })).map
    (fun s => (s.stuck, (s.buses[0]?).map fun r => (r.mif, r.pstate, r.busy)))
    = some ([.meng 0], some (true, .stopDone, true)) := by decide
/-- A stuck handler takes no step. -/
theorem test_stuck_takes_no_step : (nextOf (step { two latchBus slaveBus with agenda := [.meng 0], stuck := [.meng 0] })).map
    (fun s => (s.trace, (s.buses[0]?).map fun r => r.mif)) = some ([], some true) := by decide
theorem test_spurious : (nextOf (mengStep 0 (onMeng { idleBus with mif := true }))).map (fun s => s.sysFault)
    = some (some .spuriousMasterInt) := by decide
/-- SENG(1) runs on the record `r`, with two draws to come. -/
def onSeng (r : Bus) (d e : Answer) : State := { two idleBus r with actor := .seng 1, answers := [d, e] }

theorem test_slave_first_byte : busAfter (sengStep 1 (onSeng { slaveDue with slRw := true } (quietDraw false 0)
    (quietDraw false 0x42))) 1 (fun r => (r.sstate, r.slTx, r.sclhold)) = some (.toMaster, 0x42, false) := by decide
theorem test_slave_desync : (nextOf (sengStep 1 (onSeng { slaveDue with slDa := true } (quietDraw false 0)
    (quietDraw false 0)))).map (fun s => s.sysFault) = some (some .slaveDesync) := by decide
theorem test_slave_complete : busAfter (sengStep 1 (onSeng { slaveDue with sstate := .fromMaster, slRx := 0xA2 }
    (quietDraw true 0) (quietDraw false 0))) 1 (fun r => r.sstate) = some .idle := by decide
theorem test_remote_address : busAfter (rmasterStep 1 (.address true) (two idleBus slaveBus)) 1
    (fun r => (r.slRx, r.slRw, r.slDa, r.swire, r.sif, r.sclhold)) = some (0x21, true, false, .sr, true, true) := by decide

/-! ### Weak fairness (R297) -/

/-- A halted machine stays, and its run is weakly fair: no agent has a step in it. -/
theorem test_halted_run_is_weakly_fair :
    isRun (fun _ => { two liveBus slaveDue with sysRefused := true }) ∧
    weaklyFair (fun _ => { two liveBus slaveDue with sysRefused := true }) := by
  refine ⟨fun n => .inr ⟨rfl, rfl⟩, fun a n h => ?_⟩
  obtain ⟨t, -, ht⟩ := h n (Nat.le_refl n)
  exact absurd ht (by simp [State.enables, State.halted])

/-- A handler that is stuck has no step; the remote master has none while the slave holds the clock. -/
theorem test_enables : (two liveBus slaveDue).enables (.meng 0) = true ∧
    ({ two liveBus slaveDue with stuck := [.meng 0] }).enables (.meng 0) = false ∧
    (two liveBus slaveDue).enables (.rmaster 1 (.address false)) = false ∧
    (two liveBus slaveBus).enables (.rmaster 1 (.address false)) = true := by decide

/-- R8's ranges: the default is legal; one value outside each is not (NBUS 0 and 17, an empty priority range, LEN_MAX 0, no address). -/
theorem test_legal_parameters : Cfg.default.legal = true ∧
    [{ cfg with nbus := 0 }, { cfg with nbus := 17 }, { cfg with prioMin := 8 }, { cfg with lenMax := 0 },
      { cfg with addrBits := 0 }].map Cfg.legal = List.replicate 5 false := by decide
/-- A master reset after its handler got stuck is no successful end (R297: "a stuck agent"); idle without it is one. -/
theorem test_stuck_is_no_successful_end : (two idleBus slaveBus).endsSuccessfully = true ∧
    ({ two idleBus slaveBus with stuck := [.meng 0] }).endsSuccessfully = false := by decide
/-- A store the program still holds is a program not yet ended (log 37). -/
theorem test_pending_store_is_no_end : ({ two idleBus slaveBus with program := [.store 0 1] }).endsSuccessfully = false := by decide

/-! ### Witnesses: for each obligation with hypotheses, states and operands that meet them together -/

theorem next_of_isSome {o : Out} (h : (nextOf o).isSome = true) : ∃ t, o = .next t := by
  cases o with
  | next t => exact ⟨t, rfl⟩
  | fault _ => simp [nextOf] at h
  | refused _ => simp [nextOf] at h

theorem next_and_bus {o : Out} {b : Nat} (h : (busAfter o b fun r => r).isSome = true) :
    ∃ t r', o = .next t ∧ t.buses[b]? = some r' := by
  cases o with
  | next t =>
    cases e : t.buses[b]? with
    | none => simp [busAfter, nextOf, e] at h
    | some r' => exact ⟨t, r', rfl, e⟩
  | fault _ => simp [busAfter, nextOf] at h
  | refused _ => simp [busAfter, nextOf] at h

/-- The commands of bus 0 and of bus 1 the witnesses run, one a constructor. -/
def masterCommands : List Instr :=
  [.mStart 0 (.custom 0) (.val 9), .mIsBusy 0, .mReset 0, .tAsync 0 0x6E (some 0x1000) 1 (some 0x2000) 2 7,
   .tBlock 0 0x6E none 0 (some 0x2000) 1, .readReg 0 0x6E 0 none 0, .writeReg 0 0x48 4 none 0,
   .writeReg 0 0x48 4 (some 0x1000) 3]

def slaveCommands : List Instr := [.sInit 1 0x10 1 2 3 4 7, .sDisable 1, .sForceIdle 1]

theorem witness_DecodingAnEncodedInstructionGivesItBack :
    (∀ i ∈ masterCommands ++ slaveCommands, i.wellFormed ⟨4, 32⟩ = true) ∧
    Instr.wellFormed ⟨4, 32⟩ (.tAsync 15 0x7F (some 0xFFFFFFFF) 4 none 0 7) = true := by decide

theorem witness_AcceptedHeadersAreTheEncodings :
    ∃ c i, decodeCmd ⟨4, 32⟩ c = .ok i := ⟨_, _, test_word_tAsync⟩

/-- (a), (b), (c), (d), (e) and an accepted command, at the edges 0, 10 and 11 of the opcodes and at LEN_MAX. -/
theorem witness_CommandDecoderRefusesInOrder :
    hdrOpc 0x0000#16 = 0#4 ∧ (hdrOpc 0xB000#16).toNat = 11 ∧
    ((hdrOpc 0xA080#16).toNat = 10 ∧ (0xA080#16).getLsbD 7 = true) ∧
    ((hdrOpc 0x2001#16).toNat = 2 ∧ (0x2001#16).getLsbD 7 = false ∧ hdrA7 0x2001#16 ≠ 0#7) ∧
    (hdrOpc 0x7048#16 = 7#4 ∧ (0x7048#16).getLsbD 7 = false ∧
      lengthIsTooLong ⟨4, 32⟩ 7#4 { n := some 4 } ∧ ¬ lengthIsTooLong ⟨4, 32⟩ 7#4 { n := some 3 } ∧
      operandIsBad ⟨4, 32⟩ 7#4 { n := some 3 } ∧
      ¬ operandIsBad ⟨4, 32⟩ 7#4 { n := some 3, reg := some 255, ibase := some 0xFFFFFFFF }) := by
  refine ⟨by decide, by decide, by decide, by decide, by decide, by decide, ?_, ?_, ?_, ?_⟩ <;>
    simp [lengthIsTooLong, operandIsBad, baseIsBad]

theorem test_codes_eight_and_nine : decodePrim ⟨4, 32⟩ 9#4 none = none ∧ decodePrim ⟨4, 32⟩ 8#4 none = some .quit := by decide

theorem witness_BusOperationWordsHaveOneMeaning : decodeHw 0x501#11 = some (.hwAckbit true) ∧ decodeHw 0x502#11 = none := by
  decide

theorem witness_AfterResetOnlyTheHostActs : Turn.meng 0 ≠ .host ∧ Turn.rmaster 1 .stop ≠ .host := by decide

/-- A state in mid-transfer, with a slave interrupt pending, that meets both invariants. -/
def busyState : State :=
  { two liveBus slaveDue with agenda := [.meng 0], answers := [quietDraw false 0, quietDraw false 0] }

theorem busyState_inv : busyState.Inv := by
  refine ⟨rfl, fun b r h => ?_⟩
  match b with
  | 0 =>
    obtain rfl : liveBus = r := Option.some.inj h
    exact ⟨rfl, fun w hw => by simp [liveBus, idleBus, Bus.reset] at hw, ⟨rfl, rfl, rfl⟩, fun e => by cases e⟩
  | 1 =>
    obtain rfl : slaveDue = r := Option.some.inj h
    exact ⟨rfl, fun w hw => by simp [slaveDue, slaveBus, idleBus, Bus.reset] at hw, ⟨rfl, rfl, rfl⟩, fun _ => rfl⟩
  | n + 2 => simp [busyState, two] at h

theorem busyState_onePerBus : busyState.onePerBus := by
  intro b r h
  match b with
  | 0 =>
    obtain rfl : liveBus = r := Option.some.inj h
    exact ⟨fun _ => rfl, fun e => by cases e⟩
  | 1 =>
    obtain rfl : slaveDue = r := Option.some.inj h
    exact ⟨(fun e => nomatch e), fun _ => ⟨rfl, rfl⟩⟩
  | n + 2 => simp [busyState, two] at h

theorem witness_EveryStepKeepsTheInvariant : ∃ s t, State.Inv s ∧ step s = .next t := by
  obtain ⟨t, ht⟩ := next_of_isSome (o := step busyState) (by decide)
  exact ⟨_, t, busyState_inv, ht⟩

theorem witness_EveryStepKeepsOneOperationInFlight : ∃ s t, (∀ k, k < 2 → resetFree (s.popTurn.drawAt k).acts) ∧
    State.onePerBus s ∧ step s = .next t := by
  obtain ⟨t, ht⟩ := next_of_isSome (o := step busyState) (by decide)
  refine ⟨_, t, fun k hk c hc => ?_, busyState_onePerBus, ht⟩
  match k with
  | 0 => simp [State.drawAt, busyState, State.popTurn, quietDraw] at hc
  | 1 => simp [State.drawAt, busyState, State.popTurn, quietDraw] at hc
  | n + 2 => omega

theorem witness_EveryStepKeepsConfigurationAndAppendsToTheTrace : ∃ s t, step s = .next t ∧ t.trace ≠ s.trace := by
  obtain ⟨t, ht⟩ := next_of_isSome (o := step busyState) (by decide)
  refine ⟨_, t, ht, fun e => ?_⟩
  have h : ((nextOf (step busyState)).map fun s => s.trace) = some t.trace := by rw [ht]; rfl
  rw [e] at h
  exact absurd h (by decide)

theorem witness_NoFurtherStepExactlyWhenHalted : ∃ s : State, s.sysRefused = true ∧ faultOf (step s) = some .halted :=
  ⟨{ busyState with sysRefused := true }, rfl, by decide⟩

/-! Steps that run an instruction. -/

/-- HOST's turn, with a command to issue. -/
def hostIssues (c : CmdWord) : State := { two idleBus slaveBus with agenda := [.host], program := [.cmd c] }

theorem witness_StepRunsTheIssuedCommand :
    (∃ s c rest i, State.halted s = false ∧ s.turn = .host ∧ s.hostCall = none ∧ s.program = .cmd c :: rest ∧
      decodeCmd s.cfg.limits c = .ok i) ∧
    (∃ s c rest e, State.halted s = false ∧ s.turn = .host ∧ s.hostCall = none ∧ s.program = .cmd c :: rest ∧
      decodeCmd s.cfg.limits c = .error e) :=
  ⟨⟨hostIssues ⟨0x406E, tRec⟩, _, _, _, rfl, rfl, rfl, rfl, test_word_tAsync⟩,
   ⟨hostIssues ⟨0xF000, tRec⟩, _, _, _, rfl, rfl, rfl, rfl, test_refused_a_high⟩⟩

theorem witness_StepRunsTheOperationInFlight : ∃ (s : State) (b : Nat) (r : Bus) (w : BitVec 11) (i : Instr),
    s.halted = false ∧ s.turn = .busComplete b ∧ s.buses[b]? = some r ∧ r.inflight = some w ∧ decodeHw w = some i :=
  ⟨{ two { liveBus with mif := false, inflight := some 0x3DC#11 } slaveBus with agenda := [.busComplete 0] }, 0, _, _,
    .hwTx 0xDC, rfl, rfl, rfl, rfl, by decide⟩

/-- A bus whose custom continuation returns the code `p` at its next interrupt. -/
def customReturns (r : Bus) (p : BitVec 4) (ref : Option Ref) : State :=
  { two r slaveBus with agenda := [.meng 0], answers := [⟨false, 0, p, ref, []⟩] }

/-- A bus whose READ of 0xA5 for the admitted 0x3000 has just completed, with custom continuation 0. -/
def customLatch : Bus := { customBus with op := .read, rdest := some (.mem 0x3000), rxbuf := 0xA5, wire := .mrData }

theorem witness_StepRunsTheReturnedPrimitive :
    (∃ (s : State) (b n : Nat) (r : Bus) (ud : UData) (ref : Option Ref) (i : Instr), s.halted = false ∧ s.turn = .meng b ∧
      .meng b ∉ s.stuck ∧ s.buses[b]? = some r ∧ r.mif = true ∧ r.busy = true ∧ r.cont = some (.custom n) ∧
      r.udata = some ud ∧ s.popTurn.answer.acts = [] ∧ takeRef s.cfg.limits s.popTurn.answer.ref = ref ∧
      decodePrim s.cfg.limits s.popTurn.answer.prim ref = some i ∧ r.op ≠ .read) ∧
    (∃ (s s' : State) (b n : Nat) (r : Bus) (ud : UData) (ref : Option Ref) (i : Instr) (a : Ref), s.halted = false ∧
      s.turn = .meng b ∧ .meng b ∉ s.stuck ∧ s.buses[b]? = some r ∧ r.mif = true ∧ r.busy = true ∧
      r.cont = some (.custom n) ∧ r.udata = some ud ∧ s.popTurn.answer.acts = [] ∧
      takeRef s.cfg.limits s.popTurn.answer.ref = ref ∧ decodePrim s.cfg.limits s.popTurn.answer.prim ref = some i ∧
      r.op = .read ∧ r.rdest = some a ∧ admitted s.cfg b r a = true ∧
      s' = State.memWrite a r.rxbuf
        { s.popTurn.popAnswer with actor := .meng b, buses := s.buses.set b { r with mif := false } }) :=
  ⟨⟨customReturns customBus 2 (some (.mem 0x3000)), 0, 0, _, _, _, .write (some (.mem 0x3000)), rfl, rfl, by decide, rfl, rfl,
     rfl, rfl, rfl, rfl, rfl, by decide, by decide⟩,
   ⟨customReturns customLatch 5 none, _, 0, 0, _, _, _, .nack, _, rfl, rfl, by decide, rfl, rfl, rfl, rfl, rfl, rfl, rfl,
     by decide, rfl, rfl, by decide, rfl⟩⟩

theorem liveBus_midTransfer : liveBus.midTransfer := ⟨rfl, rfl, rfl, rfl, rfl⟩

/-- MENG(0) is due on record `r`, with quiet draws to come. -/
def mengDue (r : Bus) : State :=
  { two r slaveBus with agenda := [.meng 0], answers := [quietDraw false 0, quietDraw false 0] }

theorem witness_StepRunsTheProtocolsPrimitive :
    (∃ (s : State) (b : Nat) (r r' : Bus) (p : PrimTag) (ref : Option Ref) (i : Instr), s.halted = false ∧ s.turn = .meng b ∧
      .meng b ∉ s.stuck ∧ s.buses[b]? = some r ∧ r.midTransfer ∧ decodePrim s.cfg.limits p.code ref = some i ∧ r.op ≠ .read ∧
      protoRow s.cfg b (if r.op = .write then r.ackstat else s.popTurn.answer.bit) { r with mif := false } = .ret p ref r') ∧
    (∃ (s s' : State) (b : Nat) (r q r' : Bus) (p : PrimTag) (ref : Option Ref) (i : Instr) (a : Ref), s.halted = false ∧
      s.turn = .meng b ∧ .meng b ∉ s.stuck ∧ s.buses[b]? = some r ∧ r.midTransfer ∧
      decodePrim s.cfg.limits p.code ref = some i ∧ r.op = .read ∧ r.rdest = some a ∧ admitted s.cfg b r a = true ∧
      s' = State.memWrite a r.rxbuf
        { s.popTurn.popAnswer with actor := .meng b, buses := s.buses.set b { r with mif := false } } ∧
      s'.buses[b]? = some q ∧ protoRow s.cfg b s.popTurn.answer.bit q = .ret p ref r') :=
  ⟨⟨mengDue { liveBus with rrem := 2 }, 0, _, _, .restart, none, .restart, rfl, rfl, by decide, rfl, ⟨rfl, rfl, rfl, rfl, rfl⟩,
     rfl, by decide, rfl⟩,
   ⟨mengDue latchBus, _, 0, _, _, _, .nack, none, .nack, _, rfl, rfl, by decide, rfl, ⟨rfl, rfl, rfl, rfl, rfl⟩, rfl, rfl, rfl,
     by decide, rfl, rfl, rfl⟩⟩

/-! Host commands, each clause. -/

/-- Bus 0 idle with its wire in phase `w`. -/
def idleAt (w : Wire) : State := two { idleBus with wire := w } slaveBus

theorem witness_busIs_master : (two idleBus slaveBus).busIs 0 .master idleBus := ⟨rfl, rfl⟩
theorem witness_busIs_slave : (two idleBus slaveBus).busIs 1 .slave slaveBus := ⟨rfl, rfl⟩

/-- The first bus number past the registry's two, and the last. -/
theorem witness_unknown_bus : (two idleBus slaveBus).buses.length ≤ (2#4 : BusField).toNat ∧
    (two idleBus slaveBus).buses.length ≤ (15#4 : BusField).toNat := by decide

theorem witness_MStartRegistersAndIssuesStart :
    (∃ s bus r, State.busIs s bus .master r ∧ r.busy = true) ∧
    (∃ s bus r, State.busIs s bus .master r ∧ r.busy = false ∧ s.cfg.busSeqCheck = true ∧ r.wire ≠ .free) ∧
    (∃ s bus r, State.busIs s bus .master r ∧ r.busy = false ∧ (s.cfg.busSeqCheck = false ∨ r.wire = .free)) :=
  ⟨⟨two liveBus slaveBus, 0, _, ⟨rfl, rfl⟩, rfl⟩, ⟨idleAt .mt, 0, _, ⟨rfl, rfl⟩, rfl, rfl, by decide⟩,
   ⟨two idleBus slaveBus, 0, _, ⟨rfl, rfl⟩, rfl, .inr rfl⟩⟩

theorem witness_MResetClearsOnlyBusyAndContinuation :
    (∃ s bus r, State.busIs s bus .master r ∧ (r.inflight ≠ none ∨ r.mif = true)) ∧
    (∃ s bus r, State.busIs s bus .master r ∧ r.inflight = none ∧ r.mif = false) :=
  ⟨⟨two liveBus slaveBus, 0, _, ⟨rfl, rfl⟩, .inr rfl⟩, ⟨two idleBus slaveBus, 0, _, ⟨rfl, rfl⟩, rfl, rfl⟩⟩

theorem witness_TAsyncSeedsTheTransactionAndStarts :
    (∃ s bus r, State.busIs s bus .master r ∧ r.busy = true) ∧
    (∃ s bus r, State.busIs s bus .master r ∧ r.busy = false ∧ canIssue s.cfg .start r.wire) ∧
    (∃ s bus r, State.busIs s bus .master r ∧ r.busy = false ∧ s.cfg.busSeqCheck = true ∧ r.wire ≠ .free) :=
  ⟨⟨two liveBus slaveBus, 0, _, ⟨rfl, rfl⟩, rfl⟩, ⟨two idleBus slaveBus, 0, _, ⟨rfl, rfl⟩, rfl, fun _ => rfl⟩,
   ⟨idleAt .mt, 0, _, ⟨rfl, rfl⟩, rfl, rfl, by decide⟩⟩

theorem witness_MIsBusyReturnsTheBusyFlag :
    (∃ s bus r, State.busIs s bus .master r ∧ r.busy = true) ∧ (∃ s bus r, State.busIs s bus .master r ∧ r.busy = false) :=
  ⟨⟨two liveBus slaveBus, 0, _, ⟨rfl, rfl⟩, rfl⟩, ⟨two idleBus slaveBus, 0, _, ⟨rfl, rfl⟩, rfl⟩⟩

/-- The clauses the three blocking commands share: an unknown bus, a busy one, and the start. -/
def blockingClauses : Prop :=
  (∃ (s : State) (bus : BusField), s.actor = .host ∧ s.buses.length ≤ bus.toNat) ∧
  (∃ s bus r, State.busIs s bus .master r ∧ s.actor = .host ∧ r.busy = true) ∧
  (∃ s bus r, State.busIs s bus .master r ∧ s.actor = .host ∧ r.busy = false ∧ canIssue s.cfg .start r.wire)

theorem witness_TBlockStartsAndPolls : blockingClauses :=
  ⟨⟨two idleBus slaveBus, 2, rfl, by decide⟩, ⟨two liveBus slaveBus, 0, _, ⟨rfl, rfl⟩, rfl, rfl⟩,
   ⟨two idleBus slaveBus, 0, _, ⟨rfl, rfl⟩, rfl, rfl, fun _ => rfl⟩⟩

theorem witness_ReadRegFramesRegisterThenRead : blockingClauses := witness_TBlockStartsAndPolls

theorem witness_WriteRegFramesRegisterThenData : blockingClauses := witness_TBlockStartsAndPolls

theorem witness_StartingATransferOnAHeldWireFaults : ∃ s bus r, s.actor = .host ∧ State.busIs s bus .master r ∧
    r.busy = false ∧ s.cfg.busSeqCheck = true ∧ r.wire ≠ .free :=
  ⟨idleAt .mt, 0, _, rfl, ⟨rfl, rfl⟩, rfl, rfl, by decide⟩

/-- MENG(0) is due and its callback issues T_BLOCK. -/
def blockingState : State :=
  { two { liveBus with op := .stop, pstate := .stopDone, wire := .free } slaveBus with
    agenda := [.meng 0], answers := [quietDraw false 0, ⟨false, 0, 0, none, [.cmd ⟨0x506E, tRec⟩]⟩] }

theorem fault_of_faultOf {o : Out} {e : Fault} (h : faultOf o = some e) : o = .fault e := by
  cases o with
  | next _ => simp [faultOf] at h
  | fault f => exact congrArg _ (Option.some.inj h)
  | refused _ => simp [faultOf] at h

theorem witness_BlockingCommandsHaveNoStepInInterruptContext :
    ((onMeng liveBus).actor = .meng 0 ∧ (onSeng slaveDue (quietDraw false 0) (quietDraw false 0)).actor = .seng 1) ∧
    (∃ (s : State) (b : Nat), s.halted = false ∧ s.turn = .meng b ∧ .meng b ∈ s.stuck) ∧
    (∃ (s : State) (b : Nat), s.halted = false ∧ s.turn = .meng b ∧ .meng b ∉ s.stuck ∧
      mengStep b { s.popTurn with actor := .meng b } = .fault .stuckBlockingCall) ∧
    (∃ (s : State) (b : Nat), s.halted = false ∧ s.turn = .seng b ∧ .seng b ∉ s.stuck ∧
      sengStep b { s.popTurn with actor := .seng b } ≠ .fault .stuckBlockingCall) := by
  refine ⟨⟨rfl, rfl⟩, ⟨{ blockingState with stuck := [.meng 0] }, 0, rfl, rfl, by decide⟩,
    ⟨blockingState, 0, rfl, rfl, by decide, fault_of_faultOf (by decide)⟩,
    ⟨{ two idleBus slaveBus with agenda := [.seng 1] }, 1, rfl, rfl, by decide, fun h => ?_⟩⟩
  exact absurd (congrArg faultOf h) (by decide)

theorem witness_CommandsOfTheOtherRoleAreRefused :
    (∃ s bus r, s.actor = .host ∧ State.busIs s bus .slave r) ∧ (∃ s bus r, s.actor = .host ∧ State.busIs s bus .master r) :=
  ⟨⟨_, _, _, rfl, witness_busIs_slave⟩, ⟨_, _, _, rfl, witness_busIs_master⟩⟩

/-- Priorities at both edges of PRIO_MIN to PRIO_MAX, and just outside. -/
theorem witness_SInitConfiguresAndEnablesTheSlave : ∃ s bus r, State.busIs s bus .slave r ∧
    ((-1 : Int) < s.cfg.prioMin ∧ s.cfg.prioMax < 8) ∧ (s.cfg.prioMin ≤ 0 ∧ (7 : Int) ≤ s.cfg.prioMax) :=
  ⟨two idleBus slaveBus, 1, _, ⟨rfl, rfl⟩, by decide, by decide⟩

theorem witness_SDisableTurnsTheSlaveOff : ∃ s bus r, State.busIs s bus .slave r := ⟨_, _, _, witness_busIs_slave⟩

theorem witness_SForceIdleWritesOnlyTheSlaveState : ∃ s bus r, State.busIs s bus .slave r := ⟨_, _, _, witness_busIs_slave⟩

/-! Primitives and bus operations, each clause. -/

theorem witness_ReadRemembersTheDestinationAndReceives :
    (∃ s b r, State.runsOn s b r ∧ (s.cfg.busSeqCheck = false ∨ r.wire = .mr)) ∧
    (∃ s b r, State.runsOn s b r ∧ s.cfg.busSeqCheck = true ∧ r.wire ≠ .mr) :=
  ⟨⟨onMeng { customBus with wire := .mr }, 0, _, ⟨rfl, rfl⟩, .inr rfl⟩,
   ⟨onMeng customBus, 0, _, ⟨rfl, rfl⟩, rfl, by decide⟩⟩

theorem witness_WriteTransmitsTheByteAtTheReference :
    (∃ s b r a, State.runsOn s b r ∧ admitted s.cfg b r a = false) ∧
    (∃ s b r a v, State.runsOn s b r ∧ admitted s.cfg b r a = true ∧ s.byteAt a = some v ∧
      (s.cfg.busSeqCheck = false ∨ r.wire = .addr ∨ r.wire = .mt)) ∧
    (∃ s b r a v, State.runsOn s b r ∧ admitted s.cfg b r a = true ∧ s.byteAt a = some v ∧ s.cfg.busSeqCheck = true ∧
      r.wire ≠ .addr ∧ r.wire ≠ .mt) :=
  ⟨⟨onMeng customBus, 0, _, .mem 0x3001, ⟨rfl, rfl⟩, by decide⟩,
   ⟨onMeng customBus, 0, _, .mem 0x3000, 0, ⟨rfl, rfl⟩, by decide, rfl, .inr (.inr rfl)⟩,
   ⟨onMeng { customBus with wire := .mr }, 0, _, .mem 0x3000, 0, ⟨rfl, rfl⟩, by decide, rfl, rfl, by decide, by decide⟩⟩

theorem witness_WriteWithNoByteToReadStops :
    (∃ s b r a, State.runsOn s b r ∧ admitted s.cfg b r a = true ∧ s.byteAt a = none) :=
  ⟨onMeng customBus, 0, _, .addrByte 0, ⟨rfl, rfl⟩, by decide, rfl⟩

theorem witness_RestartAckNackStopIssueTheirOperation :
    (∃ s b r, State.runsOn s b r ∧ canIssue s.cfg .restart r.wire ∧ canIssue s.cfg .stop r.wire) ∧
    (∃ s b r, State.runsOn s b r ∧ canIssue s.cfg (.ackbit false) r.wire ∧ canIssue s.cfg (.ackbit true) r.wire) ∧
    (∃ s b r, State.runsOn s b r ∧ s.cfg.busSeqCheck = true ∧ legalIn (.ackbit false) r.wire = false) :=
  ⟨⟨onMeng customBus, 0, _, ⟨rfl, rfl⟩, fun _ => rfl, fun _ => rfl⟩,
   ⟨onMeng { customBus with wire := .mrData }, 0, _, ⟨rfl, rfl⟩, fun _ => rfl, fun _ => rfl⟩,
   ⟨onMeng customBus, 0, _, ⟨rfl, rfl⟩, rfl, rfl⟩⟩

theorem witness_DoneDeregistersAndQuitDoesNot : ∃ s b r, State.runsOn s b r := ⟨onMeng customBus, 0, _, rfl, rfl⟩

theorem witness_StartRestartStopAckbitComplete : ∃ s b r, State.runsOn s b r := ⟨onWire liveBus, 0, _, rfl, rfl⟩

theorem witness_ReceivedByteIsDrawnIntoRxbuf : ∃ s b r, State.runsOn s b r := ⟨onWire liveBus, 0, _, rfl, rfl⟩

theorem witness_NoneAndReservedCodesAreFatal : (0#4 : BitVec 4) = 0#4 ∧ 9 ≤ (9#4).toNat ∧ 9 ≤ (15#4).toNat := by decide

theorem witness_TransmittedByteSamplesTheAcknowledgement :
    (∃ s b r, State.runsOn s b r ∧ s.answer.bit = true) ∧
    (∃ s b r, State.runsOn s b r ∧ s.answer.bit = false ∧ r.wire = .addr) ∧
    (∃ s b r, State.runsOn s b r ∧ s.answer.bit = false ∧ r.wire ≠ .addr) ∧
    (0xDC#8).getLsbD 0 = false ∧ (0xDD#8).getLsbD 0 = true :=
  ⟨⟨{ onWire liveBus with answers := [quietDraw true 0] }, 0, _, ⟨rfl, rfl⟩, rfl⟩,
   ⟨{ onWire { liveBus with wire := .addr } with answers := [quietDraw false 0] }, 0, _, ⟨rfl, rfl⟩, rfl, rfl⟩,
   ⟨{ onWire liveBus with answers := [quietDraw false 0] }, 0, _, ⟨rfl, rfl⟩, rfl, by decide⟩, by decide, by decide⟩

/-! Frames. -/

theorem witness_InstructionsStayOnTheirBusAndStoreNothing : ∀ i ∈ masterCommands ++ slaveCommands,
    (∃ t, exec i (two idleBus slaveBus) = .next t) ∧ ∃ c, busOf i (two idleBus slaveBus) ≠ some c := by
  intro i hi
  refine ⟨next_of_isSome ?_, 2, ?_⟩ <;> revert i <;> decide

theorem witness_CommandsWriteOnlyTheirFields :
    (∀ i ∈ masterCommands, ∃ t r', exec i (two idleBus slaveBus) = .next t ∧ t.buses[0]? = some r') ∧
    (∀ i ∈ slaveCommands, ∃ t r', exec i (two idleBus slaveBus) = .next t ∧ t.buses[1]? = some r') := by
  refine ⟨fun i hi => next_and_bus ?_, fun i hi => next_and_bus ?_⟩ <;> revert i <;> decide

theorem witness_PrimitivesAndBusOperationsWriteOnlyTheirFields_prim :
    ∀ i ∈ [Instr.primNone, .read none, .write (some (.mem 0x3000)), .restart, .ack, .nack, .stop, .done, .quit],
      (onMeng customBus).runsOn 0 customBus ∧ ∃ t r', exec i (onMeng customBus) = .next t ∧ t.buses[0]? = some r' := by
  intro i hi
  refine ⟨⟨rfl, rfl⟩, next_and_bus ?_⟩
  revert i
  decide

theorem witness_PrimitivesAndBusOperationsWriteOnlyTheirFields_hw :
    ∀ i ∈ [Instr.hwStart, .hwRestart, .hwStop, .hwTx 0xDC, .hwRxen, .hwAckbit false, .hwAckbit true],
      (onWire customBus).runsOn 0 customBus ∧ ∃ t r', exec i (onWire customBus) = .next t ∧ t.buses[0]? = some r' := by
  intro i hi
  refine ⟨⟨rfl, rfl⟩, next_and_bus ?_⟩
  revert i
  decide

theorem witness_FatalErrorsLeaveEveryRecordAlone : ∃ i s t, exec i s = .next t ∧ s.sysFatal = none ∧ t.sysFatal ≠ none :=
  ⟨.mStart 0 .proto (.val 0), two liveBus slaveBus, _, rfl, rfl, by decide⟩

/-! The handlers. -/

theorem witness_MasterInterruptEntryAndReadLatch :
    (∃ (s : State) (b : Nat) (r : Bus), State.halted s = false ∧ s.buses[b]? = some r ∧ r.mif = true ∧ r.busy = false) ∧
    (∃ (s : State) (b : Nat) (r : Bus), State.halted s = false ∧ s.buses[b]? = some r ∧ r.mif = true ∧ r.busy = true ∧ r.op = .read ∧ r.rdest = none) ∧
    (∃ (s : State) (b : Nat) (r : Bus) (a : Ref), State.halted s = false ∧ s.buses[b]? = some r ∧ r.mif = true ∧ r.busy = true ∧ r.op = .read ∧
      r.rdest = some a ∧ admitted s.cfg b r a = true) ∧
    (∃ (s : State) (b : Nat) (r : Bus) (a : Ref), State.halted s = false ∧ s.buses[b]? = some r ∧ r.mif = true ∧ r.busy = true ∧ r.op = .read ∧
      r.rdest = some a ∧ admitted s.cfg b r a = false) :=
  ⟨⟨two { idleBus with mif := true } slaveBus, 0, _, rfl, rfl, rfl, rfl⟩,
   ⟨two { latchBus with rdest := none } slaveBus, 0, _, rfl, rfl, rfl, rfl, rfl, rfl⟩,
   ⟨two latchBus slaveBus, 0, _, _, rfl, rfl, rfl, rfl, rfl, rfl, by decide⟩,
   ⟨two { latchBus with rdest := some (.mem 0x2004) } slaveBus, 0, _, _, rfl, rfl, rfl, rfl, rfl, rfl, by decide⟩⟩

theorem witness_TheLatchStoresExactlyOneByte :
    (∃ (s : State) (x y : Nat), Memory.wf s.mem = true ∧ y ≠ x ∧ Memory.read s.mem y = 0x60) ∧
    (∃ (s : State) (b : Nat) (r : Bus) (i : Nat), s.buses[b]? = some r ∧ i ≠ 0) ∧
    (∃ (s : State) (b i : Nat) (ref : Ref), s.buses.length ≤ b ∧ (ref = .addrByte b ∨ ∃ i, ref = .rcell b i ∨ ref = .wcell b i) ∧
      ref = .wcell b i) :=
  ⟨⟨{ two idleBus slaveBus with mem := [(0x1000, 0x60)] }, 0x2000, 0x1000, by decide⟩,
   ⟨two idleBus slaveBus, 1, slaveBus, 1, rfl, by decide⟩,
   ⟨two idleBus slaveBus, 2, 0, .wcell 2 0, by decide, .inr ⟨0, .inr rfl⟩, rfl⟩⟩

/-- Every row of PROTO's table is met by a record in mid-transfer. -/
theorem witness_ProtocolAddressAndWriteRows :
    liveBus.pstate = .writeInProgress ∧ liveBus.wrem = 0 ∧ liveBus.rrem = 0 ∧ liveBus.addr = some 0x6E ∧
    liveBus.wptr = some (.mem 0x1000) ∧ liveBus.rptr = some (.mem 0x2000) ∧
    (∀ p : PState, ({ liveBus with pstate := p, wrem := 1, rrem := 1 } : Bus).pstate = p) :=
  ⟨rfl, rfl, rfl, rfl, rfl, rfl, fun _ => rfl⟩

theorem witness_ProtocolReadRows : ∀ p : PState, ∃ r : Bus, r.pstate = p ∧ r.rrem = 1 ∧ r.rptr = some (.mem 0x2000) :=
  fun p => ⟨{ liveBus with pstate := p, rrem := 1 }, rfl, rfl, rfl⟩

theorem witness_ProtoReturnsOnlyItsSevenCodes : ∃ c b nack r r' p ref, protoRow c b nack r = .ret p ref r' :=
  ⟨cfg, 0, false, { liveBus with rrem := 2 }, _, _, _, rfl⟩

theorem witness_NackAbortsWithStopAndNoRetry : ∃ (s : State) (b : Nat) (r : Bus), s.halted = false ∧ s.turn = .meng b ∧
    .meng b ∉ s.stuck ∧ s.buses[b]? = some r ∧ r.midTransfer ∧ r.op = .write ∧ r.ackstat = true ∧
    (r.pstate = .addressDone ∨ r.pstate = .writeInProgress) ∧ canIssue s.cfg .stop r.wire :=
  ⟨mengDue { liveBus with ackstat := true, wire := .peerNacked }, 0, _, rfl, rfl, by decide, rfl, ⟨rfl, rfl, rfl, rfl, rfl⟩, rfl, rfl,
    .inr rfl, fun _ => rfl⟩

/-- A transfer whose STOP has completed. -/
def stoppedBus : Bus := { liveBus with op := .stop, pstate := .stopDone, wire := .free }

theorem witness_StopDoneReportsThenClearsBusy :
    (∃ (s : State) (b : Nat) (r : Bus) (n : Nat), s.halted = false ∧ s.turn = .meng b ∧ .meng b ∉ s.stuck ∧ s.buses[b]? = some r ∧
      r.midTransfer ∧ r.op ≠ .read ∧ r.pstate = .stopDone ∧ r.rcb = some (.user n) ∧
      s.popTurn.popAnswer.answer.acts = []) ∧
    (∃ (s : State) (b : Nat) (r : Bus), s.halted = false ∧ s.turn = .meng b ∧ .meng b ∉ s.stuck ∧ s.buses[b]? = some r ∧
      r.midTransfer ∧ r.op ≠ .read ∧ r.pstate = .stopDone ∧ r.rcb = some .blkcb) :=
  ⟨⟨mengDue stoppedBus, 0, _, _, rfl, rfl, by decide, rfl, ⟨rfl, rfl, rfl, rfl, rfl⟩, by decide, rfl, rfl, rfl⟩,
   ⟨mengDue { stoppedBus with rcb := some .blkcb }, 0, _, rfl, rfl, by decide, rfl, ⟨rfl, rfl, rfl, rfl, rfl⟩, by decide, rfl, rfl⟩⟩

/-- The callback's first command starts a transfer on its own bus. -/
def restartingState : State :=
  { mengDue stoppedBus with answers := [quietDraw false 0, ⟨false, 0, 0, none, [.cmd ⟨0x406E, tRec⟩]⟩] }

theorem witness_ResultCallbackStartingOnItsBusIsFatal : ∃ (s : State) (b n : Nat) (r : Bus) (c : CmdWord) (rest : List Act)
    (bus : BusField) (a7 : Addr7) (wb rb : Option Nat) (wl rl cb : Nat),
    s.halted = false ∧ s.turn = .meng b ∧ .meng b ∉ s.stuck ∧ s.buses[b]? = some r ∧ r.midTransfer ∧ r.op ≠ .read ∧
    r.pstate = .stopDone ∧ r.rcb = some (.user n) ∧ roleOf s.cfg b = .master ∧
    s.popTurn.popAnswer.answer.acts = .cmd c :: rest ∧
    decodeCmd s.cfg.limits c = .ok (.tAsync bus a7 wb wl rb rl cb) ∧ bus.toNat = b ∧ 0 < wl + rl :=
  ⟨restartingState, 0, 7, _, _, _, 0, 0x6E, some 0x1000, some 0x2000, 1, 2, 7, rfl, rfl, by decide, rfl, ⟨rfl, rfl, rfl, rfl, rfl⟩,
    by decide, rfl, rfl, rfl, rfl, test_word_tAsync, rfl, by decide⟩

/-- The HOST polls bus 0. -/
def polling (r : Bus) : State := { two r slaveBus with agenda := [.host], hostCall := some 0 }

theorem witness_BlockingPollReturnsTheResult :
    (∃ (s : State) (b : Nat) (r : Bus), s.halted = false ∧ s.turn = .host ∧ s.hostCall = some b ∧ s.buses[b]? = some r ∧
      r.busy = true) ∧
    (∃ (s : State) (b : Nat) (r : Bus) (v : Bool), s.halted = false ∧ s.turn = .host ∧ s.hostCall = some b ∧
      s.buses[b]? = some r ∧ r.busy = false ∧ r.blkResult = some v) ∧
    (∃ (s : State) (b : Nat) (r : Bus), s.halted = false ∧ s.turn = .host ∧ s.hostCall = some b ∧ s.buses[b]? = some r ∧
      r.busy = false ∧ r.blkResult = none) :=
  ⟨⟨polling liveBus, 0, _, rfl, rfl, rfl, rfl, rfl⟩,
   ⟨polling { idleBus with blkResult := some true }, 0, _, _, rfl, rfl, rfl, rfl, rfl, rfl⟩,
   ⟨polling idleBus, 0, _, rfl, rfl, rfl, rfl, rfl, rfl⟩⟩

theorem witness_BusFaultDropsTheOperationAndResetRecovers : ∃ (s : State) (bus : BusField) (r : Bus), s.halted = false ∧
    s.turn = .busFault bus.toNat ∧ s.busIs bus .master r ∧ r.inflight ≠ none ∧ r.mif = false :=
  ⟨{ two { liveBus with mif := false, inflight := some 0x300#11 } slaveBus with agenda := [.busFault 0] }, 0, _, rfl, rfl,
    ⟨rfl, rfl⟩, by decide, rfl⟩

theorem witness_SlaveIdleInterrupt :
    (∃ (s : State) (b : Nat) (r : Bus), State.halted s = false ∧ s.buses[b]? = some r ∧ r.sif = true ∧ r.senabled = true ∧ r.sstate = .idle ∧
      r.slDa = true) ∧
    (∃ (s : State) (b : Nat) (r : Bus) (cb : Nat), State.halted s = false ∧ s.buses[b]? = some r ∧ r.sif = true ∧ r.senabled = true ∧ r.sstate = .idle ∧
      r.slDa = false ∧ r.slRw = false ∧ r.cbMsgFrom = some cb ∧ s.answer.acts = []) ∧
    (∃ (s : State) (b : Nat) (r : Bus) (cb : Nat), State.halted s = false ∧ s.buses[b]? = some r ∧ r.sif = true ∧ r.senabled = true ∧ r.sstate = .idle ∧
      r.slDa = false ∧ r.slRw = true ∧ r.cbMsgTo = some cb ∧ s.answer.acts = [] ∧ s.cfg.slaveTxOnAddress = false) ∧
    (∃ (s : State) (b : Nat) (r : Bus) (cb cd : Nat), State.halted s = false ∧ s.buses[b]? = some r ∧ r.sif = true ∧ r.senabled = true ∧ r.sstate = .idle ∧
      r.slDa = false ∧ r.slRw = true ∧ r.cbMsgTo = some cb ∧ r.cbByteTo = some cd ∧ s.answer.acts = [] ∧
      s.popAnswer.answer.acts = [] ∧ s.cfg.slaveTxOnAddress = true) :=
  ⟨⟨onSeng { slaveDue with slDa := true } (quietDraw false 0) (quietDraw false 0), 1, _, rfl, rfl, rfl, rfl, rfl, rfl⟩,
   ⟨onSeng slaveDue (quietDraw false 0) (quietDraw false 0), 1, _, _, rfl, rfl, rfl, rfl, rfl, rfl, rfl, rfl, rfl⟩,
   ⟨{ onSeng { slaveDue with slRw := true } (quietDraw false 0) (quietDraw false 0) with
        cfg := { cfg with slaveTxOnAddress := false } }, 1, _, _, rfl, rfl, rfl, rfl, rfl, rfl, rfl, rfl, rfl, rfl⟩,
   ⟨onSeng { slaveDue with slRw := true } (quietDraw false 0) (quietDraw true 0x42), 1, _, _, _, rfl, rfl, rfl, rfl, rfl, rfl,
      rfl, rfl, rfl, rfl, rfl, rfl⟩⟩

theorem witness_SlaveInterruptOutsideIdle :
    (∃ (s : State) (b : Nat) (r : Bus) (cb : Nat), State.halted s = false ∧ s.buses[b]? = some r ∧ r.sif = true ∧ r.senabled = true ∧ r.sstate = .toMaster ∧
      r.cbByteTo = some cb ∧ s.answer.acts = []) ∧
    (∃ (s : State) (b : Nat) (r : Bus), State.halted s = false ∧ s.buses[b]? = some r ∧ r.sif = true ∧ r.senabled = true ∧ r.sstate = .endToMaster) ∧
    (∃ (s : State) (b : Nat) (r : Bus) (cb : Nat), State.halted s = false ∧ s.buses[b]? = some r ∧ r.sif = true ∧ r.senabled = true ∧ r.sstate = .fromMaster ∧
      r.cbByteFrom = some cb ∧ s.answer.acts = []) :=
  ⟨⟨onSeng { slaveDue with sstate := .toMaster } (quietDraw false 0) (quietDraw false 0), 1, _, _, rfl, rfl, rfl, rfl, rfl, rfl,
      rfl⟩,
   ⟨onSeng { slaveDue with sstate := .endToMaster } (quietDraw false 0) (quietDraw false 0), 1, _, rfl, rfl, rfl, rfl, rfl⟩,
   ⟨onSeng { slaveDue with sstate := .fromMaster } (quietDraw false 0) (quietDraw false 0), 1, _, _, rfl, rfl, rfl, rfl, rfl,
      rfl, rfl⟩⟩

theorem witness_EverySlaveStepReleasesTheClock : ∃ (s t : State) (b : Nat) (r : Bus), s.halted = false ∧
    s.buses[b]? = some r ∧ r.sif = true ∧ r.senabled = true ∧ sengStep b s = .next t ∧ t.halted = false :=
  ⟨onSeng slaveDue (quietDraw false 0) (quietDraw false 0), _, 1, _, rfl, rfl, rfl, rfl, rfl, rfl⟩

theorem witness_RemoteMasterEvents :
    (∃ (s : State) (b : Nat) (r : Bus), State.buses s = [idleBus, r] ∧ s.buses[b]? = some r ∧ r.sclhold = true ∧ r.sif = true) ∧
    (∃ (s : State) (b : Nat) (r : Bus) (a : Addr7), State.buses s = [idleBus, r] ∧ s.buses[b]? = some r ∧
      r.senabled = true ∧ r.sclhold = false ∧ r.sif = false ∧
      r.saddr = some a ∧ r.swire = .free) ∧
    (∃ (s : State) (b : Nat) (r : Bus), State.buses s = [idleBus, r] ∧ s.buses[b]? = some r ∧ r.senabled = true ∧ r.sclhold = false ∧ r.sif = false ∧
      r.swire = .sw) ∧
    (∃ (s : State) (b : Nat) (r : Bus), State.buses s = [idleBus, r] ∧ s.buses[b]? = some r ∧ r.senabled = true ∧ r.sclhold = false ∧ r.sif = false ∧
      r.swire = .sr) :=
  ⟨⟨two idleBus slaveDue, 1, _, rfl, rfl, rfl, rfl⟩, ⟨two idleBus slaveBus, 1, _, _, rfl, rfl, rfl, rfl, rfl, rfl, rfl⟩,
   ⟨two idleBus { slaveBus with swire := .sw }, 1, _, rfl, rfl, rfl, rfl, rfl, rfl⟩,
   ⟨two idleBus { slaveBus with swire := .sr }, 1, _, rfl, rfl, rfl, rfl, rfl, rfl⟩⟩

/-! Whole phases. -/

/-- The hypotheses of the write phase. -/
def writePhase (vs : List Byte) (p : Ref) (b : Nat) (s : State) (r : Bus) (ts : List Turn) (ds : List Answer) : Prop :=
  s.halted = false ∧ .meng b ∉ s.stuck ∧ s.buses[b]? = some r ∧ r.midTransfer ∧ r.op = .write ∧ r.ackstat = false ∧
  (r.pstate = .addressDone ∨ r.pstate = .writeInProgress) ∧ r.wrem = vs.length ∧ r.wptr = some p ∧
  refAdd s.cfg.addrBits p 0 = p ∧ (vs = [] ∨ s.cfg.busSeqCheck = false ∨ r.wire = .mt) ∧
  (∀ k v, vs[k]? = some v → admitted s.cfg b r (refAdd s.cfg.addrBits p k) = true ∧
    s.byteAt (refAdd s.cfg.addrBits p k) = some v) ∧
  s.agenda = (List.replicate vs.length [Turn.meng b, Turn.busComplete b]).flatten ++ ts ∧
  s.answers = List.replicate (2 * vs.length) (quietDraw false 0) ++ ds

/-- A state about to send the two bytes that `r` points at. -/
def sendsTwo (r : Bus) : State :=
  { two r slaveBus with
    mem := [(0x1000, 0x60), (0x1001, 0x61)]
    agenda := [.meng 0, .busComplete 0, .meng 0, .busComplete 0], answers := List.replicate 4 (quietDraw false 0) }

theorem two_bytes {P : Nat → Byte → Prop} {x y : Byte} (h0 : P 0 x) (h1 : P 1 y) (k : Nat) (v : Byte)
    (h : [x, y][k]? = some v) : P k v := by
  match k with
  | 0 => exact Option.some.inj h ▸ h0
  | 1 => exact Option.some.inj h ▸ h1
  | n + 2 => simp at h

/-- The first byte of a caller's buffer, a later one of WCELL, and the end of the phase. -/
theorem witness_WritePhaseSendsTheBufferInOrder :
    (∃ s r, writePhase [0x60, 0x61] (.mem 0x1000) 0 s r [] [] ∧ r.pstate = .addressDone) ∧
    (∃ s r, writePhase [0x04, 0x60] (.wcell 0 1) 0 s r [] [] ∧ r.pstate = .writeInProgress) ∧
    (∃ s r, writePhase [] (.rcell 0 1) 0 s r [] [] ∧ r.pstate = .writeInProgress) :=
  ⟨⟨sendsTwo { liveBus with wrem := 2, pstate := .addressDone }, _, ⟨rfl, by decide, rfl, ⟨rfl, rfl, rfl, rfl, rfl⟩, rfl, rfl,
      .inl rfl, rfl, rfl, rfl, .inr (.inr rfl), two_bytes (by decide) (by decide), rfl, rfl⟩, rfl⟩,
   ⟨sendsTwo { liveBus with
        wrem := 2, wptr := some (.wcell 0 1), wcell := [some 0, some 0x04, some 0x60], handed := [⟨.wcell 0 0, 3⟩] }, _,
      ⟨rfl, by decide, rfl, ⟨rfl, rfl, rfl, rfl, rfl⟩, rfl, rfl, .inr rfl, rfl, rfl, rfl, .inr (.inr rfl),
        two_bytes (by decide) (by decide), rfl, rfl⟩, rfl⟩,
   ⟨two { liveBus with wptr := some (.rcell 0 1) } slaveBus, _, ⟨rfl, by decide, rfl, ⟨rfl, rfl, rfl, rfl, rfl⟩, rfl, rfl,
      .inr rfl, rfl, rfl, rfl, .inl rfl, fun k v h => by simp at h, rfl, rfl⟩, rfl⟩⟩

theorem witness_ReadPhaseFillsTheBufferInOrder : ∃ (vs : List Byte) (base b : Nat) (s : State) (r : Bus) (ts : List Turn)
    (ds : List Answer), s.halted = false ∧ .meng b ∉ s.stuck ∧ Memory.wf s.mem = true ∧ s.buses[b]? = some r ∧ r.midTransfer ∧ r.op = .read ∧
    r.pstate = .readInProgress ∧ r.rrem = vs.length ∧ r.rdest = some (.mem base) ∧
    r.rptr = some (.mem ((base + 1) % 2 ^ s.cfg.addrBits)) ∧ base < 2 ^ s.cfg.addrBits ∧ vs.length < 2 ^ s.cfg.addrBits ∧
    (vs = [] ∨ canIssue s.cfg (.ackbit false) r.wire) ∧
    (∀ k, k < vs.length → admitted s.cfg b r (.mem ((base + k) % 2 ^ s.cfg.addrBits)) = true) ∧
    s.agenda = (List.replicate vs.length [Turn.meng b, Turn.busComplete b, Turn.meng b, Turn.busComplete b]).flatten ++ ts ∧
    s.answers = (vs.map fun v => [quietDraw false 0, quietDraw false 0, quietDraw false v]).flatten ++ ds :=
  ⟨[0x34], 0x2000, 0, { two { latchBus with rrem := 1, rptr := some (.mem 0x2001) } slaveBus with
      agenda := [.meng 0, .busComplete 0, .meng 0, .busComplete 0]
      answers := [quietDraw false 0, quietDraw false 0, quietDraw false 0x34] },
    _, [], [], rfl, by decide, rfl, rfl, ⟨rfl, rfl, rfl, rfl, rfl⟩, rfl, rfl, rfl, rfl, rfl, by decide, by decide,
    .inr fun _ => rfl, by decide, rfl, rfl⟩

end Sys2Proof.Tests
end

/-! SUPPORT. Proofs of the family 00_scope.md: the HOST's step runs or refuses the command its program issues (R13; 30 R96, R97), and
WRITE with no byte to read stops (R11; 20 R62; 40 R119). -/

namespace Sys2Proof.Machine

/-! ### The HOST's step -/

theorem step_turn {s : State} {t : Turn} (hh : s.halted = false) (ht : s.turn = t) :
    step s = mapNext State.leave (runTurn t s.popTurn) := by
  simp [step, hh, ht]

theorem runCmd_decoded {c : CmdWord} {i : Instr} {s : State} (h : decodeCmd s.cfg.limits c = .ok i) :
    runCmd c s = exec i s := by
  simp [runCmd, h]

theorem runCmd_refused {c : CmdWord} {e : Reason} {s : State} (h : decodeCmd s.cfg.limits c = .error e) :
    runCmd c s = .next (s.refuse e) := by
  simp [runCmd, h]

theorem hostStep_cmd {s : State} {c : CmdWord} {rest : List Act} (hc : s.hostCall = none)
    (hp : s.program = .cmd c :: rest) : hostStep s = runCmd c { s with program := rest } := by
  simp [hostStep, hc, hp]

/-- HOST's turn outside a blocking call issues the command at the head of its program, on the mainline. -/
theorem step_hostCmd {s : State} {c : CmdWord} {rest : List Act} (hh : s.halted = false) (ht : s.turn = .host)
    (hc : s.hostCall = none) (hp : s.program = .cmd c :: rest) :
    step s = mapNext State.leave (runCmd c { s.popTurn with program := rest, actor := .host }) := by
  have hissue : hostStep (s.popTurn.enter .host) = runCmd c { s.popTurn.enter .host with program := rest } :=
    hostStep_cmd (by simpa using hc) (by simpa using hp)
  rw [step_turn hh ht]
  exact congrArg (mapNext State.leave) hissue

/-- Settles O15: the step is `runCmd` of the command, which decodes under the same limits as before the turn was taken. -/
theorem stepRunsTheIssuedCommand : Obligations.StepRunsTheIssuedCommand := by
  intro s c rest hh ht hc hp
  rw [step_hostCmd hh ht hc hp]
  constructor
  · intro i hi
    rw [runCmd_decoded (by simpa using hi)]
  · intro e he
    rw [runCmd_refused (by simpa using he)]
    simp [mapNext, State.refuse, State.leave]

/-! ### WRITE with no byte to read -/

/-- WRITE acts on the running agent's bus; with no reference that agent is stuck after the write of OP. -/
theorem exec_write_noRef {s : State} {b : Nat} {r : Bus} (h : s.runsOn b r) :
    exec (.write none) s = .next ((s.setBus b { r with op := .write }).stick s.actor) := by
  show execWrite none s = _
  rw [execWrite, onBus_runs h]

/-- An admitted reference to a cell that holds ⊥ raises F_UNWRITTEN after the write of OP. -/
theorem exec_write_unwritten {s : State} {b : Nat} {r : Bus} {a : Ref} (h : s.runsOn b r)
    (ha : admitted s.cfg b r a = true) (hv : s.byteAt a = none) :
    exec (.write (some a)) s = .next ((s.setBus b { r with op := .write }).raiseFault 119 .unwritten) := by
  show execWrite (some a) s = _
  rw [execWrite, onBus_runs h]
  simp [ha, hv]

/-- Settles O34: both stops leave the write of OP and add the stuck agent, or the fault and its event. -/
theorem writeWithNoByteToReadStops : Obligations.WriteWithNoByteToReadStops :=
  fun _ _ _ h => ⟨exec_write_noRef h, fun _ ha hv => exec_write_unwritten h ha hv⟩

end Sys2Proof.Machine

/-! SUPPORT. Proofs of the family 10_state.md: everything one step can do to a bus's record is said once (`step_changes`), and the
invariants of every step (R44, R46, R47, R51; 60 R247) are read off from it. -/

namespace Sys2Proof.Machine

/-! ### The part of a bus's record that the invariants read -/

/-- The record with every field blanked that the invariants of R46, R47 and 60 R247 do not read. -/
def Bus.control (r : Bus) : Bus :=
  { (default : Bus) with
    busy := r.busy, cont := r.cont, inflight := r.inflight, wire := r.wire, mif := r.mif
    senabled := r.senabled, sif := r.sif, sclhold := r.sclhold }

theorem Bus.control_setWire (c : Cfg) (w : Wire) (r : Bus) :
    (r.setWire c w).control = { r.control with wire := (r.setWire c w).wire } := by
  unfold Bus.setWire; split <;> rfl

/-- What `State.Inv` asks of the record of a bus. -/
def Bus.ok (c : Cfg) (role : Role) (r : Bus) : Prop :=
  r.busyMatchesCont ∧ r.flightOk c ∧ r.roleOk role ∧ r.stretchOk

theorem State.inv_iff (s : State) :
    s.Inv ↔ Memory.wf s.mem = true ∧ s.everyBus fun b r => r.ok s.cfg (roleOf s.cfg b) := Iff.rfl

theorem Bus.ok_control (c : Cfg) (role : Role) (r : Bus) : r.control.ok c role ↔ r.ok c role := Iff.rfl

theorem Bus.oneInFlight_control (r : Bus) : r.control.oneInFlight ↔ r.oneInFlight := Iff.rfl

/-! ### What a command can do to a bus's record -/

/-- One change a command makes. `mayReset` says whether a reset is among the commands (70 R285). -/
inductive Bus.Edit (mayReset : Prop) (c : Cfg) (role : Role) (k : Bus) : Bus → Prop
  /-- A transaction starts, and HW_START is in flight unless it is out of sequence (40 R110, R129). -/
  | start (cont : ContId) (flight : Option (BitVec 11)) (master : role = .master) (idle : k.busy = false)
      (issued : flight = k.inflight ∨ ∃ op : HwOp, canIssue c op k.wire ∧ flight = some op.word) :
      Edit mayReset c role k { k with busy := true, cont := some cont, inflight := flight }
  /-- M_RESET with nothing in flight or pending (40 R112). -/
  | reset (allowed : mayReset) (master : role = .master) (landed : k.inflight = none) (served : k.mif = false) :
      Edit mayReset c role k k.deregister
  /-- S_INIT or S_DISABLE (42 R200, R201). -/
  | slave (on : Bool) (slave : role = .slave) :
      Edit mayReset c role k { k with senabled := on, sif := false, sclhold := false }

/-- What a run of commands does to a bus's record. -/
def Bus.Edits (mayReset : Prop) (c : Cfg) (role : Role) : Bus → Bus → Prop :=
  Relation.ReflTransGen (Bus.Edit mayReset c role)

/-- What dispatching a continuation's result does to the running bus's record (40 R117 to R126). -/
inductive Bus.PrimEdit (c : Cfg) (k : Bus) : Bus → Prop
  | quiet : PrimEdit c k k
  | issue (op : HwOp) (legal : canIssue c op k.wire) : PrimEdit c k { k with inflight := some op.word }
  | done : PrimEdit c k k.deregister

/-- The clock is released, or not (42 R212). -/
def Bus.ReleaseEdit (_ : Cfg) (k v : Bus) : Prop := v = k ∨ v = { k with sclhold := false }

/-- What one step does to a bus's record. -/
inductive Bus.TurnEdit (mayReset : Prop) (c : Cfg) (role : Role) (k : Bus) : Bus → Prop
  /-- Nothing, or commands: the HOST's, or those of the code another bus's handler upcalls. -/
  | commands {u : Bus} (edits : Bus.Edits True c role k u) : TurnEdit mayReset c role k u
  /-- BUS(b): the operation in flight completes (40 R130). -/
  | complete (w : Wire) (flying : k.inflight.isSome = true) :
      TurnEdit mayReset c role k { k with inflight := none, mif := true, wire := w }
  /-- BUS(b): a bus fault (40 R137). -/
  | busFault (w : Wire) (flying : k.inflight.isSome = true) :
      TurnEdit mayReset c role k { k with inflight := none, wire := w }
  /-- MENG(b): the interrupt is taken, upcalled code runs, the continuation's result is dispatched (40 R113 to R117). -/
  | resume {u v : Bus} (pending : k.mif = true) (edits : Bus.Edits mayReset c role { k with mif := false } u)
      (prim : Bus.PrimEdit c u v) : TurnEdit mayReset c role k v
  /-- SENG(b): the interrupt is taken, upcalled code runs, the clock is released unless the system halted (42 R205, R212). -/
  | serve {u v : Bus} (pending : k.sif = true) (enabled : k.senabled = true)
      (edits : Bus.Edits mayReset c role { k with sif := false } u) (released : Bus.ReleaseEdit c u v) :
      TurnEdit mayReset c role k v
  /-- RMASTER(b): an event holds the clock and raises the slave interrupt (42 R204). -/
  | event (enabled : k.senabled = true) : TurnEdit mayReset c role k { k with sclhold := true, sif := true }

/-! ### What the changes keep -/

theorem Bus.Edits.keeps {mayReset : Prop} {c : Cfg} {role : Role} {P : Bus → Prop} {k u : Bus}
    (h : Bus.Edits mayReset c role k u) (hP : ∀ x y, Bus.Edit mayReset c role x y → P x → P y) (hk : P k) : P u := by
  induction h with
  | refl => exact hk
  | tail _ e ih => exact hP _ _ e ih

/-- A word that was issued in sequence is one that may be in flight. -/
theorem Bus.flightOk_issue {c : Cfg} {k : Bus} {op : HwOp} (h : canIssue c op k.wire) :
    ({ k with inflight := some op.word } : Bus).flightOk c := by
  intro w hw
  obtain rfl : op.word = w := Option.some.inj hw
  exact ⟨op, HwOp.ofWord_word op, h⟩

theorem Bus.flightOk_landed {c : Cfg} {k : Bus} (h : k.inflight = none) : k.flightOk c := by
  intro w hw
  simp [h] at hw

theorem Bus.Edit.keeps_ok {mayReset : Prop} {c : Cfg} {role : Role} (k u : Bus) (h : Bus.Edit mayReset c role k u)
    (hk : k.ok c role) : u.ok c role := by
  obtain ⟨hbusy, hflight, hrole, hstretch⟩ := hk
  cases h with
  | start cont flight master idle issued =>
    subst master
    refine ⟨rfl, ?_, hrole, hstretch⟩
    obtain rfl | ⟨op, legal, rfl⟩ := issued
    · exact hflight
    · exact Bus.flightOk_issue legal
  | reset _ master landed _ =>
    subst master
    exact ⟨rfl, Bus.flightOk_landed landed, hrole, hstretch⟩
  | slave on slave =>
    subst slave
    exact ⟨hbusy, hflight, hrole, fun h => by simp at h⟩

/-- No command raises the slave interrupt. -/
theorem Bus.Edit.keeps_sif {mayReset : Prop} {c : Cfg} {role : Role} (k u : Bus) (h : Bus.Edit mayReset c role k u)
    (hk : k.sif = false) : u.sif = false := by
  cases h with
  | start => exact hk
  | reset => exact hk
  | slave => rfl

theorem Bus.Edit.keeps_oneInFlight {mayReset : Prop} {c : Cfg} {role : Role} (k u : Bus)
    (h : Bus.Edit mayReset c role k u) (hk : k.oneInFlight) : u.oneInFlight := by
  cases h with
  | start cont flight _ idle _ =>
    have served : k.mif = false := (hk.2 idle).2
    exact ⟨fun pending => by simp [served] at pending, fun h => by simp at h⟩
  | reset _ _ landed served => exact ⟨fun _ => landed, fun _ => ⟨landed, served⟩⟩
  | slave => exact hk

/-- MENG(b) has taken the interrupt of a live transaction: nothing is in flight or pending. -/
def Bus.midHandler (k : Bus) : Prop := k.busy = true ∧ k.inflight = none ∧ k.mif = false

/-- Without a reset the transaction stays alive while upcalled code runs (70 R285). -/
theorem Bus.Edit.keeps_midHandler {c : Cfg} {role : Role} (k u : Bus) (h : Bus.Edit False c role k u)
    (hk : k.midHandler) : u.midHandler := by
  cases h with
  | start _ _ _ idle _ => simp [hk.1] at idle
  | reset allowed => exact allowed.elim
  | slave => exact hk

theorem Bus.PrimEdit.keeps_ok {c : Cfg} {k u : Bus} (h : Bus.PrimEdit c k u) (hk : k.ok c .master) : u.ok c .master := by
  obtain ⟨hbusy, hflight, hrole, hstretch⟩ := hk
  cases h with
  | quiet => exact ⟨hbusy, hflight, hrole, hstretch⟩
  | issue op legal => exact ⟨hbusy, Bus.flightOk_issue legal, hrole, hstretch⟩
  | done => exact ⟨rfl, hflight, hrole, hstretch⟩

theorem Bus.PrimEdit.oneInFlight_of_midHandler {c : Cfg} {k u : Bus} (h : Bus.PrimEdit c k u) (hk : k.midHandler) :
    u.oneInFlight := by
  obtain ⟨alive, landed, served⟩ := hk
  cases h with
  | quiet => exact ⟨fun _ => landed, fun _ => ⟨landed, served⟩⟩
  | issue => exact ⟨fun pending => by simp [served] at pending, fun idle => by simp [alive] at idle⟩
  | done => exact ⟨fun _ => landed, fun _ => ⟨landed, served⟩⟩

/-- Where the master engine is alive the bus is no slave (60 R247). -/
theorem Bus.ok.role_master {c : Cfg} {role : Role} {k : Bus} (hk : k.ok c role)
    (h : k.mif = true ∨ k.inflight.isSome = true) : role = .master := by
  obtain ⟨-, -, hrole, -⟩ := hk
  cases role with
  | master => rfl
  | slave =>
    obtain ⟨-, landed, served⟩ := hrole
    simp [landed, served] at h

/-- Where the slave is on the bus is no master (60 R247). -/
theorem Bus.ok.role_slave {c : Cfg} {role : Role} {k : Bus} (hk : k.ok c role) (h : k.senabled = true) :
    role = .slave := by
  obtain ⟨-, -, hrole, -⟩ := hk
  cases role with
  | master =>
    obtain ⟨off, -, -⟩ := hrole
    simp [off] at h
  | slave => rfl

theorem Bus.TurnEdit.keeps_ok {mayReset : Prop} {c : Cfg} {role : Role} {k v : Bus}
    (h : Bus.TurnEdit mayReset c role k v) (hk : k.ok c role) : v.ok c role := by
  cases h with
  | commands edits => exact edits.keeps Bus.Edit.keeps_ok hk
  | complete w flying =>
    obtain rfl := hk.role_master (.inr flying)
    obtain ⟨hbusy, -, hrole, hstretch⟩ := hk
    exact ⟨hbusy, Bus.flightOk_landed rfl, hrole, hstretch⟩
  | busFault w flying =>
    obtain rfl := hk.role_master (.inr flying)
    obtain ⟨hbusy, -, hrole, hstretch⟩ := hk
    exact ⟨hbusy, Bus.flightOk_landed rfl, hrole, hstretch⟩
  | resume pending edits prim =>
    obtain rfl := hk.role_master (.inl pending)
    have hcleared : ({ k with mif := false } : Bus).ok c .master := hk
    exact prim.keeps_ok (edits.keeps Bus.Edit.keeps_ok hcleared)
  | @serve u _ pending enabled edits released =>
    obtain rfl := hk.role_slave enabled
    obtain ⟨hbusy, hflight, hrole, -⟩ := hk
    have hcleared : ({ k with sif := false } : Bus).ok c .slave := ⟨hbusy, hflight, hrole, fun h => by simp at h⟩
    have hu : u.ok c .slave := edits.keeps Bus.Edit.keeps_ok hcleared
    have hsif : u.sif = false := edits.keeps (P := fun k => k.sif = false) Bus.Edit.keeps_sif rfl
    obtain rfl | rfl := released
    · exact hu
    · obtain ⟨hbusy, hflight, hrole, -⟩ := hu
      exact ⟨hbusy, hflight, hrole, fun h => by simp [hsif] at h⟩
  | event enabled =>
    obtain rfl := hk.role_slave enabled
    obtain ⟨hbusy, hflight, hrole, -⟩ := hk
    exact ⟨hbusy, hflight, hrole, fun _ => rfl⟩

theorem Bus.TurnEdit.keeps_oneInFlight {c : Cfg} {role : Role} {k v : Bus} (h : Bus.TurnEdit False c role k v)
    (hk : k.oneInFlight) : v.oneInFlight := by
  have alive (flies : k.inflight.isSome = true ∨ k.mif = true) : k.busy = true := by
    by_contra idle
    obtain ⟨landed, served⟩ := hk.2 (by simpa using idle)
    simp [landed, served] at flies
  cases h with
  | commands edits => exact edits.keeps Bus.Edit.keeps_oneInFlight hk
  | complete w flying => exact ⟨fun _ => rfl, fun idle => by simp [alive (.inl flying)] at idle⟩
  | busFault w flying => exact ⟨fun _ => rfl, fun idle => ⟨rfl, (hk.2 idle).2⟩⟩
  | resume pending edits prim =>
    have hcleared : ({ k with mif := false } : Bus).midHandler := ⟨alive (.inr pending), hk.1 pending, rfl⟩
    exact prim.oneInFlight_of_midHandler (edits.keeps Bus.Edit.keeps_midHandler hcleared)
  | @serve u _ pending enabled edits released =>
    have hcleared : ({ k with sif := false } : Bus).oneInFlight := hk
    have hu : u.oneInFlight := edits.keeps Bus.Edit.keeps_oneInFlight hcleared
    obtain rfl | rfl := released
    · exact hu
    · exact hu
  | event => exact hk

/-! ### What a piece of a step does to the state -/

/-- How bus `b`'s control part changes, under a configuration. -/
abbrev BusRel := Cfg → Nat → Bus → Bus → Prop

/-- Bus `b` changes by `R`, every other bus stays. -/
def atBus (b : Nat) (R : Cfg → Bus → Bus → Prop) : BusRel :=
  fun c b' k u => if b' = b then R c k u else u = k

theorem atBus_same {b : Nat} {R : Cfg → Bus → Bus → Prop} {c : Cfg} {k u : Bus} : atBus b R c b k u ↔ R c k u := by
  simp [atBus]

theorem atBus_other {b b' : Nat} {R : Cfg → Bus → Bus → Prop} {c : Cfg} {k u : Bus} (h : b' ≠ b) :
    atBus b R c b' k u ↔ u = k := by
  simp [atBus, h]

theorem atBus_refl {b : Nat} {R : Cfg → Bus → Bus → Prop} (hR : ∀ c k, R c k k) (c : Cfg) (b' : Nat) (k : Bus) :
    atBus b R c b' k k := by
  by_cases hb : b' = b
  · subst hb; exact atBus_same.2 (hR c k)
  · exact (atBus_other hb).2 rfl

/-- The configuration and the number of slots stay, the trace grows at its end, memory stays canonical, and each bus changes by
`E`. -/
structure State.Changed (E : BusRel) (s t : State) : Prop where
  cfg : t.cfg = s.cfg
  trace : s.trace <+: t.trace
  mem : Memory.wf s.mem = true → Memory.wf t.mem = true
  length : t.buses.length = s.buses.length
  bus : ∀ b r', t.buses[b]? = some r' → ∃ r, s.buses[b]? = some r ∧ E s.cfg b r.control r'.control

/-- No control field of any bus changes. -/
abbrev State.Untouched : State → State → Prop := State.Changed fun _ _ k u => u = k

/-- Each bus changes by commands alone. -/
abbrev State.Edited (mayReset : Prop) : State → State → Prop :=
  State.Changed fun c b => Bus.Edits mayReset c (roleOf c b)

/-- Each bus changes as one step changes it. -/
abbrev State.Turned (mayReset : Prop) : State → State → Prop :=
  State.Changed fun c b => Bus.TurnEdit mayReset c (roleOf c b)

namespace State.Changed

variable {E F G : BusRel} {s t u : State}

theorem trans (h : State.Changed E s t) (h' : State.Changed F t u)
    (hG : ∀ c b x y z, E c b x y → F c b y z → G c b x z) : State.Changed G s u where
  cfg := h'.cfg.trans h.cfg
  trace := h.trace.trans h'.trace
  mem hm := h'.mem (h.mem hm)
  length := h'.length.trans h.length
  bus b r'' hr'' := by
    obtain ⟨r', hr', hF⟩ := h'.bus b r'' hr''
    obtain ⟨r, hr, hE⟩ := h.bus b r' hr'
    exact ⟨r, hr, hG _ _ _ _ _ hE (h.cfg ▸ hF)⟩

theorem mono (h : State.Changed E s t) (hG : ∀ c b x y, E c b x y → G c b x y) : State.Changed G s t where
  cfg := h.cfg
  trace := h.trace
  mem := h.mem
  length := h.length
  bus b r' hr' := by
    obtain ⟨r, hr, hE⟩ := h.bus b r' hr'
    exact ⟨r, hr, hG _ _ _ _ hE⟩

theorem after (h : State.Changed E s t) (h' : State.Untouched t u) : State.Changed E s u :=
  h.trans h' fun _ _ _ _ _ hE hz => hz ▸ hE

theorem before (h : State.Untouched s t) (h' : State.Changed E t u) : State.Changed E s u :=
  h.trans h' fun _ _ _ _ _ hy hE => hy ▸ hE

/-- A change that leaves the records alone is one by every reflexive relation. -/
theorem of_untouched (hE : ∀ c b k, E c b k k) (h : State.Untouched s t) : State.Changed E s t :=
  h.mono fun c b x _ hy => hy ▸ hE c b x

theorem setBus {b : Nat} {r r' : Bus} (hr : s.buses[b]? = some r) (hE : ∀ c b', b' ≠ b → ∀ k, E c b' k k)
    (hr' : E s.cfg b r.control r'.control) : State.Changed E s (s.setBus b r') where
  cfg := rfl
  trace := List.prefix_rfl
  mem := id
  length := by simp
  bus b' q hq := by
    by_cases hb : b = b'
    · subst hb
      obtain rfl : r' = q := Option.some.inj ((State.setBus_get hr).symm.trans hq)
      exact ⟨r, hr, hr'⟩
    · rw [State.setBus_buses, getElem?_set_other hb] at hq
      exact ⟨q, hq, hE _ _ (Ne.symm hb) _⟩

theorem setAtBus {b : Nat} {R : Cfg → Bus → Bus → Prop} {r r' : Bus} (hr : s.buses[b]? = some r)
    (hr' : R s.cfg r.control r'.control) : State.Changed (atBus b R) s (s.setBus b r') :=
  setBus hr (fun _ _ hb _ => (atBus_other hb).2 rfl) (atBus_same.2 hr')

end State.Changed

/-! ### Operations that touch no control field -/

namespace State.Untouched

variable {s t u : State}

/-- The records stay as they are. -/
theorem of_buses (hcfg : t.cfg = s.cfg) (htrace : s.trace <+: t.trace)
    (hmem : Memory.wf s.mem = true → Memory.wf t.mem = true) (hbuses : t.buses = s.buses) : State.Untouched s t where
  cfg := hcfg
  trace := htrace
  mem := hmem
  length := by rw [hbuses]
  bus _ r' hr' := ⟨r', hbuses ▸ hr', rfl⟩

theorem refl (s : State) : State.Untouched s s := of_buses rfl List.prefix_rfl id rfl

theorem trans (h : State.Untouched s t) (h' : State.Untouched t u) : State.Untouched s u :=
  State.Changed.after h h'

theorem record (e : Event) (s : State) : State.Untouched s (s.record e) :=
  of_buses rfl (List.prefix_append _ _) id rfl

theorem noteReads (l : List (Ref × Byte)) (s : State) : State.Untouched s (s.noteReads l) :=
  of_buses rfl (List.prefix_append _ _) id rfl

theorem raiseFatal (site : Nat) (code : FatalCode) (info : Int) (s : State) :
    State.Untouched s (s.raiseFatal site code info) :=
  of_buses rfl (List.prefix_append _ _) id rfl

theorem raiseFault (site : Nat) (code : ModelFault) (s : State) : State.Untouched s (s.raiseFault site code) :=
  of_buses rfl (List.prefix_append _ _) id rfl

theorem refuse (reason : Reason) (s : State) : State.Untouched s (s.refuse reason) :=
  of_buses rfl (List.prefix_append _ _) id rfl

theorem hostStore (a : Nat) (v : Byte) (s : State) : State.Untouched s (s.hostStore a v) :=
  of_buses rfl List.prefix_rfl (s.hostStore_mem_wf a v) rfl

theorem enter (a : Agent) (s : State) : State.Untouched s (s.enter a) := of_buses rfl List.prefix_rfl id rfl

theorem leave (s : State) : State.Untouched s s.leave := of_buses rfl List.prefix_rfl id rfl

theorem stick (a : Agent) (s : State) : State.Untouched s (s.stick a) := of_buses rfl List.prefix_rfl id rfl

theorem popAnswer (s : State) : State.Untouched s s.popAnswer := of_buses (by simp) (by simp) (by simp) (by simp)

theorem popTurn (s : State) : State.Untouched s s.popTurn := of_buses (by simp) (by simp) (by simp) (by simp)

theorem setBus {b : Nat} {r r' : Bus} (hr : s.buses[b]? = some r) (hr' : r'.control = r.control) :
    State.Untouched s (s.setBus b r') := State.Changed.setBus hr (fun _ _ _ _ => rfl) hr'

theorem modBus (b : Nat) {g : Bus → Bus} (s : State) (hg : ∀ r, (g r).control = r.control) :
    State.Untouched s (s.modBus b g) := by
  cases hr : s.buses[b]? with
  | none => simpa [State.modBus, hr] using refl s
  | some r =>
    rw [State.modBus_of_get hr]
    exact setBus hr (hg r)

theorem setByteAt (ref : Ref) (v : Byte) (s : State) : State.Untouched s (s.setByteAt ref v) := by
  cases ref with
  | mem a => exact of_buses rfl List.prefix_rfl (s.setByteAt_mem_wf (.mem a) v) rfl
  | addrByte b => exact modBus b s fun _ => rfl
  | rcell b i =>
    rw [State.setByteAt]
    split
    · exact modBus b s fun _ => rfl
    · exact refl s
  | wcell b i => exact modBus b s fun _ => rfl

theorem memWrite (ref : Ref) (v : Byte) (s : State) : State.Untouched s (s.memWrite ref v) :=
  (setByteAt ref v s).trans (record _ _)

end State.Untouched

/-! ### Commands' changes in sequence -/

namespace State.Edited

variable {mayReset : Prop} {s t u : State}

theorem of_untouched (h : State.Untouched s t) : State.Edited mayReset s t :=
  State.Changed.of_untouched (fun _ _ _ => .refl) h

theorem trans (h : State.Edited mayReset s t) (h' : State.Edited mayReset t u) : State.Edited mayReset s u :=
  State.Changed.trans h h' fun _ _ _ _ _ hE hF => Relation.ReflTransGen.trans hE hF

theorem setBus {b : Nat} {r r' : Bus} (hr : s.buses[b]? = some r)
    (hr' : Bus.Edit mayReset s.cfg (roleOf s.cfg b) r.control r'.control) : State.Edited mayReset s (s.setBus b r') :=
  State.Changed.setBus hr (fun _ _ _ _ => .refl) (.single hr')

end State.Edited

theorem Bus.Edit.allowReset {mayReset : Prop} {c : Cfg} {role : Role} {k u : Bus} (h : Bus.Edit mayReset c role k u) :
    Bus.Edit True c role k u := by
  cases h with
  | start cont flight master idle issued => exact .start cont flight master idle issued
  | reset allowed master landed served => exact .reset trivial master landed served
  | slave on slave => exact .slave on slave

theorem Bus.Edits.allowReset {mayReset : Prop} {c : Cfg} {role : Role} {k u : Bus}
    (h : Bus.Edits mayReset c role k u) : Bus.Edits True c role k u :=
  Relation.ReflTransGen.mono (fun _ _ => Bus.Edit.allowReset) _ _ h

theorem State.Edited.turned {mayReset : Prop} {s t : State} (h : State.Edited mayReset s t) :
    State.Turned mayReset s t :=
  State.Changed.mono h fun _ _ _ _ hE => .commands hE.allowReset

/-! ### Outcomes -/

/-- An outcome whose next state meets `Q` and which is not the fault `halted`. -/
def Yields (Q : State → Prop) : Out → Prop
  | .next t => Q t
  | .fault e => e ≠ .halted
  | .refused _ => True

@[simp] theorem yields_next {Q : State → Prop} {t : State} : Yields Q (.next t) ↔ Q t := Iff.rfl
@[simp] theorem yields_fault {Q : State → Prop} {e : Fault} : Yields Q (.fault e) ↔ e ≠ .halted := Iff.rfl
@[simp] theorem yields_refused {Q : State → Prop} {e : Refusal} : Yields Q (.refused e) := trivial

theorem Yields.mono {Q Q' : State → Prop} {o : Out} (h : Yields Q o) (hQ : ∀ t, Q t → Q' t) : Yields Q' o := by
  cases o with
  | next t => exact hQ t h
  | fault e => exact h
  | refused e => trivial

theorem Yields.andThen {Q Q' : State → Prop} {o : Out} {k : State → Out} (h : Yields Q o) (hQ : ∀ t, Q t → Q' t)
    (hk : ∀ t, Q t → Yields Q' (k t)) : Yields Q' (andThen o k) := by
  cases o with
  | next t =>
    rw [Machine.andThen]
    split
    · exact hQ t h
    · exact hk t h
  | fault e => exact h
  | refused e => trivial

theorem Yields.mapNext {Q Q' : State → Prop} {f : State → State} {o : Out} (h : Yields Q o) (hQ : ∀ t, Q t → Q' (f t)) :
    Yields Q' (mapNext f o) := by
  cases o with
  | next t => exact hQ t h
  | fault e => exact h
  | refused e => trivial

/-! ### What commands do -/

/-- What commands leave: a state reached by commands, in the same agent's step and with the same draws to come. -/
structure State.Ran (mayReset : Prop) (s t : State) : Prop where
  edited : State.Edited mayReset s t
  actor : t.actor = s.actor
  answers : t.answers = s.answers
  drawn : t.drawn = s.drawn

namespace State.Ran

variable {mayReset : Prop} {s t u : State}

theorem refl (s : State) : State.Ran mayReset s s := ⟨.of_untouched (.refl s), rfl, rfl, rfl⟩

theorem trans (h : State.Ran mayReset s t) (h' : State.Ran mayReset t u) : State.Ran mayReset s u where
  edited := h.edited.trans h'.edited
  actor := h'.actor.trans h.actor
  answers := h'.answers.trans h.answers
  drawn := h'.drawn.trans h.drawn

theorem answer (h : State.Ran mayReset s t) : t.answer = s.answer := State.answer_congr h.answers h.drawn

theorem record (e : Event) (s : State) : State.Ran mayReset s (s.record e) :=
  ⟨.of_untouched (.record e s), rfl, rfl, rfl⟩

theorem raiseFatal (site : Nat) (code : FatalCode) (info : Int) (s : State) :
    State.Ran mayReset s (s.raiseFatal site code info) := ⟨.of_untouched (.raiseFatal site code info s), rfl, rfl, rfl⟩

theorem raiseFault (site : Nat) (code : ModelFault) (s : State) : State.Ran mayReset s (s.raiseFault site code) :=
  ⟨.of_untouched (.raiseFault site code s), rfl, rfl, rfl⟩

theorem refuse (reason : Reason) (s : State) : State.Ran mayReset s (s.refuse reason) :=
  ⟨.of_untouched (.refuse reason s), rfl, rfl, rfl⟩

theorem hostStore (a : Nat) (v : Byte) (s : State) : State.Ran mayReset s (s.hostStore a v) :=
  ⟨.of_untouched (.hostStore a v s), rfl, rfl, rfl⟩

theorem noteReads (l : List (Ref × Byte)) (s : State) : State.Ran mayReset s (s.noteReads l) :=
  ⟨.of_untouched (.noteReads l s), rfl, rfl, rfl⟩

/-- The call the HOST is in, and what a command returned, are no bus's. -/
theorem host (call : Option Nat) (ret : Option Bool) (s : State) :
    State.Ran mayReset s { s with hostCall := call, ret := ret } :=
  ⟨.of_untouched (.of_buses rfl List.prefix_rfl id rfl), rfl, rfl, rfl⟩

theorem setBus {b : Nat} {r r' : Bus} (hr : s.buses[b]? = some r)
    (hr' : Bus.Edit mayReset s.cfg (roleOf s.cfg b) r.control r'.control) : State.Ran mayReset s (s.setBus b r') :=
  ⟨.setBus hr hr', rfl, rfl, rfl⟩

theorem start {b : Nat} {r q : Bus} {cont : ContId} {ud : UData} {handed : List Buf} (hr : s.buses[b]? = some r)
    (hrole : roleOf s.cfg b = .master) (idle : r.busy = false) (hq : q.control = r.control) :
    State.Ran mayReset s (s.start b q cont ud handed) := by
  have idle' : q.control.busy = false := hq ▸ idle
  obtain ⟨legal, h⟩ | ⟨-, -, h⟩ := State.issue_cases b { q.register cont ud handed with op := .none } .start s
  · rw [State.start, h]
    refine (setBus hr ?_).trans (record _ _)
    rw [← hq]
    exact .start cont (some HwOp.start.word) hrole idle' (.inr ⟨.start, legal, rfl⟩)
  · rw [State.start, h]
    refine (setBus hr ?_).trans (raiseFault _ _ _)
    rw [← hq]
    exact .start cont q.inflight hrole idle' (.inl rfl)

end State.Ran

/-! #### The ten commands -/

section
variable {mayReset : Prop} {s : State}

/-- The checks for the bus and its role raise, refuse, or let the command go on. -/
theorem withBus_ran {site : Nat} {role : Role} {bus : BusField} {k : Nat → Bus → Out}
    (hk : ∀ r, s.busIs bus role r → Yields (State.Ran mayReset s) (k bus.toNat r)) :
    Yields (State.Ran mayReset s) (withBus site role bus s k) := by
  obtain h | h | ⟨r, hr, h⟩ := withBus_cases site role bus s k
  · rw [h]; exact State.Ran.raiseFatal _ _ _ s
  · rw [h]; exact State.Ran.refuse _ s
  · rw [h]; exact hk r hr

/-- The checks of a transfer raise, refuse, or let it go on with an idle bus. -/
theorem withTransfer_ran {site : Nat} {bus : BusField} {wlen rlen : Nat} {k : Nat → Bus → Out}
    (hk : ∀ r, s.busIs bus .master r → r.busy = false → Yields (State.Ran mayReset s) (k bus.toNat r)) :
    Yields (State.Ran mayReset s) (withTransfer site bus wlen rlen s k) := by
  obtain ⟨code, info, h⟩ | h | ⟨r, hr, idle, -, h⟩ := withTransfer_cases site bus wlen rlen s k
  · rw [h]; exact State.Ran.raiseFatal _ _ _ s
  · rw [h]; exact State.Ran.refuse _ s
  · rw [h]; exact hk r hr idle

theorem onMainline_ran {k : Out} (hk : Yields (State.Ran mayReset s) k) :
    Yields (State.Ran mayReset s) (onMainline s k) := by
  unfold onMainline
  split
  · exact hk
  · simp

theorem State.Ran.launch {b : Nat} {r q : Bus} {a7 : Addr7} {wptr rptr : Option Ref} {wlen rlen : Nat} {rcb : CallbackId}
    {more : List Buf} (hr : s.buses[b]? = some r) (hrole : roleOf s.cfg b = .master) (idle : r.busy = false)
    (hq : q.control = r.control) : State.Ran mayReset s (s.launch b q a7 wptr wlen rptr rlen rcb more) :=
  State.Ran.start hr hrole idle hq

theorem State.Ran.launchBlock {b : Nat} {r q : Bus} {a7 : Addr7} {wptr rptr : Option Ref} {wlen rlen : Nat}
    {more : List Buf} (hr : s.buses[b]? = some r) (hrole : roleOf s.cfg b = .master) (idle : r.busy = false)
    (hq : q.control = r.control) : State.Ran mayReset s (s.launchBlock b q a7 wptr wlen rptr rlen more) :=
  (State.Ran.host (some b) s.ret s).trans (State.Ran.launch (r := r) hr hrole idle hq)

theorem execMStart_ran (bus : BusField) (cont : ContId) (ud : UData) (s : State) :
    Yields (State.Ran mayReset s) (execMStart bus cont ud s) :=
  withBus_ran fun r ⟨hr, hrole⟩ => by
    split
    · exact State.Ran.raiseFatal _ _ _ s
    · next idle => exact State.Ran.start hr hrole (by simpa using idle) rfl

theorem execMIsBusy_ran (bus : BusField) (s : State) : Yields (State.Ran mayReset s) (execMIsBusy bus s) :=
  withBus_ran fun r _ => State.Ran.host s.hostCall (some r.busy) s

theorem execMReset_ran (allowed : mayReset) (bus : BusField) (s : State) :
    Yields (State.Ran mayReset s) (execMReset bus s) :=
  withBus_ran fun r ⟨hr, hrole⟩ => by
    split
    · exact State.Ran.raiseFault _ _ s
    · next quiet =>
      simp only [Bool.or_eq_true, not_or, Bool.not_eq_true, Option.isSome_eq_false_iff, Option.isNone_iff_eq_none] at quiet
      exact State.Ran.setBus hr (.reset allowed hrole quiet.1 quiet.2)

theorem execTAsync_ran (bus : BusField) (a7 : Addr7) (wbase : Option Nat) (wlen : Nat) (rbase : Option Nat) (rlen onDone : Nat)
    (s : State) : Yields (State.Ran mayReset s) (execTAsync bus a7 wbase wlen rbase rlen onDone s) :=
  withTransfer_ran fun _ ⟨hr, hrole⟩ idle => State.Ran.launch hr hrole idle rfl

theorem execTBlock_ran (bus : BusField) (a7 : Addr7) (wbase : Option Nat) (wlen : Nat) (rbase : Option Nat) (rlen : Nat)
    (s : State) : Yields (State.Ran mayReset s) (execTBlock bus a7 wbase wlen rbase rlen s) :=
  onMainline_ran <| withTransfer_ran fun _ ⟨hr, hrole⟩ idle => State.Ran.launchBlock hr hrole idle rfl

theorem execReadReg_ran (bus : BusField) (a7 : Addr7) (reg : Byte) (obase : Option Nat) (n : Nat) (s : State) :
    Yields (State.Ran mayReset s) (execReadReg bus a7 reg obase n s) :=
  onMainline_ran <| withTransfer_ran fun _ ⟨hr, hrole⟩ idle => State.Ran.launchBlock hr hrole idle rfl

theorem execWriteReg_ran (bus : BusField) (a7 : Addr7) (reg : Byte) (ibase : Option Nat) (n : Nat) (s : State) :
    Yields (State.Ran mayReset s) (execWriteReg bus a7 reg ibase n s) := by
  refine onMainline_ran ?_
  split
  · exact withTransfer_ran fun r ⟨hr, hrole⟩ idle =>
      (State.Ran.noteReads _ s).trans (State.Ran.launchBlock (r := r) hr hrole idle rfl)
  · split
    · exact withTransfer_ran fun _ ⟨hr, hrole⟩ idle => State.Ran.launchBlock hr hrole idle rfl
    · exact State.Ran.refuse _ s

theorem execSInit_ran (bus : BusField) (a7 : Addr7) (msgFrom msgTo byteFrom byteTo : Nat) (prio : Int) (s : State) :
    Yields (State.Ran mayReset s) (execSInit bus a7 msgFrom msgTo byteFrom byteTo prio s) :=
  withBus_ran fun r ⟨hr, hrole⟩ => by
    split
    · exact State.Ran.raiseFatal _ _ _ s
    · exact State.Ran.setBus hr (.slave true hrole)

theorem execSDisable_ran (bus : BusField) (s : State) : Yields (State.Ran mayReset s) (execSDisable bus s) :=
  withBus_ran fun _ ⟨hr, hrole⟩ => State.Ran.setBus hr (.slave false hrole)

theorem execSForceIdle_ran (bus : BusField) (s : State) : Yields (State.Ran mayReset s) (execSForceIdle bus s) :=
  withBus_ran fun _ ⟨hr, _⟩ => ⟨.of_untouched (.setBus hr rfl), rfl, rfl, rfl⟩

end

/-! #### Decoded commands, and upcalled code -/

/-- The command an instruction is; nothing for a primitive or a bus operation. -/
def commandOf : Instr → Option Cmd
  | .mStart _ _ _ => some .mStart
  | .mIsBusy _ => some .mIsBusy
  | .mReset _ => some .mReset
  | .tAsync _ _ _ _ _ _ _ => some .tAsync
  | .tBlock _ _ _ _ _ _ => some .tBlock
  | .readReg _ _ _ _ _ => some .readReg
  | .writeReg _ _ _ _ _ => some .writeReg
  | .sInit _ _ _ _ _ _ _ => some .sInit
  | .sDisable _ => some .sDisable
  | .sForceIdle _ => some .sForceIdle
  | _ => none

theorem commandOf_operands {lim : Limits} {bus : BusField} {a7 : Addr7} {o : OpRecord} {k : Cmd} {i : Instr}
    (h : k.operands lim bus a7 o = some i) : commandOf i = some k := by
  cases k <;> simp only [Cmd.operands] at h <;> (repeat' split at h) <;> cases h <;> rfl

theorem commandOf_decodeCmd {lim : Limits} {c : CmdWord} {i : Instr} (h : decodeCmd lim c = .ok i) :
    ∃ k, commandOf i = some k ∧ hdrOpc c.header = k.opc := by
  unfold decodeCmd at h
  split at h
  · cases h
  · next k hk =>
    repeat' split at h
    all_goals cases h
    next hi => exact ⟨k, commandOf_operands hi, Cmd.opc_of_ofOpc hk⟩

/-- A command's meaning changes records by commands' changes alone. -/
theorem exec_ran {mayReset : Prop} {i : Instr} {k : Cmd} (hi : commandOf i = some k) (hk : mayReset ∨ k ≠ .mReset)
    (s : State) : Yields (State.Ran mayReset s) (exec i s) := by
  cases i with
  | mStart => exact execMStart_ran ..
  | mIsBusy => exact execMIsBusy_ran ..
  | mReset => exact execMReset_ran (hk.resolve_right (by simpa [commandOf] using hi.symm)) ..
  | tAsync => exact execTAsync_ran ..
  | tBlock => exact execTBlock_ran ..
  | readReg => exact execReadReg_ran ..
  | writeReg => exact execWriteReg_ran ..
  | sInit => exact execSInit_ran ..
  | sDisable => exact execSDisable_ran ..
  | sForceIdle => exact execSForceIdle_ran ..
  | _ => cases hi

theorem runCmd_ran {mayReset : Prop} {c : CmdWord} (hc : mayReset ∨ hdrOpc c.header ≠ 0x3#4) (s : State) :
    Yields (State.Ran mayReset s) (runCmd c s) := by
  cases h : decodeCmd s.cfg.limits c with
  | error e => rw [runCmd_refused h]; exact State.Ran.refuse e s
  | ok i =>
    rw [runCmd_decoded h]
    obtain ⟨k, hi, hopc⟩ := commandOf_decodeCmd h
    refine exec_ran hi (hc.imp id fun hne => ?_) s
    rintro rfl
    exact hne hopc

/-- Upcalled code resets no bus unless a reset is allowed for. -/
def ActsOk (mayReset : Prop) (acts : List Act) : Prop := mayReset ∨ resetFree acts

theorem ActsOk.tail {mayReset : Prop} {a : Act} {acts : List Act} (h : ActsOk mayReset (a :: acts)) :
    ActsOk mayReset acts := h.imp id fun hf c hc => hf c (List.mem_cons_of_mem a hc)

theorem ActsOk.head {mayReset : Prop} {c : CmdWord} {acts : List Act} (h : ActsOk mayReset (.cmd c :: acts)) :
    mayReset ∨ hdrOpc c.header ≠ 0x3#4 := h.imp id fun hf => hf c List.mem_cons_self

theorem runActs_ran {mayReset : Prop} {acts : List Act} (h : ActsOk mayReset acts) (s : State) :
    Yields (State.Ran mayReset s) (runActs acts s) := by
  induction acts generalizing s with
  | nil => exact State.Ran.refl s
  | cons a acts ih =>
    cases a with
    | store x v => exact (ih h.tail (s.hostStore x v)).mono fun _ => (State.Ran.hostStore x v s).trans
    | cmd c => exact (runCmd_ran h.head s).andThen (fun _ ht => ht) fun t ht => (ih h.tail t).mono fun _ => ht.trans

theorem upcall_ran {mayReset : Prop} {acts : List Act} (u : Upcall) (h : ActsOk mayReset acts) (s : State) :
    Yields (State.Ran mayReset s) (upcall u acts s) :=
  (runActs_ran h _).mono fun _ => (State.Ran.record _ s).trans

/-! ### What dispatching a primitive does -/

/-- Bus `b` changes as a primitive changes it, no other bus changes. -/
abbrev State.Dispatched (b : Nat) : State → State → Prop := State.Changed (atBus b Bus.PrimEdit)

namespace State.Dispatched

variable {b : Nat} {s t : State}

theorem setBus {r r' : Bus} (hr : s.buses[b]? = some r) (hr' : Bus.PrimEdit s.cfg r.control r'.control) :
    State.Dispatched b s (s.setBus b r') :=
  State.Changed.setAtBus hr hr'

theorem of_untouched (h : State.Untouched s t) : State.Dispatched b s t :=
  State.Changed.of_untouched (atBus_refl fun _ _ => .quiet) h

theorem issue {r q : Bus} {op : HwOp} (hr : s.buses[b]? = some r) (hq : q.control = r.control) :
    State.Dispatched b s (s.issue b q op) := by
  obtain ⟨legal, h⟩ | ⟨-, -, h⟩ := State.issue_cases b q op s
  · rw [h]
    refine (setBus hr ?_).after (.record _ _)
    rw [← hq]
    exact .issue op legal
  · rw [h]
    exact of_untouched ((State.Untouched.setBus hr hq).trans (.raiseFault _ _ _))

end State.Dispatched

section
variable {b : Nat} {s : State}

/-- The meaning of a primitive or a bus operation acts on the running agent's bus. -/
theorem onBus_yields {Q : State → Prop} {k : Nat → Bus → Out} (ha : s.actor.bus? = some b)
    (hk : ∀ r, s.buses[b]? = some r → Yields Q (k b r)) : Yields Q (onBus s k) := by
  obtain h | ⟨b', r, ⟨ha', hr⟩, h⟩ := onBus_cases s k
  · rw [h]; simp
  · obtain rfl : b = b' := Option.some.inj (ha.symm.trans ha')
    rw [h]
    exact hk r hr

theorem execWrite_dispatched (ref : Option Ref) (ha : s.actor.bus? = some b) :
    Yields (State.Dispatched b s) (execWrite ref s) :=
  onBus_yields ha fun r hr => by
    have hop : State.Untouched s (s.setBus b { r with op := .write }) := .setBus hr rfl
    split
    · exact .of_untouched (hop.trans (.stick _ _))
    · split
      · split
        · exact .of_untouched (hop.trans (.raiseFault _ _ _))
        · exact State.Changed.before (.record _ s) (State.Dispatched.issue (r := r) hr rfl)
      · exact .of_untouched (hop.trans (.stick _ _))

/-- Executing the primitive a continuation's result names. -/
theorem exec_decodePrim_dispatched {lim : Limits} {p : BitVec 4} {ref : Option Ref} {i : Instr}
    (h : decodePrim lim p ref = some i) (ha : s.actor.bus? = some b) : Yields (State.Dispatched b s) (exec i s) := by
  have issued (q : Bus → Bus) (op : HwOp) (hq : ∀ r, (q r).control = r.control) :
      Yields (State.Dispatched b s) (onBus s fun b r => .next (s.issue b (q r) op)) :=
    onBus_yields ha fun r hr => State.Dispatched.issue hr (hq r)
  unfold decodePrim at h
  split at h <;> cases h
  · exact State.Dispatched.of_untouched (.raiseFatal _ _ _ s)
  · exact issued (fun r => { r with op := .read, rdest := takeRef lim ref }) .rxen fun _ => rfl
  · exact execWrite_dispatched _ ha
  · exact issued (fun r => { r with op := .restart }) .restart fun _ => rfl
  · exact issued (fun r => { r with op := .ack }) (.ackbit false) fun _ => rfl
  · exact issued (fun r => { r with op := .nack }) (.ackbit true) fun _ => rfl
  · exact issued (fun r => { r with op := .stop }) .stop fun _ => rfl
  · exact onBus_yields (k := fun b r => .next (s.setBus b { r.deregister with op := .done })) ha
      fun _ hr => State.Dispatched.setBus hr .done
  · exact onBus_yields (k := fun b r => .next (s.setBus b { r with op := .quit })) ha
      fun _ hr => State.Dispatched.of_untouched (.setBus hr rfl)

theorem dispatch_dispatched (p : BitVec 4) (ref : Option Ref) (ha : s.actor.bus? = some b) :
    Yields (State.Dispatched b s) (dispatch p ref s) := by
  cases h : decodePrim s.cfg.limits p ref with
  | none => simpa [dispatch, h] using State.Dispatched.of_untouched (.raiseFatal _ _ _ s)
  | some i => rw [dispatch_decoded s h]; exact exec_decodePrim_dispatched h ha

end

/-! ### The master completion interrupt -/

/-- The next two draws upcall no code that resets a bus, unless a reset is allowed for. -/
structure DrawsOk (mayReset : Prop) (s : State) : Prop where
  first : ActsOk mayReset s.answer.acts
  second : ActsOk mayReset s.popAnswer.answer.acts

theorem DrawsOk.congr {mayReset : Prop} {s t : State} (h : DrawsOk mayReset s) (ha : t.answers = s.answers)
    (hd : t.drawn = s.drawn) : DrawsOk mayReset t where
  first := State.answer_congr ha hd ▸ h.first
  second := State.answer_congr (s := s.popAnswer) (t := t.popAnswer) (by simp [ha]) (by simp [State.popAnswer_drawn, ha, hd])
    ▸ h.second

/-- Commands of upcalled code change the buses, and then bus `b` changes by `R`. -/
abbrev State.EditedThen (mayReset : Prop) (b : Nat) (R : Cfg → Bus → Bus → Prop) : State → State → Prop :=
  State.Changed fun c b' k v => ∃ u, Bus.Edits mayReset c (roleOf c b') k u ∧ atBus b R c b' u v

/-- Upcalled code runs, and then a primitive is dispatched on bus `b`. -/
abbrev State.Resumed (mayReset : Prop) (b : Nat) : State → State → Prop := State.EditedThen mayReset b Bus.PrimEdit

section
variable {mayReset : Prop} {b : Nat} {s t u : State}

theorem State.Edited.andThen {R : Cfg → Bus → Bus → Prop} (h : State.Edited mayReset s t)
    (h' : State.Changed (atBus b R) t u) : State.EditedThen mayReset b R s u :=
  State.Changed.trans h h' fun _ _ _ _ _ hE hF => ⟨_, hE, hF⟩

theorem State.Edited.resumed (h : State.Edited mayReset s t) : State.Resumed mayReset b s t :=
  h.andThen (State.Dispatched.of_untouched (.refl t))

/-- An interrupt's handler: it is taken on bus `b`, upcalled code runs, and the step ends with `R` on that bus. Every other bus has
changed by the upcalled commands alone. -/
theorem State.EditedThen.turned {Take R : Cfg → Bus → Bus → Prop} (h' : State.EditedThen mayReset b R t u)
    (h : State.Changed (atBus b Take) s t)
    (hturn : ∀ c role k x y v, Take c k x → Bus.Edits mayReset c role x y → R c y v → Bus.TurnEdit mayReset c role k v) :
    State.Turned mayReset s u :=
  h.trans h' fun c b' k x v hx ⟨y, edits, hv⟩ => by
    by_cases hb : b' = b
    · subst hb
      exact hturn c _ k x y v (atBus_same.1 hx) edits (atBus_same.1 hv)
    · obtain rfl := (atBus_other hb).1 hx
      obtain rfl := (atBus_other hb).1 hv
      exact .commands edits.allowReset

/-- `dispatch` after changes that commands, or nobody, made to the control fields. -/
theorem dispatch_resumed (p : BitVec 4) (ref : Option Ref) (h : State.Edited mayReset s t) (ha : t.actor.bus? = some b) :
    Yields (State.Resumed mayReset b s) (dispatch p ref t) :=
  (dispatch_dispatched p ref ha).mono fun _ => h.andThen

/-- The record a row of PROTO writes has this control part. -/
def Row.leaves (k : Bus) : Row → Prop
  | .ret _ _ r' => r'.control = k
  | .onDone _ _ | .unwritten _ | .badState => True

theorem rowStartDone_leaves (b : Nat) (r : Bus) : (rowStartDone b r).leaves r.control := by
  unfold rowStartDone
  split
  · trivial
  · rfl

theorem rowWriteByte_leaves (site : Nat) (c : Cfg) (r : Bus) : (rowWriteByte site c r).leaves r.control := by
  unfold rowWriteByte
  split
  · trivial
  · rfl

theorem rowReadSlot_leaves (site : Nat) (c : Cfg) (r : Bus) : (rowReadSlot site c r).leaves r.control := by
  unfold rowReadSlot
  split
  · trivial
  · rfl

theorem rowStop_leaves (c : Cfg) (ok : Bool) (code : RCode) (r : Bus) : (rowStop c ok code r).leaves r.control := rfl

/-- PROTO writes no control field. -/
theorem protoRow_leaves (c : Cfg) (b : Nat) (nack : Bool) (r : Bus) : (protoRow c b nack r).leaves r.control := by
  unfold protoRow
  split
  · trivial
  · exact rowStartDone_leaves b r
  · split
    · exact rowStop_leaves ..
    · split
      · exact rowWriteByte_leaves ..
      · split
        · exact rowReadSlot_leaves ..
        · exact rowStop_leaves ..
  · split
    · exact rowStop_leaves ..
    · split
      · exact rowWriteByte_leaves ..
      · split
        · rfl
        · exact rowStop_leaves ..
  · split <;> rfl
  · exact rowReadSlot_leaves ..
  · rfl
  · split <;> trivial

theorem runOnDone_edited (cb : CallbackId) (result : Bool) (h : ActsOk mayReset s.answer.acts) :
    Yields (fun t => State.Edited mayReset s t ∧ t.actor = s.actor) (runOnDone cb b result s) := by
  cases cb with
  | blkcb =>
    exact ⟨.of_untouched ((State.Untouched.record _ s).trans (.modBus b _ fun _ => rfl)), by simp⟩
  | user n =>
    exact (upcall_ran _ h s.popAnswer).mono fun t ht =>
      ⟨State.Changed.before (.popAnswer s) ht.edited, by simpa using ht.actor⟩

theorem runProto_resumed (nack : Bool) {r : Bus} (hr : s.buses[b]? = some r) (ha : s.actor.bus? = some b)
    (h : ActsOk mayReset s.answer.acts) : Yields (State.Resumed mayReset b s) (runProto b nack r s) := by
  have hrow : (protoRow s.cfg b nack r).leaves r.control := protoRow_leaves ..
  unfold runProto
  split
  · next heq =>
    rw [heq] at hrow
    exact dispatch_resumed _ _ (.of_untouched (.setBus hr hrow)) ha
  · next cb result _ =>
    refine (runOnDone_edited cb result h).andThen (fun _ ht => ht.1.resumed) fun t ⟨ht, hactor⟩ => ?_
    have hidle : State.Untouched t (t.modBus b fun r => { r with pstate := .idle }) := .modBus b t fun _ => rfl
    exact dispatch_resumed _ _ (State.Changed.after ht hidle) (by rw [State.modBus_actor, hactor, ha])
  · exact State.Edited.resumed (.of_untouched (.raiseFault _ _ s))
  · exact State.Edited.resumed (.of_untouched (.raiseFatal _ _ _ s))

theorem callContinuation_resumed (nack : Bool) {d : Answer} (hd : ActsOk mayReset d.acts) (ha : s.actor.bus? = some b)
    (h : ActsOk mayReset s.answer.acts) : Yields (State.Resumed mayReset b s) (callContinuation b nack d s) := by
  unfold callContinuation
  split
  · simp
  · next r hr =>
    split
    · exact runProto_resumed nack hr ha h
    · exact (upcall_ran _ hd s).andThen (fun _ ht => ht.edited.resumed) fun t ht =>
        dispatch_resumed _ _ ht.edited (by rw [ht.actor, ha])
    · exact State.Edited.resumed (.of_untouched (.raiseFault _ _ s))

theorem resumeTransaction_resumed (r : Bus) (hd : DrawsOk mayReset s) (ha : s.actor.bus? = some b) :
    Yields (State.Resumed mayReset b s) (resumeTransaction b r s) :=
  (callContinuation_resumed (s := s.popAnswer) _ hd.first (by simpa using ha) hd.second).mono fun _ =>
    State.Changed.before (.popAnswer s)

theorem latchRead_resumed (r : Bus) (hd : DrawsOk mayReset s) (ha : s.actor.bus? = some b) :
    Yields (State.Resumed mayReset b s) (latchRead b r s) := by
  unfold latchRead
  split
  · exact State.Edited.resumed (.of_untouched (.raiseFault _ _ s))
  · next a _ =>
    split
    · have hdraws : DrawsOk mayReset (s.memWrite a r.rxbuf) := hd.congr (by simp) (by simp)
      exact (resumeTransaction_resumed r hdraws (by simpa using ha)).mono fun _ => State.Changed.before (.memWrite a _ s)
    · exact State.Edited.resumed (.of_untouched (.stick _ s))

theorem mengHandler_resumed (r : Bus) (hd : DrawsOk mayReset s) (ha : s.actor.bus? = some b) :
    Yields (State.Resumed mayReset b s) (mengHandler b r s) := by
  unfold mengHandler
  split
  · split
    · exact latchRead_resumed r hd ha
    · exact resumeTransaction_resumed r hd ha
  · exact State.Edited.resumed (.of_untouched (.raiseFault _ _ s))

theorem State.Turned.of_untouched (h : State.Untouched s t) : State.Turned mayReset s t :=
  State.Changed.of_untouched (fun _ _ _ => .commands .refl) h

theorem State.Turned.setBus {r r' : Bus} (hr : s.buses[b]? = some r)
    (hr' : Bus.TurnEdit mayReset s.cfg (roleOf s.cfg b) r.control r'.control) : State.Turned mayReset s (s.setBus b r') :=
  State.Changed.setBus hr (fun _ _ _ _ => .commands .refl) hr'

theorem mengStep_turned (hd : DrawsOk mayReset s) (ha : s.actor.bus? = some b) :
    Yields (State.Turned mayReset s) (mengStep b s) := by
  unfold mengStep
  split
  · exact State.Turned.of_untouched (.refl s)
  · next r hr =>
    split
    · next pending =>
      have taken : State.Changed (atBus b fun _ k u => k.mif = true ∧ u = { k with mif := false }) s
          (s.setBus b { r with mif := false }) := .setAtBus hr ⟨pending, rfl⟩
      refine (mengHandler_resumed (s := s.setBus b { r with mif := false }) _ (hd.congr rfl rfl) ha).mono fun t ht => ?_
      refine State.EditedThen.turned ht taken fun _ _ _ _ _ _ ⟨pending, hx⟩ edits prim => ?_
      subst hx
      exact .resume pending edits prim
    · exact State.Turned.of_untouched (.refl s)

/-! ### The slave interrupt and the remote master -/

/-- A callback with the next draw, after which the handler goes on unless the system halted. -/
theorem callback_edited {cb : Upcall} {k : State → Out} (h : ActsOk mayReset s.answer.acts)
    (hk : ∀ t, State.Ran mayReset s.popAnswer t → Yields (State.Edited mayReset t) (k t)) :
    Yields (State.Edited mayReset s) (andThen (upcall cb s.answer.acts s.popAnswer) k) := by
  have called {t : State} (ht : State.Ran mayReset s.popAnswer t) : State.Edited mayReset s t :=
    State.Changed.before (.popAnswer s) ht.edited
  exact (upcall_ran cb h s.popAnswer).andThen (fun _ => called) fun t ht => (hk t ht).mono fun _ => (called ht).trans

theorem slaveToMaster_edited (h : ActsOk mayReset s.answer.acts) :
    Yields (State.Edited mayReset s) (slaveToMaster b s) := by
  unfold slaveToMaster
  split
  · exact State.Edited.of_untouched (.raiseFault _ _ s)
  · exact callback_edited h fun t _ => State.Edited.of_untouched (.modBus b t fun _ => rfl)

theorem slaveAddressRead_edited (hd : DrawsOk mayReset s) : Yields (State.Edited mayReset s) (slaveAddressRead b s) := by
  unfold slaveAddressRead
  split
  · exact State.Edited.of_untouched (.raiseFault _ _ s)
  · refine callback_edited hd.first fun t ht => ?_
    have hmod : State.Untouched t (t.modBus b fun r => { r with sstate := .toMaster }) := .modBus b t fun _ => rfl
    have hanswer : (t.modBus b fun r => { r with sstate := .toMaster }).answer = s.popAnswer.answer :=
      (State.answer_congr (by simp) (by simp)).trans ht.answer
    dsimp only
    split
    · exact (slaveToMaster_edited (hanswer ▸ hd.second)).mono fun _ => State.Changed.before hmod
    · exact State.Edited.of_untouched hmod

theorem slaveAddressWrite_edited (h : ActsOk mayReset s.answer.acts) :
    Yields (State.Edited mayReset s) (slaveAddressWrite b s) := by
  unfold slaveAddressWrite
  split
  · exact State.Edited.of_untouched (.raiseFault _ _ s)
  · exact callback_edited h fun t _ => State.Edited.of_untouched (.modBus b t fun _ => rfl)

theorem slaveFromMaster_edited (v : Byte) (h : ActsOk mayReset s.answer.acts) :
    Yields (State.Edited mayReset s) (slaveFromMaster b v s) := by
  unfold slaveFromMaster
  split
  · exact State.Edited.of_untouched (.raiseFault _ _ s)
  · exact callback_edited h fun t _ => State.Edited.of_untouched (.modBus b t fun _ => rfl)

theorem slaveHandler_edited (r : Bus) (hd : DrawsOk mayReset s) : Yields (State.Edited mayReset s) (slaveHandler b r s) := by
  unfold slaveHandler
  split
  · split
    · exact State.Edited.of_untouched (.raiseFault _ _ s)
    · split
      · exact slaveAddressRead_edited hd
      · exact slaveAddressWrite_edited hd.first
  · exact slaveToMaster_edited hd.first
  · exact State.Edited.of_untouched (.modBus b s fun _ => rfl)
  · exact slaveFromMaster_edited _ hd.first

/-- The clock of bus `b` may be released. -/
abbrev State.Released (b : Nat) : State → State → Prop := State.Changed (atBus b Bus.ReleaseEdit)


theorem State.Released.refl (b : Nat) (s : State) : State.Released b s s :=
  State.Changed.of_untouched (atBus_refl fun _ _ => .inl rfl) (.refl s)

theorem State.Released.modBus (b : Nat) (s : State) : State.Released b s (s.modBus b fun r => { r with sclhold := false }) := by
  cases hr : s.buses[b]? with
  | none => simpa [State.modBus, hr] using State.Released.refl b s
  | some r =>
    rw [State.modBus_of_get hr]
    exact .setAtBus hr (.inr rfl)

theorem sengStep_turned (hd : DrawsOk mayReset s) : Yields (State.Turned mayReset s) (sengStep b s) := by
  unfold sengStep
  split
  · exact State.Turned.of_untouched (.refl s)
  · next r hr =>
    split
    · next ready =>
      simp only [Bool.and_eq_true] at ready
      have taken : State.Changed (atBus b fun _ k u => (k.sif = true ∧ k.senabled = true) ∧ u = { k with sif := false }) s
          (s.setBus b { r with sif := false }) := .setAtBus hr ⟨ready, rfl⟩
      have turned {u t : State} (hu : State.Edited mayReset (s.setBus b { r with sif := false }) u)
          (ht : State.Released b u t) : State.Turned mayReset s t := by
        refine (hu.andThen ht).turned taken fun _ _ _ _ _ _ ⟨⟨pending, enabled⟩, hx⟩ edits released => ?_
        subst hx
        exact .serve pending enabled edits released
      exact (slaveHandler_edited (s := s.setBus b { r with sif := false }) _ (hd.congr rfl rfl)).andThen
        (fun u hu => turned hu (.refl b u)) fun u hu => turned hu (.modBus b u)
    · exact State.Turned.of_untouched (.refl s)

theorem rmasterStep_turned (e : RemoteEvent) : Yields (State.Turned mayReset s) (rmasterStep b e s) := by
  unfold rmasterStep
  split
  · exact State.Turned.of_untouched (.refl s)
  · next r hr =>
    split
    · next ready =>
      have enabled : r.senabled = true := by
        simp only [Bool.and_eq_true] at ready
        exact ready.1.1
      have event : Bus.TurnEdit mayReset s.cfg (roleOf s.cfg b) r.control { r.control with sclhold := true, sif := true } :=
        .event enabled
      cases e with
      | address rw =>
        dsimp only
        split
        · exact State.Turned.of_untouched (.raiseFault _ _ s)
        · exact State.Turned.setBus hr event
      | dataIn v =>
        dsimp only
        split
        · exact State.Turned.setBus hr event
        · exact State.Turned.of_untouched (.refl s)
      | dataOut a =>
        dsimp only
        split
        · exact State.Changed.after (State.Turned.setBus hr event) (.record _ _)
        · exact State.Turned.of_untouched (.refl s)
      | stop =>
        dsimp only
        split
        · exact State.Turned.of_untouched (.refl s)
        · exact State.Turned.of_untouched (.setBus hr rfl)
    · exact State.Turned.of_untouched (.refl s)

/-! ### The bus agent and the HOST -/

/-- A completion on the bus whose operation is in flight; `q` differs from the bus's record in WIRE at most. -/
theorem State.Turned.complete {r q : Bus} {op : HwOp} {x : PeerAnswer} (hr : s.buses[b]? = some r)
    (flying : r.inflight.isSome = true) (hq : q.control = { r.control with wire := q.wire }) :
    State.Turned mayReset s (s.complete b q op x) := by
  have hcontrol : ({ q with inflight := none, mif := true } : Bus).control =
      { r.control with inflight := none, mif := true, wire := q.wire } := by
    show ({ q.control with inflight := none, mif := true } : Bus) = _
    rw [hq]
  have hset : State.Turned mayReset s (s.setBus b { q with inflight := none, mif := true }) :=
    State.Turned.setBus hr (hcontrol ▸ .complete q.wire flying)
  exact State.Changed.after hset (.record _ _)

theorem exec_decodeHw_turned {w : BitVec 11} {i : Instr} {r : Bus} (h : decodeHw w = some i) (ha : s.actor.bus? = some b)
    (hr : s.buses[b]? = some r) (flying : r.inflight.isSome = true) : Yields (State.Turned mayReset s) (exec i s) := by
  have completed (t : State) (ht : t = s ∨ t = s.popAnswer) (q : Bus → Bus) (wire : Bus → Wire) (op : HwOp)
      (x : PeerAnswer) (hq : ∀ r, (q r).control = r.control) :
      Yields (State.Turned mayReset s)
        (onBus s fun b r => .next (t.complete b (Bus.setWire s.cfg (wire r) (q r)) op x)) := by
    refine onBus_yields ha fun r' hr' => ?_
    obtain rfl : r = r' := Option.some.inj (hr.symm.trans hr')
    have hwire : (Bus.setWire s.cfg (wire r) (q r)).control =
        { r.control with wire := (Bus.setWire s.cfg (wire r) (q r)).wire } := by
      rw [Bus.control_setWire, hq]
    obtain rfl | rfl := ht
    · exact State.Turned.complete hr flying hwire
    · exact State.Changed.before (.popAnswer s) (State.Turned.complete (by simpa using hr) flying hwire)
  obtain ⟨op, -, rfl⟩ := Option.map_eq_some_iff.1 h
  cases op with
  | start => exact completed s (.inl rfl) id (fun _ => .addr) .start .silent fun _ => rfl
  | restart => exact completed s (.inl rfl) id (fun _ => .addr) .restart .silent fun _ => rfl
  | stop => exact completed s (.inl rfl) id (fun _ => .free) .stop .silent fun _ => rfl
  | tx v =>
    exact completed s.popAnswer (.inr rfl) (fun r => { r with ackstat := s.answer.bit })
      (fun r => wireAfterTx r.wire v s.answer.bit) (.tx v) (.ackBit s.answer.bit) fun _ => rfl
  | rxen =>
    exact completed s.popAnswer (.inr rfl) (fun r => { r with rxbuf := s.answer.byte }) (fun _ => .mrData) .rxen
      (.data s.answer.byte) fun _ => rfl
  | ackbit k => exact completed s (.inl rfl) id (fun _ => if k then .mrEnd else .mr) (.ackbit k) .silent fun _ => rfl

theorem busCompleteStep_turned (ha : s.actor.bus? = some b) : Yields (State.Turned mayReset s) (busCompleteStep b s) := by
  unfold busCompleteStep
  split
  · exact State.Turned.of_untouched (.refl s)
  · next w hw =>
    obtain ⟨r, hr, flying⟩ := Option.bind_eq_some_iff.1 hw
    split
    · next hi => exact exec_decodeHw_turned hi ha hr (by simp [flying])
    · trivial

theorem busFaultStep_turned : Yields (State.Turned mayReset s) (busFaultStep b s) := by
  unfold busFaultStep
  split
  · exact State.Turned.of_untouched (.refl s)
  · next r hr =>
    split
    · next flying =>
      refine State.Turned.setBus hr ?_
      rw [Bus.control_setWire]
      exact .busFault _ flying
    · exact State.Turned.of_untouched (.refl s)

theorem hostPoll_turned : Yields (State.Turned mayReset s) (hostPoll b s) := by
  unfold hostPoll
  split
  · exact State.Turned.of_untouched (.refl s)
  · split
    · exact State.Turned.of_untouched (.refl s)
    · split
      · exact (State.Ran.host (mayReset := mayReset) none _ s).edited.turned
      · exact State.Changed.before (.popAnswer s) (State.Ran.host (mayReset := mayReset) none _ s.popAnswer).edited.turned

theorem State.Edited.turned_of_commands (h : State.Edited True s t) : State.Turned mayReset s t :=
  State.Changed.mono h fun _ _ _ _ hE => .commands hE

theorem hostStep_turned : Yields (State.Turned mayReset s) (hostStep s) := by
  unfold hostStep
  split
  · exact hostPoll_turned
  · split
    · exact State.Turned.of_untouched (.refl s)
    · next rest _ =>
      have fetched : State.Untouched s { s with program := rest } := .of_buses rfl List.prefix_rfl id rfl
      exact State.Turned.of_untouched (fetched.trans (.hostStore _ _ _))
    · next c rest _ =>
      have fetched : State.Untouched s { s with program := rest } := .of_buses rfl List.prefix_rfl id rfl
      exact (runCmd_ran (.inl trivial) _).mono fun t ht =>
        State.Edited.turned_of_commands (State.Changed.before fetched ht.edited)

/-! ### One step -/

theorem handlerTurn_turned {a : Agent} {handler : State → Out}
    (h : Yields (State.Turned mayReset (s.enter a)) (handler (s.enter a))) :
    Yields (State.Turned mayReset s) (handlerTurn a handler s) := by
  have entered : Yields (State.Turned mayReset s) (handler (s.enter a)) :=
    h.mono fun _ => State.Changed.before (.enter a s)
  unfold handlerTurn
  split
  · exact State.Turned.of_untouched (.refl s)
  · split
    · exact State.Turned.of_untouched (.stick a s)
    · exact entered

theorem runTurn_turned (hd : DrawsOk mayReset s) (t : Turn) : Yields (State.Turned mayReset s) (runTurn t s) := by
  cases t with
  | host => exact hostStep_turned.mono fun _ => State.Changed.before (.enter _ s)
  | busComplete b => exact (busCompleteStep_turned rfl).mono fun _ => State.Changed.before (.enter (.bus b) s)
  | busFault b => exact busFaultStep_turned.mono fun _ => State.Changed.before (.enter _ s)
  | meng b => exact handlerTurn_turned (mengStep_turned (hd.congr rfl rfl) rfl)
  | seng b => exact handlerTurn_turned (sengStep_turned (hd.congr rfl rfl))
  | rmaster b e => exact (rmasterStep_turned e).mono fun _ => State.Changed.before (.enter _ s)

/-- A state without a halt field steps by one turn, and never answers `halted`. -/
theorem step_turned (hh : s.halted = false) (hd : DrawsOk mayReset s.popTurn) :
    Yields (State.Turned mayReset s) (step s) := by
  rw [step_turn hh rfl]
  exact (runTurn_turned hd _).mapNext fun _ ht =>
    State.Changed.before (.popTurn s) (State.Changed.after ht (.leave _))

/-- Everything a step can do to the buses, to memory and to the trace. -/
theorem step_changes (h : step s = .next t) (hd : DrawsOk mayReset s.popTurn) : State.Turned mayReset s t := by
  have hh : s.halted = false := by
    cases hh : s.halted with
    | false => rfl
    | true => simp [step, hh] at h
  have hyields := step_turned hh hd
  rwa [h] at hyields

theorem drawsOk_of_allowed (allowed : mayReset) (s : State) : DrawsOk mayReset s := ⟨.inl allowed, .inl allowed⟩

/-! ### The next two draws -/

theorem State.drawAt_zero (s : State) : s.drawAt 0 = s.answer := by
  unfold State.drawAt State.answer
  cases s.answers <;> simp

theorem State.drawAt_one (s : State) : s.drawAt 1 = s.popAnswer.answer := by
  unfold State.drawAt State.answer State.popAnswer
  rcases s.answers with _ | ⟨a, _ | ⟨a', as⟩⟩ <;> simp

theorem drawsOk_of_resetFree (h : ∀ k, k < 2 → resetFree (s.drawAt k).acts) : DrawsOk False s where
  first := .inr (s.drawAt_zero ▸ h 0 (by decide))
  second := .inr (s.drawAt_one ▸ h 1 (by decide))

theorem State.Changed.everyBus {E : BusRel} {p q : Nat → Bus → Prop} (h : State.Changed E s t) (hs : s.everyBus p)
    (hpq : ∀ b r r', E s.cfg b r.control r'.control → p b r → q b r') : t.everyBus q := by
  intro b r' hr'
  obtain ⟨r, hr, hE⟩ := h.bus b r' hr'
  exact hpq b r r' hE (hs b r hr)

end

/-! ### The obligations -/

/-- Settles O11: each thing a step can do to a record keeps what `State.Inv` asks of it. -/
theorem everyStepKeepsTheInvariant : Obligations.EveryStepKeepsTheInvariant := by
  intro s t hinv hstep
  obtain ⟨hmem, hbuses⟩ := s.inv_iff.1 hinv
  have h : State.Turned True s t := step_changes hstep (drawsOk_of_allowed trivial _)
  refine t.inv_iff.2 ⟨h.mem hmem, ?_⟩
  rw [h.cfg]
  exact h.everyBus hbuses fun _ r _ hE hr => hE.keeps_ok ((r.ok_control _ _).2 hr)

/-- Settles O12: without a reset in upcalled code the transaction whose interrupt is served stays alive until its primitive is
dispatched, and every other change keeps R47 by itself. -/
theorem everyStepKeepsOneOperationInFlight : Obligations.EveryStepKeepsOneOperationInFlight := by
  intro s t hfree hs hstep
  have h : State.Turned False s t := step_changes hstep (drawsOk_of_resetFree hfree)
  exact h.everyBus hs fun _ r _ hE hr => hE.keeps_oneInFlight (r.oneInFlight_control.2 hr)

/-- Settles O13: every piece of a step keeps the configuration and the number of slots, and appends to the trace. -/
theorem everyStepKeepsConfigurationAndAppendsToTheTrace :
    Obligations.EveryStepKeepsConfigurationAndAppendsToTheTrace := by
  intro s t hstep
  have h : State.Turned True s t := step_changes hstep (drawsOk_of_allowed trivial _)
  obtain ⟨es, hes⟩ := h.trace
  exact ⟨h.cfg, h.length, es, hes.symm⟩

/-- Settles O14: without a halt field the step is a turn, and no agent's turn answers `halted`. -/
theorem noFurtherStepExactlyWhenHalted : Obligations.NoFurtherStepExactlyWhenHalted := by
  intro s
  rw [← s.halted_iff]
  constructor
  · intro hstep
    by_contra hh
    have h : Yields (State.Turned True s) (step s) :=
      step_turned (by simpa using hh) (drawsOk_of_allowed trivial _)
    rw [hstep] at h
    exact h rfl
  · intro hh
    simp [step, hh]

end Sys2Proof.Machine

/-! SUPPORT. Proofs of the family 20_memory.md: what a MemWrite of the block does at each kind of reference (R60, R61; 10_state.md
R21). -/

namespace Sys2Proof.Machine

/-! ### A MemWrite, reference by reference -/

theorem State.modBus_absent {b : Nat} {g : Bus → Bus} {s : State} (h : s.buses.length ≤ b) : s.modBus b g = s := by
  simp [State.modBus, List.getElem?_eq_none h]

theorem State.memWrite_memRef (x : Nat) (v : Byte) (s : State) :
    s.memWrite (.mem x) v = { s with
      mem := Memory.write s.mem x v, trace := s.trace ++ [.memWrite (.mem x) v] } := rfl

theorem State.memWrite_addrByte {b : Nat} {r : Bus} {s : State} (v : Byte) (h : s.buses[b]? = some r) :
    s.memWrite (.addrByte b) v = (s.setBus b { r with addrByte := some v }).record (.memWrite (.addrByte b) v) := by
  rw [State.memWrite, State.setByteAt, State.modBus_of_get h]

theorem State.memWrite_rcell {b : Nat} {r : Bus} {s : State} (v : Byte) (h : s.buses[b]? = some r) :
    s.memWrite (.rcell b 0) v = (s.setBus b { r with rcell := some v }).record (.memWrite (.rcell b 0) v) := by
  rw [State.memWrite, State.setByteAt, if_pos rfl, State.modBus_of_get h]

/-- RCELL is one byte: past it a write leaves its event only. -/
theorem State.memWrite_rcell_past {i : Nat} (b : Nat) (v : Byte) (s : State) (hi : i ≠ 0) :
    s.memWrite (.rcell b i) v = s.record (.memWrite (.rcell b i) v) := by
  rw [State.memWrite, State.setByteAt, if_neg hi]

theorem State.memWrite_wcell {b : Nat} {r : Bus} {s : State} (i : Nat) (v : Byte) (h : s.buses[b]? = some r) :
    s.memWrite (.wcell b i) v =
      (s.setBus b { r with wcell := setCell r.wcell i v }).record (.memWrite (.wcell b i) v) := by
  rw [State.memWrite, State.setByteAt, State.modBus_of_get h]

/-- No byte of a bus that the registry does not hold can be put: a write there leaves its event only. -/
theorem State.memWrite_absent {b : Nat} {ref : Ref} {s : State} (v : Byte) (hb : s.buses.length ≤ b)
    (href : ref = .addrByte b ∨ ∃ i, ref = .rcell b i ∨ ref = .wcell b i) :
    s.memWrite ref v = s.record (.memWrite ref v) := by
  obtain rfl | ⟨i, rfl | rfl⟩ := href
  · rw [State.memWrite, State.setByteAt, State.modBus_absent hb]
  · rw [State.memWrite, State.setByteAt, State.modBus_absent hb, ite_self]
  · rw [State.memWrite, State.setByteAt, State.modBus_absent hb]

/-- Settles O46: the equation of `memWrite` at each kind of reference, with what a read gives after `Memory.write` and
`setCell`. -/
theorem theLatchStoresExactlyOneByte : Obligations.TheLatchStoresExactlyOneByte := by
  intro s v
  refine ⟨fun x hwf => ?ordinary, fun b r hr => ⟨?addrByte, ?rcell, fun i hi => ?rcellPast, fun i => ?wcell⟩,
    fun b ref hb href => ?absent⟩
  case ordinary =>
    exact ⟨Memory.write s.mem x v, Memory.write_wf x v hwf, Memory.read_write_same x v hwf,
      fun _ hy => Memory.read_write_other v hy, s.memWrite_memRef x v⟩
  case addrByte => exact State.memWrite_addrByte v hr
  case rcell => exact State.memWrite_rcell v hr
  case rcellPast => exact s.memWrite_rcell_past b v hi
  case wcell =>
    exact ⟨setCell r.wcell i v, by simp [cellAt_setCell], fun _ hj => by simp [cellAt_setCell, hj],
      State.memWrite_wcell i v hr⟩
  case absent => exact State.memWrite_absent v hb href

end Sys2Proof.Machine

/-! SUPPORT. Proofs of the family 30_encoding.md: the encoder and the three decoders are inverse to each other (R80, R81, R87 to R89, R92,
R97), the command decoder refuses in the order of 60 R246 (R90), the address byte (R94), and the refusal (f) of the other role. -/

namespace Sys2Proof

/-! ### The command decoder, check by check (R97; 60 R246) -/

/-- R90 (c) does not refuse: the command takes an address, or A7 is 0. -/
def Cmd.a7Ok (k : Cmd) (a7 : Addr7) : Prop := k.takesA7 = true ∨ a7 = 0

theorem Cmd.a7Check_eq_false (k : Cmd) (a7 : Addr7) : (!k.takesA7 && a7 != 0) = false ↔ k.a7Ok a7 := by
  cases h : k.takesA7 <;> simp [Cmd.a7Ok, h]

theorem Cmd.takesA7_eq_false (k : Cmd) : k.takesA7 = false ↔ k.opc.toNat ∈ [1, 2, 3, 9, 10] := by
  cases k <;> decide

theorem Cmd.exists_opc_eq {opc : BitVec 4} (h1 : 1 ≤ opc.toNat) (h10 : opc.toNat ≤ 10) : ∃ k : Cmd, opc = k.opc := by
  cases h : Cmd.ofOpc opc with
  | none =>
    obtain rfl | h11 := (Cmd.ofOpc_eq_none opc).1 h
    · simp at h1
    · omega
  | some k => exact ⟨k, Cmd.opc_of_ofOpc h⟩

theorem decodeCmd_noCommand {lim : Limits} {h : BitVec 16} {o : OpRecord} (hopc : Cmd.ofOpc (hdrOpc h) = none) :
    decodeCmd lim ⟨h, o⟩ = .error .reservedOpcode := by
  simp [decodeCmd, hopc]

section
variable {lim : Limits} {h : BitVec 16} {o : OpRecord} {k : Cmd} (hk : hdrOpc h = k.opc)
include hk

theorem decodeCmd_reservedBit (hz : hdrZ h = true) : decodeCmd lim ⟨h, o⟩ = .error .reservedBit := by
  simp [decodeCmd, hk, hz]

theorem decodeCmd_addressNotTaken (hz : hdrZ h = false) (ha : ¬ k.a7Ok (hdrA7 h)) :
    decodeCmd lim ⟨h, o⟩ = .error .addressNotTaken := by
  rw [← k.a7Check_eq_false, Bool.not_eq_false] at ha
  simp only [decodeCmd, hk, Cmd.ofOpc_opc, hz, ha]
  rfl

/-- Past (a) to (c) the lengths and then the operands decide. -/
theorem decodeCmd_checked (hz : hdrZ h = false) (ha : k.a7Ok (hdrA7 h)) :
    decodeCmd lim ⟨h, o⟩ =
      if k.lengthsOk lim o = false then .error .lengthTooLong
      else (k.operands lim (hdrBus h) (hdrA7 h) o).elim (.error .badOperand) .ok := by
  rw [← k.a7Check_eq_false] at ha
  simp only [decodeCmd, hk, Cmd.ofOpc_opc, hz, ha, Bool.not_eq_true', Bool.false_eq_true, if_false]
  cases k.operands lim (hdrBus h) (hdrA7 h) o <;> rfl

end

/-- What the decoder accepts: every check of R90 (a) to (e) passes, and the operands are the instruction's. -/
theorem decodeCmd_eq_ok_iff {lim : Limits} {h : BitVec 16} {o : OpRecord} {i : Instr} :
    decodeCmd lim ⟨h, o⟩ = .ok i ↔
      ∃ k : Cmd, hdrOpc h = k.opc ∧ hdrZ h = false ∧ k.a7Ok (hdrA7 h) ∧
        k.lengthsOk lim o = true ∧ k.operands lim (hdrBus h) (hdrA7 h) o = some i := by
  constructor
  · intro hok
    cases hopc : Cmd.ofOpc (hdrOpc h) with
    | none => simp [decodeCmd_noCommand hopc] at hok
    | some k =>
      have hk := Cmd.opc_of_ofOpc hopc
      cases hz : hdrZ h with
      | true => simp [decodeCmd_reservedBit hk hz] at hok
      | false =>
        by_cases ha : k.a7Ok (hdrA7 h)
        · rw [decodeCmd_checked hk hz ha] at hok
          cases hl : k.lengthsOk lim o with
          | false => simp [hl] at hok
          | true =>
            cases hops : k.operands lim (hdrBus h) (hdrA7 h) o with
            | none => simp [hl, hops] at hok
            | some j =>
              obtain rfl : j = i := by simpa [hl, hops] using hok
              exact ⟨k, hk, rfl, ha, hl, hops⟩
        · simp [decodeCmd_addressNotTaken hk hz ha] at hok
  · rintro ⟨k, hk, hz, ha, hl, ho⟩
    simp [decodeCmd_checked hk hz ha, hl, ho]

/-! ### Decoding what was encoded -/

theorem decode_cmdCode {lim : Limits} {k : Cmd} {bus : BusField} {a7 : Addr7} {o : OpRecord} {i : Instr} (ha : k.a7Ok a7)
    (hl : k.lengthsOk lim o = true) (ho : k.operands lim bus a7 o = some i) : decode lim (cmdCode k bus a7 o) = .ok i := by
  have h : decodeCmd lim ⟨headerOf k bus a7, o⟩ = .ok i :=
    decodeCmd_eq_ok_iff.2 ⟨k, by simp, by simp, by simpa using ha, hl, by simpa using ho⟩
  simp [decode, cmdCode, h]

theorem decode_hwWord (lim : Limits) (op : HwOp) : decode lim (.hw op.word) = .ok op.instr := by
  simp [decode, decodeHw, Machine.HwOp.ofWord_word]

/-- Settles O1: a command's header and record pass every check of the decoder, READ and WRITE keep a reference that fits, and a bus
operation is read back from its word. -/
theorem decodingAnEncodedInstructionGivesItBack : Obligations.DecodingAnEncodedInstructionGivesItBack := by
  intro lim i hwf
  cases i with
  | mStart bus c u => exact decode_cmdCode (.inr rfl) rfl rfl
  | mIsBusy bus => exact decode_cmdCode (.inr rfl) rfl rfl
  | mReset bus => exact decode_cmdCode (.inr rfl) rfl rfl
  | tAsync bus a7 wb wl rb rl | tBlock bus a7 wb wl rb rl =>
    simp only [Instr.wellFormed, Bool.and_eq_true] at hwf
    obtain ⟨⟨⟨hwl, hrl⟩, hwb⟩, hrb⟩ := hwf
    exact decode_cmdCode (.inl rfl) (by simp [Cmd.lengthsOk, hwl, hrl])
      (by simp [Cmd.operands, takeBase_of_baseOk hwb, takeBase_of_baseOk hrb])
  | readReg bus a7 rg base n | writeReg bus a7 rg base n =>
    simp only [Instr.wellFormed, Bool.and_eq_true] at hwf
    obtain ⟨hn, hbase⟩ := hwf
    exact decode_cmdCode (.inl rfl) (by simp [Cmd.lengthsOk, hn])
      (by simp [Cmd.operands, takeByte_toNat, takeBase_of_baseOk hbase])
  | sInit bus a7 f t bf bt p => exact decode_cmdCode (.inl rfl) rfl rfl
  | sDisable bus => exact decode_cmdCode (.inr rfl) rfl rfl
  | sForceIdle bus => exact decode_cmdCode (.inr rfl) rfl rfl
  | read ref => simp [encode, decode, decodePrim, PrimTag.code, takeRef_of_refOk hwf]
  | write ref => simp [encode, decode, decodePrim, PrimTag.code, takeRef_of_refOk hwf]
  | primNone | restart | ack | nack | stop | done | quit => rfl
  | hwStart => exact decode_hwWord lim .start
  | hwRestart => exact decode_hwWord lim .restart
  | hwStop => exact decode_hwWord lim .stop
  | hwTx v => exact decode_hwWord lim (.tx v)
  | hwRxen => exact decode_hwWord lim .rxen
  | hwAckbit k => exact decode_hwWord lim (.ackbit k)

/-! ### What the command decoder accepts -/

/-- The operands of an accepted command make a well-formed instruction, which encodes to a command with the same opcode, bus and
address. -/
theorem Cmd.operands_sound {lim : Limits} {bus : BusField} {a7 : Addr7} {o : OpRecord} {k : Cmd} {i : Instr}
    (ha : k.a7Ok a7) (hl : k.lengthsOk lim o = true) (ho : k.operands lim bus a7 o = some i) :
    i.wellFormed lim = true ∧ ∃ ops, encode i = cmdCode k bus a7 ops := by
  have noA7 (h : k.takesA7 = false) : a7 = 0 := ha.resolve_left (by simp [h])
  cases k with
  | mStart =>
    obtain rfl := noA7 rfl
    simp only [Cmd.operands] at ho
    split at ho <;> cases ho
    exact ⟨rfl, _, rfl⟩
  | mIsBusy | mReset | sDisable | sForceIdle =>
    obtain rfl := noA7 rfl
    cases ho
    exact ⟨rfl, _, rfl⟩
  | tAsync =>
    simp only [Cmd.operands] at ho
    split at ho
    · next hwl hrl _ =>
      split at ho <;> cases ho
      next hwb hrb =>
      simp only [Cmd.lengthsOk, hwl, hrl, Option.all_some, Bool.and_eq_true] at hl
      exact ⟨by simp [Instr.wellFormed, hl, baseOk_of_takeBase hwb, baseOk_of_takeBase hrb], _, rfl⟩
    · cases ho
  | tBlock =>
    simp only [Cmd.operands] at ho
    split at ho
    · next hwl hrl =>
      split at ho <;> cases ho
      next hwb hrb =>
      simp only [Cmd.lengthsOk, hwl, hrl, Option.all_some, Bool.and_eq_true] at hl
      exact ⟨by simp [Instr.wellFormed, hl, baseOk_of_takeBase hwb, baseOk_of_takeBase hrb], _, rfl⟩
    · cases ho
  | readReg | writeReg =>
    simp only [Cmd.operands] at ho
    split at ho
    · next hn =>
      split at ho <;> cases ho
      next hbase =>
      simp only [Cmd.lengthsOk, hn, Option.all_some] at hl
      exact ⟨by simp [Instr.wellFormed, hl, baseOk_of_takeBase hbase], _, rfl⟩
    · cases ho
  | sInit =>
    simp only [Cmd.operands] at ho
    split at ho <;> cases ho
    exact ⟨rfl, _, rfl⟩

/-- Settles O2: the instruction's command has the opcode, bus and address of the header, and these with Z = 0 are the header. -/
theorem acceptedHeadersAreTheEncodings : Obligations.AcceptedHeadersAreTheEncodings := by
  intro lim c i h
  obtain ⟨k, hk, hz, ha, hl, ho⟩ := decodeCmd_eq_ok_iff.1 h
  obtain ⟨hwf, ops, henc⟩ := Cmd.operands_sound ha hl ho
  exact ⟨hwf, ops, by rw [henc, cmdCode, headerOf_fields c.header k hk hz]⟩

/-- Settles O3: the checks of R90 stand in the decoder in this order, and each fails exactly where the statement says. -/
theorem commandDecoderRefusesInOrder : Obligations.CommandDecoderRefusesInOrder := by
  intro lim h o
  refine ⟨fun hopc => ?noCommand, fun h1 h10 => ?_⟩
  case noCommand => exact decodeCmd_noCommand ((Cmd.ofOpc_eq_none (hdrOpc h)).2 hopc)
  obtain ⟨k, hk⟩ := Cmd.exists_opc_eq h1 h10
  refine ⟨fun hz => decodeCmd_reservedBit hk hz, fun hz => ⟨fun hmem ha7 => ?noAddress, fun ha => ?_⟩⟩
  case noAddress =>
    have hno : k.takesA7 = false := k.takesA7_eq_false.2 (hk ▸ hmem)
    exact decodeCmd_addressNotTaken hk hz (by simpa [Cmd.a7Ok, hno] using ha7)
  have haok : k.a7Ok (hdrA7 h) := by
    rw [hk, ← k.takesA7_eq_false, Bool.not_eq_false] at ha
    exact ha
  rw [decodeCmd_checked hk hz haok, hk, ← k.lengthsOk_eq_false, ← k.operands_eq_none lim (hdrBus h) (hdrA7 h)]
  refine ⟨fun hl => ?tooLong, fun hl ho => ?badOperand, fun hl ho => ?decodes⟩
  case tooLong => rw [if_pos hl]
  case badOperand => rw [if_neg hl, ho]; rfl
  case decodes =>
    obtain ⟨i, hi⟩ := Option.ne_none_iff_exists'.1 ho
    exact ⟨i, by rw [if_neg hl, hi]; rfl⟩

/-! ### Bus operation words (R92) -/

theorem hwWord_fields (w : BitVec 11) : w.extractLsb' 8 3 ++ w.extractLsb' 0 8 = w := by
  rw [BitVec.extractLsb'_append_extractLsb'_eq_extractLsb' (start₁ := 0) (start₂ := 8) rfl, BitVec.extractLsb'_eq_self]

theorem HwOp.word_of_ofWord {w : BitVec 11} {op : HwOp} (h : HwOp.ofWord w = some op) : op.word = w := by
  rw [← hwWord_fields w]
  simp only [HwOp.ofWord] at h
  generalize w.extractLsb' 8 3 = hop at h ⊢
  generalize w.extractLsb' 0 8 = arg at h ⊢
  split at h
  case h_4 => cases h; rfl
  case h_6 =>
    split at h
    · next harg => subst harg; cases h; rfl
    · split at h
      · next harg => subst harg; cases h; rfl
      · cases h
  case h_7 => cases h
  all_goals
    split at h
    · next harg => subst harg; cases h; rfl
    · cases h

theorem HwOp.encode_instr (op : HwOp) : encode op.instr = .hw op.word := by cases op <;> rfl

/-- The words with no meaning: HOP 6 and 7, a nonzero ARG where R92 says 0, and ARG above 1 in HW_ACKBIT. -/
theorem HwOp.ofWord_eq_none (w : BitVec 11) :
    HwOp.ofWord w = none ↔
      6 ≤ (w.extractLsb' 8 3).toNat ∨
      ((w.extractLsb' 8 3).toNat ≠ 3 ∧ (w.extractLsb' 8 3).toNat ≠ 5 ∧ w.extractLsb' 0 8 ≠ 0#8) ∨
      ((w.extractLsb' 8 3).toNat = 5 ∧ 2 ≤ (w.extractLsb' 0 8).toNat) := by
  simp only [HwOp.ofWord]
  generalize w.extractLsb' 8 3 = hop
  generalize w.extractLsb' 0 8 = arg
  split
  case h_6 =>
    have hbig : 2 ≤ arg.toNat ↔ arg ≠ 0 ∧ arg ≠ 1 := by bv_omega
    split_ifs with h0 h1
    · simp [h0]
    · simp [h1]
    · simpa [hbig] using ⟨h0, h1⟩
  case h_7 =>
    have hhop : 6 ≤ hop.toNat := by revert hop; decide
    simp [hhop]
  all_goals simp

/-- Settles O4: the fields of a word that is read as an operation are those of the operation's own word. -/
theorem busOperationWordsHaveOneMeaning : Obligations.BusOperationWordsHaveOneMeaning := by
  intro w
  constructor
  · intro i h
    obtain ⟨op, hop, rfl⟩ := Option.map_eq_some_iff.1 h
    rw [HwOp.encode_instr, HwOp.word_of_ofWord hop]
  · rw [decodeHw, Option.map_eq_none_iff, HwOp.ofWord_eq_none]

/-! ### Words of the spec -/

/-- Settles O5: the decoder evaluates to the instruction on each of the six words. -/
theorem wordsOfTheSpecDecode : Obligations.WordsOfTheSpecDecode := by
  unfold Obligations.WordsOfTheSpecDecode
  decide

end Sys2Proof

namespace Sys2Proof.Machine

/-! ### The address byte (R94) -/

theorem addressByte_toNat (a : Addr7) (rw : Bool) : (addressByte a rw).toNat = 2 * a.toNat + rw.toNat := by
  have hshift : (a.setWidth 8 <<< 1).toNat = a.toNat <<< 1 := by
    have := a.isLt
    simp only [BitVec.toNat_shiftLeft, BitVec.toNat_setWidth, Nat.shiftLeft_eq]
    omega
  have hbit : (bif rw then 1#8 else 0#8).toNat = rw.toNat := by cases rw <;> rfl
  rw [addressByte, BitVec.toNat_or, hshift, hbit, ← Nat.shiftLeft_add_eq_or_of_lt rw.toNat_lt, Nat.shiftLeft_eq]
  omega

/-- Settles O6: both fields are read off the byte's value. -/
theorem addressByteHoldsAddressAndDirection : Obligations.AddressByteHoldsAddressAndDirection := by
  intro a rw
  refine ⟨?address, ?direction, addressByte_toNat a rw⟩
  case address =>
    apply BitVec.eq_of_toNat_eq
    have := a.isLt
    have := rw.toNat_lt
    simp only [BitVec.extractLsb'_toNat, addressByte_toNat, Nat.shiftRight_eq_div_pow]
    omega
  case direction =>
    simp only [BitVec.getLsbD, addressByte_toNat, Nat.testBit_zero]
    cases rw <;> simp

/-! ### Commands of the other role (R90 (f), R96) -/

theorem onMainline_host {s : State} {k : Out} (h : s.actor = .host) : onMainline s k = k := if_pos h

theorem withBus_slave {site : Nat} {bus : BusField} {s : State} {k : Nat → Bus → Out} {r : Bus}
    (h : s.busIs bus .slave r) : withBus site .master bus s k = .next (s.refuse .wrongRole) :=
  withBus_otherRole h (by decide)

theorem withBus_master {site : Nat} {bus : BusField} {s : State} {k : Nat → Bus → Out} {r : Bus}
    (h : s.busIs bus .master r) : withBus site .slave bus s k = .next (s.refuse .wrongRole) :=
  withBus_otherRole h (by decide)

/-- A transfer on a slave's bus is refused before its own checks (60 R246). -/
theorem withTransfer_slave {site : Nat} {bus : BusField} {wl rl : Nat} {s : State} {k : Nat → Bus → Out} {r : Bus}
    (h : s.busIs bus .slave r) : withTransfer site bus wl rl s k = .next (s.refuse .wrongRole) :=
  withBus_slave h

/-- Settles O28: on the mainline every command looks for its bus first, and refuses there. -/
theorem commandsOfTheOtherRoleAreRefused : Obligations.CommandsOfTheOtherRoleAreRefused := by
  intro bus s r hhost
  constructor
  · intro hs i hi
    show exec i s = .next (s.refuse .wrongRole)
    obtain ⟨c, u, rfl⟩ | rfl | rfl | ⟨a7, wb, wl, rb, rl, cb, rfl⟩ | ⟨a7, wb, wl, rb, rl, rfl⟩ |
      ⟨a7, reg, ob, n, rfl⟩ | ⟨a7, reg, ib, n, rfl⟩ := hi
    · show execMStart bus c u s = _
      exact withBus_slave hs
    · show execMIsBusy bus s = _
      exact withBus_slave hs
    · show execMReset bus s = _
      exact withBus_slave hs
    · show execTAsync bus a7 wb wl rb rl cb s = _
      exact withTransfer_slave hs
    · exact (onMainline_host hhost).trans (withTransfer_slave hs)
    · exact (onMainline_host hhost).trans (withTransfer_slave hs)
    · exact (onMainline_host hhost).trans (withTransfer_slave hs)
  · intro hm i hi
    show exec i s = .next (s.refuse .wrongRole)
    obtain ⟨a7, f, t, bf, bt, p, rfl⟩ | rfl | rfl := hi
    · show execSInit bus a7 f t bf bt p s = _
      exact withBus_master hm
    · show execSDisable bus s = _
      exact withBus_master hm
    · show execSForceIdle bus s = _
      exact withBus_master hm

end Sys2Proof.Machine

/-! SUPPORT. Proofs of the family 40_master_engine.md: the master commands M_START, M_IS_BUSY and M_RESET (R110 to R112), MENG's entry and
READ latch (R113 to R117), the primitives (R118 to R126), the bus-sequence table (R129), the completions of the bus operations (R130 to
R136), the bus fault (R137), and which fields of its record each instruction may write. -/

namespace Sys2Proof

/-! ### Commands that take no address (R87, R97) -/

theorem headerOf_noAddress (k : Cmd) (bus : BusField) : headerOf k bus 0 = k.opc ++ bus ++ 0#8 := by
  revert bus
  cases k <;> decide

theorem decodeCmd_noAddress {lim : Limits} {k : Cmd} {bus : BusField} {o : OpRecord} {i : Instr}
    (hl : k.lengthsOk lim o = true) (ho : k.operands lim bus 0 o = some i) :
    decodeCmd lim ⟨k.opc ++ bus ++ 0#8, o⟩ = .ok i := by
  rw [← headerOf_noAddress]
  exact decodeCmd_eq_ok_iff.2 ⟨k, by simp, by simp, .inr (by simp), hl, by simpa using ho⟩

/-! ### The primitive decoder's reserved codes (R82) -/

theorem decodePrim_eq_none (lim : Limits) (p : BitVec 4) (ref : Option Ref) :
    decodePrim lim p ref = none ↔ 9 ≤ p.toNat := by
  unfold decodePrim
  split
  case h_10 => simp only [true_iff]; revert p; decide
  all_goals simp

end Sys2Proof

namespace Sys2Proof.Machine

/-! ### The bus-sequence table (R129) -/

@[simp] theorem legalIn_start (w : Wire) : legalIn .start w = decide (w = .free) := by cases w <;> rfl

@[simp] theorem legalIn_restart (w : Wire) : legalIn .restart w = decide (w = .mt ∨ w = .mrEnd ∨ w = .peerNacked) := by
  cases w <;> rfl

@[simp] theorem legalIn_stop (w : Wire) : legalIn .stop w = decide (w = .mt ∨ w = .mrEnd ∨ w = .peerNacked) := by
  cases w <;> rfl

@[simp] theorem legalIn_tx (v : Byte) (w : Wire) : legalIn (.tx v) w = decide (w = .addr ∨ w = .mt) := by
  cases w <;> rfl

@[simp] theorem legalIn_rxen (w : Wire) : legalIn .rxen w = decide (w = .mr) := by cases w <;> rfl

@[simp] theorem legalIn_ackbit (k : Bool) (w : Wire) : legalIn (.ackbit k) w = decide (w = .mrData) := by cases w <;> rfl

/-- Settles O7: the phases in which each operation is legal are those whose row lists it. -/
theorem busSequenceTable : Obligations.BusSequenceTable := by
  intro w op
  cases op with
  | start => simp
  | restart => simp
  | stop => simp
  | tx v => simp
  | rxen => simp
  | ackbit k => cases k <;> simp

theorem canIssue_iff {c : Cfg} {op : HwOp} {w : Wire} :
    canIssue c op w ↔ c.busSeqCheck = false ∨ legalIn op w = true := by
  cases h : c.busSeqCheck <;> simp [canIssue, h]

/-! ### M_START, M_IS_BUSY and M_RESET (R110 to R112) -/

section
variable {bus : BusField} {s : State} {r : Bus} {cont : ContId} {ud : UData}

theorem exec_mStart_unknown (hb : s.buses.length ≤ bus.toNat) :
    exec (.mStart bus cont ud) s = .next (s.raiseFatal 110 .invalidBus bus.toNat) := by
  show execMStart bus cont ud s = _
  rw [execMStart, withBus_unknown hb]

theorem exec_mStart_known (h : s.busIs bus .master r) :
    exec (.mStart bus cont ud) s =
      if r.busy then .next (s.raiseFatal 110 .busy bus.toNat)
      else .next (s.start bus.toNat r cont ud (admitOf s.cfg cont)) := by
  show execMStart bus cont ud s = _
  rw [execMStart, withBus_known h]

theorem exec_mIsBusy_unknown (hb : s.buses.length ≤ bus.toNat) :
    exec (.mIsBusy bus) s = .next (s.raiseFatal 111 .invalidBus bus.toNat) := by
  show execMIsBusy bus s = _
  rw [execMIsBusy, withBus_unknown hb]

theorem exec_mIsBusy_known (h : s.busIs bus .master r) :
    exec (.mIsBusy bus) s = .next { s with ret := some r.busy } := by
  show execMIsBusy bus s = _
  rw [execMIsBusy, withBus_known h]

theorem exec_mReset_unknown (hb : s.buses.length ≤ bus.toNat) :
    exec (.mReset bus) s = .next (s.raiseFatal 112 .invalidBus bus.toNat) := by
  show execMReset bus s = _
  rw [execMReset, withBus_unknown hb]

theorem exec_mReset_known (h : s.busIs bus .master r) :
    exec (.mReset bus) s =
      if r.inflight.isSome || r.mif then .next (s.raiseFault 112 .resetInFlight)
      else .next (s.setBus bus.toNat r.deregister) := by
  show execMReset bus s = _
  rw [execMReset, withBus_known h]

theorem exec_mReset_quiet (h : s.busIs bus .master r) (hf : r.inflight = none) (hm : r.mif = false) :
    exec (.mReset bus) s = .next (s.setBus bus.toNat r.deregister) := by
  rw [exec_mReset_known h, if_neg (by simp [hf, hm])]

end

/-- Settles O19: past the checks M_START is `issue HW_START`, which is in sequence exactly on a free wire. -/
theorem mStartRegistersAndIssuesStart : Obligations.MStartRegistersAndIssuesStart := by
  intro bus cont ud s
  refine ⟨fun lim => decodeCmd_noAddress (k := .mStart) rfl rfl, exec_mStart_unknown, fun r hr => ?_⟩
  rw [exec_mStart_known hr]
  refine ⟨fun hbusy => if_pos hbusy, fun hidle hc hw => ?held, fun hidle hw => ?issued⟩
  case held =>
    rw [if_neg (by simp [hidle]), State.start, State.issue_illegal hc (by simpa using hw)]
    rfl
  case issued =>
    rw [if_neg (by simp [hidle]), State.start, State.issue_ok (canIssue_iff.2 (by simpa using hw))]
    rfl

/-- Settles O20: past the bus check M_IS_BUSY only returns BUSY. -/
theorem mIsBusyReturnsTheBusyFlag : Obligations.MIsBusyReturnsTheBusyFlag :=
  fun _ _ => ⟨fun _ _ => decodeCmd_noAddress (k := .mIsBusy) rfl rfl, exec_mIsBusy_unknown,
    fun _ hr => exec_mIsBusy_known hr⟩

/-- Settles O21: the reset is a model fault while an operation is in flight or its interrupt pending. -/
theorem mResetClearsOnlyBusyAndContinuation : Obligations.MResetClearsOnlyBusyAndContinuation := by
  intro bus s
  refine ⟨fun lim o => decodeCmd_noAddress (k := .mReset) rfl rfl, exec_mReset_unknown, fun r hr => ⟨fun hf => ?fault,
    exec_mReset_quiet hr⟩⟩
  case fault =>
    rw [exec_mReset_known hr, if_pos (by simpa [Option.isSome_iff_ne_none] using hf)]
    rfl

/-! ### The primitives on the running agent's bus (R117 to R126) -/

section
variable {s : State} {b : Nat} {r : Bus} (h : s.runsOn b r)
include h

theorem exec_read (ref : Option Ref) :
    exec (.read ref) s = .next (s.issue b { r with op := .read, rdest := ref } .rxen) := onBus_runs h

theorem exec_restart : exec .restart s = .next (s.issue b { r with op := .restart } .restart) := onBus_runs h

theorem exec_ack : exec .ack s = .next (s.issue b { r with op := .ack } (.ackbit false)) := onBus_runs h

theorem exec_nack : exec .nack s = .next (s.issue b { r with op := .nack } (.ackbit true)) := onBus_runs h

theorem exec_stop : exec .stop s = .next (s.issue b { r with op := .stop } .stop) := onBus_runs h

theorem exec_done : exec .done s = .next (s.setBus b { r.deregister with op := .done }) := onBus_runs h

theorem exec_quit : exec .quit s = .next (s.setBus b { r with op := .quit }) := onBus_runs h

theorem exec_write_notAdmitted {a : Ref} (ha : admitted s.cfg b r a = false) :
    exec (.write (some a)) s = .next ((s.setBus b { r with op := .write }).stick s.actor) :=
  (onBus_runs h).trans (if_neg (by simp [ha]))

theorem exec_write_byte {a : Ref} {v : Byte} (ha : admitted s.cfg b r a = true) (hv : s.byteAt a = some v) :
    exec (.write (some a)) s = .next ((s.noteRead a v).issue b { r with op := .write } (.tx v)) := by
  show execWrite (some a) s = _
  rw [execWrite, onBus_runs h]
  simp [ha, hv]

/-- A primitive on the bus of a running handler has a next state. -/
theorem exec_decodePrim_next {lim : Limits} {p : BitVec 4} {ref : Option Ref} {i : Instr}
    (hi : decodePrim lim p ref = some i) : ∃ t, exec i s = .next t := by
  unfold decodePrim at hi
  split at hi <;> cases hi
  · exact ⟨_, rfl⟩
  · exact ⟨_, exec_read h _⟩
  · cases takeRef lim ref with
    | none => exact ⟨_, exec_write_noRef h⟩
    | some a =>
      cases ha : admitted s.cfg b r a with
      | false => exact ⟨_, exec_write_notAdmitted h ha⟩
      | true =>
        cases hv : s.byteAt a with
        | none => exact ⟨_, exec_write_unwritten h ha hv⟩
        | some v => exact ⟨_, exec_write_byte h ha hv⟩
  · exact ⟨_, exec_restart h⟩
  · exact ⟨_, exec_ack h⟩
  · exact ⟨_, exec_nack h⟩
  · exact ⟨_, exec_stop h⟩
  · exact ⟨_, exec_done h⟩
  · exact ⟨_, exec_quit h⟩

end

theorem issue_next_ok {b : Nat} {r : Bus} {op : HwOp} {s : State} (h : canIssue s.cfg op r.wire) :
    Host.Outcome.next (s.issue b r op) = (.next { s with
      buses := s.buses.set b { r with inflight := some op.word }, trace := s.trace ++ [.issued b op] } : Out) :=
  congrArg _ (State.issue_ok h)

theorem issue_next_illegal {b : Nat} {r : Bus} {op : HwOp} {s : State} (hc : s.cfg.busSeqCheck = true)
    (h : legalIn op r.wire = false) :
    Host.Outcome.next (s.issue b r op) = (.next { s with
      buses := s.buses.set b r, sysFault := some .busSequence, trace := s.trace ++ [.fault .busSequence 129] } : Out) :=
  congrArg _ (State.issue_illegal hc h)

/-- Settles O32: HW_RXEN is in sequence in the phase MR alone. -/
theorem readRemembersTheDestinationAndReceives : Obligations.ReadRemembersTheDestinationAndReceives := by
  intro ref s b r h
  refine ⟨fun lim href => ?decodes, fun hw => ?issued, fun hc hw => ?faults⟩
  case decodes => exact congrArg (fun q => some (Instr.read q)) (takeRef_of_refOk href)
  case issued => exact (exec_read h ref).trans (issue_next_ok (canIssue_iff.2 (by simpa using hw)))
  case faults => exact (exec_read h ref).trans (issue_next_illegal hc (by simpa using hw))

/-- Settles O33: the byte read now is noted in the trace before HW_TX is issued or found out of sequence. -/
theorem writeTransmitsTheByteAtTheReference : Obligations.WriteTransmitsTheByteAtTheReference := by
  intro a s b r h
  refine ⟨fun lim href => ?decodes, exec_write_notAdmitted h, fun v ha hv => ⟨fun hw => ?issued, fun hc h1 h2 => ?faults⟩⟩
  case decodes => exact congrArg (fun q => some (Instr.write q)) (takeRef_of_refOk href)
  case issued =>
    rw [exec_write_byte h ha hv, issue_next_ok (canIssue_iff.2 (by simpa using hw))]
    simp [State.noteRead, HwOp.word]
  case faults =>
    rw [exec_write_byte h ha hv, issue_next_illegal (by simpa using hc) (by simpa using ⟨h1, h2⟩)]
    simp [State.noteRead]

/-- Settles O35: each of the four is OP and then the issue of its one operation. -/
theorem restartAckNackStopIssueTheirOperation : Obligations.RestartAckNackStopIssueTheirOperation := by
  intro s b r h
  refine ⟨fun lim ref => ⟨rfl, rfl, rfl, rfl⟩, fun hl => (exec_restart h).trans (issue_next_ok hl),
    fun hl => (exec_ack h).trans (issue_next_ok hl), fun hl => (exec_nack h).trans (issue_next_ok hl),
    fun hl => (exec_stop h).trans (issue_next_ok hl), ?_⟩
  rintro i op tag (⟨rfl, rfl, rfl⟩ | ⟨rfl, rfl, rfl⟩ | ⟨rfl, rfl, rfl⟩ | ⟨rfl, rfl, rfl⟩) hc hl
  · exact (exec_restart h).trans (issue_next_illegal hc hl)
  · exact (exec_ack h).trans (issue_next_illegal hc hl)
  · exact (exec_nack h).trans (issue_next_illegal hc hl)
  · exact (exec_stop h).trans (issue_next_illegal hc hl)

/-- Settles O36: DONE and QUIT write the record and issue nothing. -/
theorem doneDeregistersAndQuitDoesNot : Obligations.DoneDeregistersAndQuitDoesNot :=
  fun _ _ _ h => ⟨fun _ _ => ⟨rfl, rfl⟩, exec_done h, exec_quit h⟩

/-! ### NONE and the reserved codes (R126; 30 R82; 60 R240) -/

theorem raiseFatal_eq (site : Nat) (code : FatalCode) (info : Int) (s : State) :
    s.raiseFatal site code info = { s with
      sysFatal := some (code, info)
      trace := s.trace ++ [.fatal code info site] ++
        (s.cfg.fatalHook.map fun hook => Event.upcall (.fatalHook hook site info)).toList } := by
  cases hhook : s.cfg.fatalHook <;> simp [State.raiseFatal, hookEvents, hhook]

theorem dispatch_badPrimitive {p : BitVec 4} (ref : Option Ref) (s : State) (hp : p = 0#4 ∨ 9 ≤ p.toNat) :
    dispatch p ref s = .next (s.raiseFatal 126 .badPrimitive p.toNat) := by
  obtain rfl | hp := hp
  · rfl
  · rw [dispatch, (decodePrim_eq_none s.cfg.limits p ref).2 hp]

/-- Settles O37: NONE, the code 0 and the reserved codes all raise E_BAD_PRIMITIVE at rule 126. -/
theorem noneAndReservedCodesAreFatal : Obligations.NoneAndReservedCodesAreFatal := by
  intro s ref
  refine ⟨fun lim => ⟨fun p => decodePrim_eq_none lim p ref, rfl⟩, ?none, fun p hp => ?code,
    fun site code info => raiseFatal_eq site code info s⟩
  case none => exact congrArg _ (raiseFatal_eq 126 .badPrimitive 0 s)
  case code => rw [dispatch_badPrimitive ref s hp, raiseFatal_eq]

/-! ### Completions of the bus operations (R130 to R136) -/

theorem Bus.setWire_eq (c : Cfg) (w : Wire) (r : Bus) : r.setWire c w = { r with wire := wireKept c w r.wire } := by
  unfold Bus.setWire wireKept
  split <;> rfl

/-- A completion sets the wire phase (10 R21), lands the operation and raises the interrupt. -/
theorem complete_setWire (b : Nat) (c : Cfg) (w : Wire) (r : Bus) (op : HwOp) (x : PeerAnswer) (s : State) :
    s.complete b (r.setWire c w) op x = { s with
      buses := s.buses.set b { r with inflight := none, mif := true, wire := wireKept c w r.wire }
      trace := s.trace ++ [.completed b op x] } := by
  rw [Bus.setWire_eq]
  rfl

section
variable {s : State} {b : Nat} {r : Bus} (h : s.runsOn b r)
include h

theorem exec_hwStart : exec .hwStart s = .next (s.complete b (r.setWire s.cfg .addr) .start .silent) := onBus_runs h

theorem exec_hwRestart : exec .hwRestart s = .next (s.complete b (r.setWire s.cfg .addr) .restart .silent) :=
  onBus_runs h

theorem exec_hwStop : exec .hwStop s = .next (s.complete b (r.setWire s.cfg .free) .stop .silent) := onBus_runs h

theorem exec_hwTx (v : Byte) :
    exec (.hwTx v) s = .next (s.popAnswer.complete b
      (Bus.setWire s.cfg (wireAfterTx r.wire v s.answer.bit) { r with ackstat := s.answer.bit })
      (.tx v) (.ackBit s.answer.bit)) := onBus_runs h

theorem exec_hwRxen :
    exec .hwRxen s = .next (s.popAnswer.complete b
      (Bus.setWire s.cfg .mrData { r with rxbuf := s.answer.byte }) .rxen (.data s.answer.byte)) := onBus_runs h

theorem exec_hwAckbit (k : Bool) :
    exec (.hwAckbit k) s = .next (s.complete b (r.setWire s.cfg (if k then .mrEnd else .mr)) (.ackbit k) .silent) :=
  onBus_runs h

end

/-- Settles O38: each of the five is a completion with no answer, which sets its own wire phase. -/
theorem startRestartStopAckbitComplete : Obligations.StartRestartStopAckbitComplete := by
  intro s b r h
  refine ⟨by decide, by decide, ?_⟩
  rintro i op w (⟨rfl, rfl, rfl⟩ | ⟨rfl, rfl, rfl⟩ | ⟨rfl, rfl, rfl⟩ | ⟨rfl, rfl, rfl⟩ | ⟨rfl, rfl, rfl⟩)
  · rw [exec_hwStart h, complete_setWire]
  · rw [exec_hwRestart h, complete_setWire]
  · rw [exec_hwStop h, complete_setWire]
  · rw [exec_hwAckbit h, complete_setWire]
    rfl
  · rw [exec_hwAckbit h, complete_setWire]
    rfl

/-- Settles O39: the four cases are those of `wireAfterTx`. -/
theorem transmittedByteSamplesTheAcknowledgement : Obligations.TransmittedByteSamplesTheAcknowledgement := by
  intro v s b r h a w ha hcases
  have hw : wireAfterTx r.wire v a = w := by
    unfold wireAfterTx
    obtain ⟨rfl, rfl⟩ | ⟨rfl, haddr, hv, rfl⟩ | ⟨rfl, haddr, hv, rfl⟩ | ⟨rfl, haddr, rfl⟩ := hcases
    · rfl
    · rw [haddr, hv]; rfl
    · rw [haddr, hv]; rfl
    · simp [haddr]
  rw [exec_hwTx h, ← ha, hw, complete_setWire]
  simp

/-- Settles O40: the byte drawn is both RXBUF and the answer in the trace. -/
theorem receivedByteIsDrawnIntoRxbuf : Obligations.ReceivedByteIsDrawnIntoRxbuf := by
  intro s b r h
  rw [exec_hwRxen h, complete_setWire]
  simp


/-! ### BUS(b)'s steps (R130, R137) -/

theorem busCompleteStep_flying {b : Nat} {r : Bus} {w : BitVec 11} {i : Instr} {s : State} (hb : s.buses[b]? = some r)
    (hf : r.inflight = some w) (hi : decodeHw w = some i) : busCompleteStep b s = exec i s := by
  simp [busCompleteStep, hb, hf, hi]

/-- Settles O16: the turn enters BUS(b), whose completion step is the decoded operation. -/
theorem stepRunsTheOperationInFlight : Obligations.StepRunsTheOperationInFlight := by
  intro s b r w i hh ht hb hf hi
  rw [step_turn hh ht]
  exact congrArg (mapNext State.leave)
    (busCompleteStep_flying (s := s.popTurn.enter (.bus b)) (by simpa using hb) hf hi)

theorem busFaultStep_flying {b : Nat} {r : Bus} {s : State} (hb : s.buses[b]? = some r) (hf : r.inflight ≠ none) :
    busFaultStep b s =
      .next (s.setBus b { r with inflight := none, wire := wireKept s.cfg .free r.wire }) := by
  simp [busFaultStep, hb, Option.isSome_iff_ne_none, hf, Bus.setWire_eq]

theorem step_busFault {b : Nat} {r : Bus} {s : State} (hh : s.halted = false) (ht : s.turn = .busFault b)
    (hb : s.buses[b]? = some r) (hf : r.inflight ≠ none) :
    step s = .next { s.popTurn with
      actor := .host
      buses := s.buses.set b { r with inflight := none, wire := wireKept s.cfg .free r.wire } } := by
  have hturn : runTurn (.busFault b) s.popTurn = _ :=
    busFaultStep_flying (s := s.popTurn.enter (.bus b)) (by simpa using hb) hf
  rw [step_turn hh ht, hturn]
  simp [mapNext, State.leave, State.enter, State.setBus]

/-- Settles O54: after the bus fault nothing is in flight or pending, so M_RESET is legal. -/
theorem busFaultDropsTheOperationAndResetRecovers : Obligations.BusFaultDropsTheOperationAndResetRecovers := by
  intro s bus r hh ht ⟨hb, hrole⟩ hf hm
  refine ⟨_, step_busFault hh ht hb hf, rfl, ?_⟩
  have hdropped : State.busIs { s.popTurn with
      actor := .host
      buses := s.buses.set bus.toNat { r with inflight := none, wire := wireKept s.cfg .free r.wire } } bus .master
      { r with inflight := none, wire := wireKept s.cfg .free r.wire } :=
    ⟨getElem?_set_same hb, by simpa using hrole⟩
  rw [exec_mReset_quiet hdropped rfl hm]
  simp [State.setBus, Bus.deregister]

/-! ### MENG's entry and the READ latch (R113, R114) -/

theorem mengStep_idle {b : Nat} {r : Bus} {s : State} (hb : s.buses[b]? = some r) (hm : r.mif = true)
    (hidle : r.busy = false) :
    mengStep b s = .next ((s.setBus b { r with mif := false }).raiseFault 113 .spuriousMasterInt) := by
  rw [mengStep_taken hb hm, mengHandler, if_neg (by simp [hidle])]

theorem mengStep_noDestination {b : Nat} {r : Bus} {s : State} (hb : s.buses[b]? = some r) (hm : r.mif = true)
    (hy : r.busy = true) (ho : r.op = .read) (hd : r.rdest = none) :
    mengStep b s = .next ((s.setBus b { r with mif := false }).raiseFault 114 .unwritten) := by
  simp [mengStep_read hb hm hy ho, latchRead, hd]

/-- Settles O45: MIF is cleared on entry, and the destination of the last READ decides what the latch does. -/
theorem masterInterruptEntryAndReadLatch : Obligations.MasterInterruptEntryAndReadLatch := by
  intro s b r hh hb hm
  refine ⟨mengStep_idle hb hm, mengStep_noDestination hb hm, fun a hy ho hd => ⟨mengStep_latch_stuck hb hm hy ho hd,
    fun ha => ?admitted⟩⟩
  case admitted => rw [mengStep_latch hb hm hy ho hd ha, State.popAnswer_memWrite, State.popAnswer_setBus]

/-- The latch writes its bus's ADDRBYTE, RCELL or WCELL at most. -/
theorem State.memWrite_get {b : Nat} {r : Bus} {s : State} (a : Ref) (v : Byte) (hb : s.buses[b]? = some r) :
    ∃ q, (s.memWrite a v).buses[b]? = some q ∧
      q = { r with addrByte := q.addrByte, rcell := q.rcell, wcell := q.wcell } := by
  have changed (b' : Nat) (g : Bus → Bus)
      (hg : g r = { r with addrByte := (g r).addrByte, rcell := (g r).rcell, wcell := (g r).wcell }) :
      ∃ q, (s.modBus b' g).buses[b]? = some q ∧
        q = { r with addrByte := q.addrByte, rcell := q.rcell, wcell := q.wcell } := by
    rw [State.modBus_get]
    split
    · exact ⟨g r, by rw [hb]; rfl, hg⟩
    · exact ⟨r, hb, rfl⟩
  rw [State.memWrite, State.record_buses]
  cases a with
  | mem x => exact ⟨r, hb, rfl⟩
  | addrByte b' => exact changed b' _ rfl
  | rcell b' i =>
    rw [State.setByteAt]
    split
    · exact changed b' _ rfl
    · exact ⟨r, hb, rfl⟩
  | wcell b' i => exact changed b' _ rfl

/-! ### MENG(b)'s step (R113 to R117) -/

/-- A handler's step that comes to a primitive on its own bus is taken. -/
theorem step_meng_primitive {b : Nat} {r : Bus} {s t : State} {lim : Limits} {p : BitVec 4} {ref : Option Ref} {i : Instr}
    (hh : s.halted = false) (ht : s.turn = .meng b) (hs : .meng b ∉ s.stuck) (hi : decodePrim lim p ref = some i)
    (hstep : mengStep b (s.popTurn.enter (.meng b)) = exec i t) (ha : t.actor = .meng b) (hr : t.buses[b]? = some r) :
    step s = mapNext State.leave (exec i t) := by
  obtain ⟨u, hu⟩ := exec_decodePrim_next ⟨by rw [ha]; rfl, hr⟩ hi
  rw [step_turn hh ht, ← hstep]
  exact congrArg _ (handlerTurn_taken (by simpa using hs) (by simp [hstep, hu]))

section
variable {s : State} {b : Nat} {r : Bus}

/-- The state in which MENG(b)'s continuation is called: its step is under way, its interrupt taken, its draw made. -/
def State.taken (b : Nat) (r : Bus) (s : State) : State :=
  { s.popTurn.popAnswer with actor := .meng b, buses := s.buses.set b { r with mif := false } }

theorem State.taken_eq (b : Nat) (r : Bus) (s : State) :
    (s.popTurn.enter (.meng b)).popAnswer.setBus b { r with mif := false } = s.taken b r := by
  rw [State.popAnswer_enter]
  simp [State.taken, State.setBus, State.enter]

theorem State.taken_get (hb : s.buses[b]? = some r) : (s.taken b r).buses[b]? = some { r with mif := false } :=
  getElem?_set_same hb

@[simp] theorem State.taken_halted (b : Nat) (r : Bus) (s : State) : (s.taken b r).halted = s.halted := by
  rw [← State.taken_eq]
  simp

@[simp] theorem State.taken_cfg (b : Nat) (r : Bus) (s : State) : (s.taken b r).cfg = s.cfg := by
  simp [State.taken]

@[simp] theorem State.taken_actor (b : Nat) (r : Bus) (s : State) : (s.taken b r).actor = .meng b := rfl

theorem mengTurn_live (hb : s.buses[b]? = some r) (hm : r.mif = true) (hy : r.busy = true) (ho : r.op ≠ .read) :
    mengStep b (s.popTurn.enter (.meng b)) =
      callContinuation b (if r.op = .write then r.ackstat else s.popTurn.answer.bit) s.popTurn.answer (s.taken b r) := by
  rw [mengStep_live (by simpa using hb) hm hy ho, State.taken_eq]
  rfl

theorem mengTurn_latch {a : Ref} (hb : s.buses[b]? = some r) (hm : r.mif = true) (hy : r.busy = true) (ho : r.op = .read)
    (hd : r.rdest = some a) (ha : admitted s.cfg b r a = true) :
    mengStep b (s.popTurn.enter (.meng b)) =
      callContinuation b s.popTurn.answer.bit s.popTurn.answer ((s.taken b r).memWrite a r.rxbuf) := by
  rw [mengStep_latch (by simpa using hb) hm hy ho hd (by simpa using ha), State.taken_eq]
  rfl

/-- The byte latched, the continuation and its user data are still registered. -/
theorem State.latched_get (a : Ref) (v : Byte) (hb : s.buses[b]? = some r) :
    ∃ q, ((s.taken b r).memWrite a v).buses[b]? = some q ∧ q.cont = r.cont ∧ q.udata = r.udata := by
  obtain ⟨q, hq, hkeeps⟩ := State.memWrite_get a v (State.taken_get hb)
  exact ⟨q, hq, by rw [hkeeps], by rw [hkeeps]⟩

/-- A custom continuation with no acts: its upcall, and then the primitive it returns. -/
theorem callContinuation_returned {n : Nat} {ud : UData} {nack : Bool} {d : Answer} {i : Instr} (hh : s.halted = false)
    (hb : s.buses[b]? = some r) (hc : r.cont = some (.custom n)) (hu : r.udata = some ud) (ha : d.acts = [])
    (hi : decodePrim s.cfg.limits d.prim (takeRef s.cfg.limits d.ref) = some i) :
    callContinuation b nack d s =
      exec i (s.record (.upcall (.continuation n b ud nack d.prim (takeRef s.cfg.limits d.ref)))) := by
  rw [callContinuation_custom nack d hh hb hc hu ha]
  exact dispatch_decoded _ hi

/-- PROTO at a row that gives a pair: the row's record, and then its primitive. -/
theorem callContinuation_row {nack : Bool} {d : Answer} {p : PrimTag} {ref : Option Ref} {r' : Bus} {i : Instr}
    (hb : s.buses[b]? = some r) (hc : r.cont = some .proto) (hu : r.udata.isSome = true)
    (hrow : protoRow s.cfg b nack r = .ret p ref r') (hi : decodePrim s.cfg.limits p.code ref = some i) :
    callContinuation b nack d s = exec i (s.setBus b r') := by
  rw [callContinuation_proto nack d hb hc hu, runProto_ret hrow]
  exact dispatch_decoded _ hi

end

/-- Settles O17: with the interrupt taken, and after a READ the byte latched, the continuation's primitive is what the step runs. -/
theorem stepRunsTheReturnedPrimitive : Obligations.StepRunsTheReturnedPrimitive := by
  intro s b n r ud ref i hh ht hs hb hm hy hc hu hacts href hi
  subst href
  refine ⟨fun ho => ?live, fun a s' ho hd ha hs' => ?latched⟩
  case live =>
    have hcall := (mengTurn_live hb hm hy ho).trans
      (callContinuation_returned (by simpa using hh) (State.taken_get hb) hc hu hacts (by simpa using hi))
    rw [step_meng_primitive hh ht hs hi hcall rfl (State.taken_get hb)]
    simp [State.record, State.taken]
  case latched =>
    obtain ⟨q, hq, hqc, hqu⟩ := State.latched_get a r.rxbuf hb
    have hcall := (mengTurn_latch hb hm hy ho hd ha).trans
      (callContinuation_returned (by simpa using hh) hq (hqc.trans hc) (hqu.trans hu) hacts (by simpa using hi))
    rw [step_meng_primitive hh ht hs hi hcall (by simp) hq, hs']
    simp [State.record, State.taken]

/-- Settles O18: with the interrupt taken, and after a READ the byte latched, the row's primitive is what the step runs. -/
theorem stepRunsTheProtocolsPrimitive : Obligations.StepRunsTheProtocolsPrimitive := by
  intro s b r r' p ref i hh ht hs hb ⟨hy, hc, hu, hm, _⟩ hi
  refine ⟨fun ho hrow => ?live, fun a s' q ho hd ha hs' hq hrow => ?latched⟩
  case live =>
    have hcall := (mengTurn_live hb hm hy ho).trans
      (callContinuation_row (State.taken_get hb) hc hu (by simpa using hrow) (by simpa using hi))
    rw [step_meng_primitive hh ht hs hi hcall rfl (State.setBus_get (State.taken_get hb))]
    simp [State.setBus, State.taken]
  case latched =>
    subst hs'
    obtain ⟨q', hq', hqc, hqu⟩ := State.latched_get a r.rxbuf hb
    obtain rfl : q' = q := Option.some.inj (hq'.symm.trans hq)
    have hcall := (mengTurn_latch hb hm hy ho hd ha).trans
      (callContinuation_row hq' (hqc.trans hc) (hqu ▸ hu) (by simpa using hrow) (by simpa using hi))
    rw [step_meng_primitive hh ht hs hi hcall (by simp) (State.setBus_get hq')]
    rfl


/-! ### Which fields of its bus's record an instruction may write -/

/-- Whatever the record of bus `b` is, it meets `Q`. -/
def State.BusMeets (b : Nat) (Q : Bus → Prop) (t : State) : Prop := ∀ r', t.buses[b]? = some r' → Q r'

section
variable {b : Nat} {Q : Bus → Prop} {s : State} {r : Bus}

theorem State.BusMeets.of_get (hr : s.buses[b]? = some r) (hQ : Q r) : s.BusMeets b Q :=
  fun _ hr' => Option.some.inj (hr.symm.trans hr') ▸ hQ

theorem State.BusMeets.setBus {q : Bus} (hQ : Q q) : (s.setBus b q).BusMeets b Q := by
  intro r' hr'
  cases hb : s.buses[b]? with
  | none => simp [List.getElem?_set_self', hb] at hr'
  | some r => exact Option.some.inj ((State.setBus_get hb).symm.trans hr') ▸ hQ

theorem State.BusMeets.issue {q : Bus} {op : HwOp} (hQ : ∀ flight, Q { q with inflight := flight }) :
    (s.issue b q op).BusMeets b Q := by
  obtain ⟨-, h⟩ | ⟨-, -, h⟩ := State.issue_cases b q op s
  · rw [h]; exact State.BusMeets.setBus (hQ _)
  · rw [h]; exact State.BusMeets.setBus (hQ q.inflight)

theorem State.BusMeets.complete {c : Cfg} {w : Wire} {op : HwOp} {x : PeerAnswer}
    (hQ : Q { r with inflight := none, mif := true, wire := wireKept c w r.wire }) :
    (s.complete b (r.setWire c w) op x).BusMeets b Q := by
  rw [complete_setWire]
  exact State.BusMeets.setBus hQ

/-- The record that an executed instruction leaves. -/
theorem Yields.record {o : Out} {t : State} {r' : Bus} (h : Yields (State.BusMeets b Q) o) (ho : o = .next t)
    (hr' : t.buses[b]? = some r') : Q r' := by
  rw [ho] at h
  exact h r' hr'

end

/-! #### The host commands (R110 to R112; 41 R150 to R153; 42 R200 to R202) -/

section
variable {bus : BusField} {Q : Bus → Prop} {s : State} {r : Bus}

/-- A command that stops at the checks for the bus and its role leaves the record as it was. -/
theorem withBus_meets {site : Nat} {role : Role} {k : Nat → Bus → Out} (hr : s.buses[bus.toNat]? = some r) (hQ : Q r)
    (hk : Yields (State.BusMeets bus.toNat Q) (k bus.toNat r)) :
    Yields (State.BusMeets bus.toNat Q) (withBus site role bus s k) := by
  obtain h | h | ⟨q, ⟨hq, -⟩, h⟩ := withBus_cases site role bus s k
  · rw [h]; exact State.BusMeets.of_get hr hQ
  · rw [h]; exact State.BusMeets.of_get hr hQ
  · obtain rfl : r = q := Option.some.inj (hr.symm.trans hq)
    rw [h]; exact hk

theorem withTransfer_meets {site wlen rlen : Nat} {k : Nat → Bus → Out} (hr : s.buses[bus.toNat]? = some r) (hQ : Q r)
    (hk : Yields (State.BusMeets bus.toNat Q) (k bus.toNat r)) :
    Yields (State.BusMeets bus.toNat Q) (withTransfer site bus wlen rlen s k) :=
  withBus_meets hr hQ <| by
    split
    · exact State.BusMeets.of_get hr hQ
    · split
      · exact State.BusMeets.of_get hr hQ
      · exact hk

theorem onMainline_meets {b : Nat} {k : Out} (hk : Yields (State.BusMeets b Q) k) :
    Yields (State.BusMeets b Q) (onMainline s k) := by
  unfold onMainline
  split
  · exact hk
  · simp

theorem execMStart_meets {cont : ContId} {ud : UData} (hr : s.buses[bus.toNat]? = some r) (hQ : Q r)
    (hw : ∀ handed flight, Q { r.register cont ud handed with op := .none, inflight := flight }) :
    Yields (State.BusMeets bus.toNat Q) (execMStart bus cont ud s) :=
  withBus_meets hr hQ <| by
    split
    · exact State.BusMeets.of_get hr hQ
    · exact State.BusMeets.issue fun _ => hw ..

theorem execMIsBusy_meets (hr : s.buses[bus.toNat]? = some r) (hQ : Q r) :
    Yields (State.BusMeets bus.toNat Q) (execMIsBusy bus s) :=
  withBus_meets hr hQ (State.BusMeets.of_get (s := { s with ret := some r.busy }) hr hQ)

theorem execMReset_meets (hr : s.buses[bus.toNat]? = some r) (hQ : Q r) (hw : Q r.deregister) :
    Yields (State.BusMeets bus.toNat Q) (execMReset bus s) :=
  withBus_meets hr hQ <| by
    split
    · exact State.BusMeets.of_get hr hQ
    · exact State.BusMeets.setBus hw

/-- What a transfer launched from the record `q` may leave. -/
def Bus.LaunchMeets (c : Cfg) (Q : Bus → Prop) (q : Bus) : Prop :=
  ∀ a7 wptr wlen rptr rlen rcb ud handed flight,
    Q { (q.seed c a7 wptr wlen rptr rlen rcb).register .proto ud handed with op := .none, inflight := flight }

theorem State.BusMeets.launch {b : Nat} {q : Bus} {a7 : Addr7} {wptr rptr : Option Ref} {wlen rlen : Nat}
    {rcb : CallbackId} {more : List Buf} (hw : q.LaunchMeets s.cfg Q) :
    (s.launch b q a7 wptr wlen rptr rlen rcb more).BusMeets b Q :=
  State.BusMeets.issue fun _ => hw ..

theorem execTAsync_meets {a7 : Addr7} {wb rb : Option Nat} {wl rl cb : Nat} (hr : s.buses[bus.toNat]? = some r)
    (hQ : Q r) (hw : r.LaunchMeets s.cfg Q) :
    Yields (State.BusMeets bus.toNat Q) (execTAsync bus a7 wb wl rb rl cb s) :=
  withTransfer_meets hr hQ (State.BusMeets.launch hw)

theorem execTBlock_meets {a7 : Addr7} {wb rb : Option Nat} {wl rl : Nat} (hr : s.buses[bus.toNat]? = some r)
    (hQ : Q r) (hw : ({ r with blkResult := none } : Bus).LaunchMeets s.cfg Q) :
    Yields (State.BusMeets bus.toNat Q) (execTBlock bus a7 wb wl rb rl s) :=
  onMainline_meets <| withTransfer_meets hr hQ (State.BusMeets.launch (s := { s with hostCall := _ }) hw)

theorem execReadReg_meets {a7 : Addr7} {reg : Byte} {ob : Option Nat} {n : Nat} (hr : s.buses[bus.toNat]? = some r)
    (hQ : Q r) (hw : ({ r with rcell := some reg, blkResult := none } : Bus).LaunchMeets s.cfg Q) :
    Yields (State.BusMeets bus.toNat Q) (execReadReg bus a7 reg ob n s) :=
  onMainline_meets <| withTransfer_meets hr hQ (State.BusMeets.launch (s := { s with hostCall := _ }) hw)

theorem execWriteReg_meets {a7 : Addr7} {reg : Byte} {ib : Option Nat} {n : Nat} (hr : s.buses[bus.toNat]? = some r)
    (hQ : Q r) (hw : ∀ cells, ({ r with wcell := cells, blkResult := none } : Bus).LaunchMeets s.cfg Q) :
    Yields (State.BusMeets bus.toNat Q) (execWriteReg bus a7 reg ib n s) :=
  onMainline_meets <| by
    split
    · exact withTransfer_meets hr hQ (State.BusMeets.launch (s := { s.noteReads _ with hostCall := _ }) (hw _))
    · split
      · exact withTransfer_meets hr hQ (State.BusMeets.launch (s := { s with hostCall := _ }) (hw _))
      · exact State.BusMeets.of_get hr hQ

theorem execSInit_meets {a7 : Addr7} {f g bf bt : Nat} {p : Int} (hr : s.buses[bus.toNat]? = some r) (hQ : Q r)
    (hw : Q { r with
      saddr := some a7, cbMsgFrom := some f, cbMsgTo := some g, cbByteFrom := some bf, cbByteTo := some bt, sprio := some p
      sstate := .idle, sif := false, sclhold := false, senabled := true }) :
    Yields (State.BusMeets bus.toNat Q) (execSInit bus a7 f g bf bt p s) :=
  withBus_meets hr hQ <| by
    split
    · exact State.BusMeets.of_get hr hQ
    · exact State.BusMeets.setBus hw

theorem execSDisable_meets (hr : s.buses[bus.toNat]? = some r) (hQ : Q r)
    (hw : Q { r with senabled := false, sstate := .idle, sif := false, sclhold := false }) :
    Yields (State.BusMeets bus.toNat Q) (execSDisable bus s) :=
  withBus_meets hr hQ (State.BusMeets.setBus hw)

theorem execSForceIdle_meets (hr : s.buses[bus.toNat]? = some r) (hQ : Q r) (hw : Q { r with sstate := .idle }) :
    Yields (State.BusMeets bus.toNat Q) (execSForceIdle bus s) :=
  withBus_meets hr hQ (State.BusMeets.setBus hw)

end

/-- Settles O42: past its checks each command writes one record, which with the fields of its rule set back is the record before. -/
theorem commandsWriteOnlyTheirFields : Obligations.CommandsWriteOnlyTheirFields := by
  intro i s t bus r r' hexec hr hr'
  have left {Q : Bus → Prop} (h : Yields (State.BusMeets bus.toNat Q) (exec i s)) : Q r' := h.record hexec hr'
  refine ⟨?mIsBusy, ?mReset, ?mStart, ?tAsync, ?tBlock, ?readReg, ?writeReg, ?sInit, ?sDisable, ?sForceIdle⟩
  case mIsBusy =>
    rintro rfl
    apply left
    exact execMIsBusy_meets hr rfl
  case mReset =>
    rintro rfl
    apply left
    exact execMReset_meets hr rfl rfl
  case mStart =>
    rintro ⟨c, u, rfl⟩
    apply left
    exact execMStart_meets hr rfl fun _ _ => rfl
  case tAsync =>
    rintro ⟨a7, wb, wl, rb, rl, cb, rfl⟩
    apply left
    exact execTAsync_meets hr rfl fun _ _ _ _ _ _ _ _ _ => rfl
  case tBlock =>
    rintro ⟨a7, wb, wl, rb, rl, rfl⟩
    apply left
    exact execTBlock_meets hr rfl fun _ _ _ _ _ _ _ _ _ => rfl
  case readReg =>
    rintro ⟨a7, rg, ob, n, rfl⟩
    apply left
    exact execReadReg_meets hr rfl fun _ _ _ _ _ _ _ _ _ => rfl
  case writeReg =>
    rintro ⟨a7, rg, ib, n, rfl⟩
    apply left
    exact execWriteReg_meets hr rfl fun _ _ _ _ _ _ _ _ _ _ => rfl
  case sInit =>
    rintro ⟨a7, f, g, bf, bt, p, rfl⟩
    apply left
    exact execSInit_meets hr rfl rfl
  case sDisable =>
    rintro rfl
    apply left
    exact execSDisable_meets hr rfl rfl
  case sForceIdle =>
    rintro rfl
    apply left
    exact execSForceIdle_meets hr rfl rfl

/-! #### The primitives and the bus operations (R117 to R126, R130 to R136) -/

/-- WRITE writes OP, and then stops or issues HW_TX. -/
theorem exec_write_meets {s : State} {b : Nat} {r : Bus} {Q : Bus → Prop} (h : s.runsOn b r) (ref : Option Ref)
    (hQ : Q { r with op := .write }) (hflight : ∀ flight, Q { r with op := .write, inflight := flight }) :
    Yields (State.BusMeets b Q) (exec (.write ref) s) := by
  cases ref with
  | none =>
    rw [exec_write_noRef h]
    exact State.BusMeets.setBus hQ
  | some a =>
    cases ha : admitted s.cfg b r a with
    | false =>
      rw [exec_write_notAdmitted h ha]
      exact State.BusMeets.setBus hQ
    | true =>
      cases hv : s.byteAt a with
      | none =>
        rw [exec_write_unwritten h ha hv]
        exact State.BusMeets.setBus hQ
      | some v =>
        rw [exec_write_byte h ha hv]
        exact State.BusMeets.issue hflight

/-- Settles O43: each of them leaves one record, which with the fields of its rule set back is the record before. -/
theorem primitivesAndBusOperationsWriteOnlyTheirFields : Obligations.PrimitivesAndBusOperationsWriteOnlyTheirFields := by
  intro i s t b r r' h hexec hr'
  have left {Q : Bus → Prop} (hQ : Yields (State.BusMeets b Q) (exec i s)) : Q r' := hQ.record hexec hr'
  refine ⟨?none, ?read, ?issuing, ?done, ?quit, ?silent, ?hwTx, ?hwRxen⟩
  case none =>
    rintro rfl
    apply left
    exact State.BusMeets.of_get (s := s.raiseFatal 126 .badPrimitive 0) h.2 rfl
  case read =>
    rintro ⟨ref, rfl⟩
    apply left
    rw [exec_read h]
    exact State.BusMeets.issue fun _ => rfl
  case issuing =>
    intro hi
    apply left
    obtain ⟨ref, rfl⟩ | rfl | rfl | rfl | rfl := hi
    · exact exec_write_meets h ref rfl fun _ => rfl
    · rw [exec_restart h]; exact State.BusMeets.issue fun _ => rfl
    · rw [exec_ack h]; exact State.BusMeets.issue fun _ => rfl
    · rw [exec_nack h]; exact State.BusMeets.issue fun _ => rfl
    · rw [exec_stop h]; exact State.BusMeets.issue fun _ => rfl
  case done =>
    rintro rfl
    apply left
    rw [exec_done h]
    exact State.BusMeets.setBus rfl
  case quit =>
    rintro rfl
    apply left
    rw [exec_quit h]
    exact State.BusMeets.setBus rfl
  case silent =>
    intro hi
    apply left
    obtain rfl | rfl | rfl | ⟨k, rfl⟩ := hi
    · rw [exec_hwStart h]; exact State.BusMeets.complete rfl
    · rw [exec_hwRestart h]; exact State.BusMeets.complete rfl
    · rw [exec_hwStop h]; exact State.BusMeets.complete rfl
    · rw [exec_hwAckbit h]; exact State.BusMeets.complete rfl
  case hwTx =>
    rintro ⟨v, rfl⟩
    apply left
    rw [exec_hwTx h]
    exact State.BusMeets.complete rfl
  case hwRxen =>
    rintro rfl
    apply left
    rw [exec_hwRxen h]
    exact State.BusMeets.complete rfl

/-! ### A transfer started on a held wire (R124, R129; 60 R251) -/

/-- The outcome is the fault at the issue of HW_START in state `s`, on bus `b` with record `r`, after the events `es`. -/
def FaultsAtStart (s : State) (b : Nat) (r : Bus) (o : Out) : Prop :=
  ∃ t r' es, o = .next t ∧ t.sysFault = some .busSequence ∧ t.sysFatal = s.sysFatal ∧
    t.buses = s.buses.set b r' ∧ r'.busy = true ∧ r'.cont = some .proto ∧ r'.pstate = .startDone ∧
    r'.inflight = r.inflight ∧ r'.mif = r.mif ∧ t.mem = s.mem ∧
    t.trace = s.trace ++ es ++ [.fault .busSequence 129]

/-- A launch on a held wire, from a record with the control fields of `r` and after the events `es`. -/
theorem launch_faultsAtStart {s u : State} {b : Nat} {r q : Bus} {a7 : Addr7} {wptr rptr : Option Ref} {wlen rlen : Nat}
    {rcb : CallbackId} {more : List Buf} (call : Option Nat) (es : List Event)
    (hc : s.cfg.busSeqCheck = true)
    (hw : r.wire ≠ .free) (hq : q.control = r.control) (hu : u = { s with hostCall := call, trace := s.trace ++ es }) :
    FaultsAtStart s b r (.next (u.launch b q a7 wptr wlen rptr rlen rcb more)) := by
  subst hu
  have hwire : q.wire = r.wire := show q.control.wire = r.control.wire by rw [hq]
  have hflight : q.inflight = r.inflight := show q.control.inflight = r.control.inflight by rw [hq]
  have hmif : q.mif = r.mif := show q.control.mif = r.control.mif by rw [hq]
  have hillegal : legalIn .start q.wire = false := by simpa [hwire] using hw
  exact ⟨_, _, es, congrArg _ (State.issue_illegal hc hillegal), rfl, rfl, rfl, rfl, rfl, rfl, hflight, hmif, rfl, rfl⟩

/-- Settles O26: each of the four passes its checks and launches its transfer from a record that is the old one but for its cells. -/
theorem startingATransferOnAHeldWireFaults : Obligations.StartingATransferOnAHeldWireFaults := by
  intro bus i s r hhost hbus hidle hc hw hi
  show FaultsAtStart s bus.toNat r (exec i s)
  obtain ⟨a7, wb, wl, rb, rl, cb, rfl, hl⟩ | ⟨a7, wb, wl, rb, rl, rfl, hl⟩ | ⟨a7, reg, ob, n, rfl⟩ |
    ⟨a7, reg, base, n, rfl⟩ := hi
  · show FaultsAtStart s bus.toNat r (execTAsync bus a7 wb wl rb rl cb s)
    rw [execTAsync, withTransfer_ok hbus hl hidle]
    exact launch_faultsAtStart s.hostCall [] hc hw rfl (by simp)
  · show FaultsAtStart s bus.toNat r (execTBlock bus a7 wb wl rb rl s)
    rw [execTBlock, onMainline_host hhost, withTransfer_ok hbus hl hidle]
    exact launch_faultsAtStart (some bus.toNat) [] hc hw rfl (by simp)
  · show FaultsAtStart s bus.toNat r (execReadReg bus a7 reg ob n s)
    rw [execReadReg, onMainline_host hhost, withTransfer_ok hbus (by omega) hidle]
    exact launch_faultsAtStart (some bus.toNat) [] hc hw rfl (by simp)
  · show FaultsAtStart s bus.toNat r (execWriteReg bus a7 reg (some base) n s)
    rw [execWriteReg, onMainline_host hhost, withTransfer_ok hbus (by omega) hidle]
    exact launch_faultsAtStart (some bus.toNat) _ hc hw rfl rfl

end Sys2Proof.Machine

/-! SUPPORT. Proofs of the family 41_master_protocol.md: PROTO's state table (R154 to R168), the transfer commands (R150 to R153),
the blocking poll (R151), a NACK's abort (R171), the end of a transfer (R168, R176), and the write and the read phase run whole (R172,
R174). -/

namespace Sys2Proof.Machine

/-! ### PROTO's table, row by row (R154 to R167) -/

section
variable {c : Cfg} {b : Nat} {nack : Bool} {r : Bus}

theorem protoRow_startDone {a : Addr7} (hp : r.pstate = .startDone) (ha : r.addr = some a) :
    protoRow c b nack r = .ret .write (some (.addrByte b))
      { r with addrByte := some (addressByte a (r.wrem == 0)), pstate := .addressDone } := by
  simp [protoRow, hp, rowStartDone, ha]

theorem protoRow_addressNacked (hp : r.pstate = .addressDone) :
    protoRow c b true r = rowStop c false .nackAddress r := by
  simp [protoRow, hp]

theorem protoRow_writeNacked (hp : r.pstate = .writeInProgress) :
    protoRow c b true r = rowStop c false (nackWriteCode r) r := by
  simp [protoRow, hp]

/-- After the address or a byte was acknowledged, the next byte goes out while any remain. -/
theorem protoRow_writeByte {p : Ref} (hp : r.pstate = .addressDone ∨ r.pstate = .writeInProgress) (hw : 0 < r.wrem)
    (hptr : r.wptr = some p) :
    protoRow c b false r = .ret .write (some p)
      { r with wptr := some (refNext c.addrBits p), wrem := r.wrem - 1,
               wsent := if c.richResult then r.wsent + 1 else r.wsent, pstate := .writeInProgress } := by
  rcases hp with hp | hp <;> simp [protoRow, hp, hw, rowWriteByte, hptr]

theorem protoRow_firstRead {p : Ref} (hp : r.pstate = .addressDone) (hw : r.wrem = 0) (hr : 0 < r.rrem)
    (hptr : r.rptr = some p) :
    protoRow c b false r = .ret .read (some p)
      { r with rptr := some (refNext c.addrBits p), rrem := r.rrem - 1, pstate := .readInProgress } := by
  simp [protoRow, hp, hw, hr, rowReadSlot, hptr]

theorem protoRow_finished (hp : r.pstate = .addressDone ∨ r.pstate = .writeInProgress) (hw : r.wrem = 0) (hr : r.rrem = 0) :
    protoRow c b false r = rowStop c true .finished r := by
  rcases hp with hp | hp <;> simp [protoRow, hp, hw, hr]

theorem protoRow_turnAround (hp : r.pstate = .writeInProgress) (hw : r.wrem = 0) (hr : 0 < r.rrem) :
    protoRow c b false r = .ret .restart none { r with pstate := .startDone } := by
  simp [protoRow, hp, hw, hr]

theorem protoRow_ack (hp : r.pstate = .readInProgress) (hr : 0 < r.rrem) :
    protoRow c b nack r = .ret .ack none { r with pstate := .ackDone } := by
  simp [protoRow, hp, hr]

theorem protoRow_nack (hp : r.pstate = .readInProgress) (hr : r.rrem = 0) :
    protoRow c b nack r = .ret .nack none { r.conclude c true .finished with pstate := .nackDone } := by
  simp [protoRow, hp, hr]

theorem protoRow_nextRead {p : Ref} (hp : r.pstate = .ackDone) (hptr : r.rptr = some p) :
    protoRow c b nack r = .ret .read (some p)
      { r with rptr := some (refNext c.addrBits p), rrem := r.rrem - 1, pstate := .readInProgress } := by
  simp [protoRow, hp, rowReadSlot, hptr]

theorem protoRow_nackDone (hp : r.pstate = .nackDone) :
    protoRow c b nack r = .ret .stop none { r with pstate := .stopDone } := by
  simp [protoRow, hp]

theorem protoRow_stopDone {cb : CallbackId} (hp : r.pstate = .stopDone) (hcb : r.rcb = some cb) :
    protoRow c b nack r = .onDone cb r.result := by
  simp [protoRow, hp, hcb]

theorem runProto_idle (s : State) (hp : r.pstate = .idle) :
    runProto b nack r s = .next (s.raiseFatal 154 .badState 0) := by
  simp [runProto, protoRow, hp]

end

/-- Settles O47: each clause is one row of the table, or the two rows that return the same pair. -/
theorem protocolAddressAndWriteRows : Obligations.ProtocolAddressAndWriteRows := by
  intro c b r
  refine ⟨fun nack a hp ha => ?startDone, protoRow_addressNacked, fun p hp hw => protoRow_writeByte hp hw,
    fun p hp hw => protoRow_firstRead hp hw, protoRow_finished, protoRow_writeNacked, protoRow_turnAround⟩
  case startDone =>
    rw [protoRow_startDone hp ha]
    cases r.wrem <;> rfl

/-- Settles O48: each clause is one row of the table. -/
theorem protocolReadRows : Obligations.ProtocolReadRows :=
  fun _ _ _ _ => ⟨protoRow_ack, protoRow_nack, fun _ hp _ hptr => protoRow_nextRead hp hptr, protoRow_nackDone, runProto_idle⟩

/-! ### What PROTO returns and writes (R154) -/

/-- A pair returned from the record `r` has one of R154's codes, and the record written differs in the protocol's own fields at
most. -/
def Row.isProtocols (r : Bus) : Row → Prop
  | .ret p _ r' =>
    p ∈ [PrimTag.read, .write, .restart, .ack, .nack, .stop, .done] ∧
    r' = { r with
      pstate := r'.pstate, wptr := r'.wptr, wrem := r'.wrem, rptr := r'.rptr, rrem := r'.rrem, result := r'.result
      addrByte := r'.addrByte, wsent := r'.wsent, rcode := r'.rcode }
  | .onDone _ _ | .unwritten _ | .badState => True

section
variable (c : Cfg) (b : Nat) (r : Bus)

theorem rowStartDone_isProtocols : (rowStartDone b r).isProtocols r := by
  unfold rowStartDone
  split
  · trivial
  · exact ⟨by decide, rfl⟩

theorem rowWriteByte_isProtocols (site : Nat) : (rowWriteByte site c r).isProtocols r := by
  unfold rowWriteByte
  split
  · trivial
  · exact ⟨by decide, rfl⟩

theorem rowReadSlot_isProtocols (site : Nat) : (rowReadSlot site c r).isProtocols r := by
  unfold rowReadSlot
  split
  · trivial
  · exact ⟨by decide, rfl⟩

theorem rowStop_isProtocols (ok : Bool) (code : RCode) : (rowStop c ok code r).isProtocols r := ⟨by decide, rfl⟩

theorem protoRow_isProtocols (nack : Bool) : (protoRow c b nack r).isProtocols r := by
  unfold protoRow
  split
  case h_1 => trivial
  case h_2 => exact rowStartDone_isProtocols b r
  case h_3 =>
    split_ifs
    · exact rowStop_isProtocols ..
    · exact rowWriteByte_isProtocols ..
    · exact rowReadSlot_isProtocols ..
    · exact rowStop_isProtocols ..
  case h_4 =>
    split_ifs
    · exact rowStop_isProtocols ..
    · exact rowWriteByte_isProtocols ..
    · exact ⟨by decide, rfl⟩
    · exact rowStop_isProtocols ..
  case h_5 => split_ifs <;> exact ⟨by decide, rfl⟩
  case h_6 => exact rowReadSlot_isProtocols ..
  case h_7 => exact ⟨by decide, rfl⟩
  case h_8 => split <;> trivial

end

/-- Settles O49: every field named is one that the rows do not write. -/
theorem protoReturnsOnlyItsSevenCodes : Obligations.ProtoReturnsOnlyItsSevenCodes := by
  intro c b nack r r' p ref h
  have hrow := protoRow_isProtocols c b r nack
  rw [h] at hrow
  obtain ⟨hp, hr'⟩ := hrow
  refine ⟨by simpa using hp, ?_⟩
  rw [hr']
  exact ⟨rfl, rfl, rfl, rfl, rfl, rfl, rfl, rfl, rfl, rfl, rfl⟩

/-! ### The transfer commands (R150 to R153) -/

section
variable {bus : BusField} {a7 : Addr7} {wb rb : Option Nat} {wl rl : Nat} {s : State}

theorem exec_tAsync (cb : Nat) :
    exec (.tAsync bus a7 wb wl rb rl cb) s = withTransfer 150 bus wl rl s fun b r =>
      .next (s.launch b r a7 (wb.map .mem) wl (rb.map .mem) rl (.user cb) []) := rfl

theorem exec_tBlock (h : s.actor = .host) :
    exec (.tBlock bus a7 wb wl rb rl) s = withTransfer 151 bus wl rl s fun b r =>
      .next (s.launchBlock b r a7 (wb.map .mem) wl (rb.map .mem) rl []) := onMainline_host h

theorem exec_readReg (reg : Byte) (ob : Option Nat) (n : Nat) (h : s.actor = .host) :
    exec (.readReg bus a7 reg ob n) s = withTransfer 152 bus 1 n s fun b r =>
      .next (s.launchBlock b { r with rcell := some reg } a7 (some (.rcell b 0)) 1 (ob.map .mem) n []) := onMainline_host h

theorem exec_writeReg (reg : Byte) (base n : Nat) (h : s.actor = .host) :
    exec (.writeReg bus a7 reg (some base) n) s = withTransfer 153 bus (n + 1) 0 s fun b r =>
      .next ((s.noteReads (s.readRun base n)).launchBlock b
        { r with wcell := fillCells (reg :: (s.readRun base n).map (·.2)) r.wcell } a7
        (some (.wcell b 0)) (n + 1) none 0 (bufOf (some (.mem base)) n)) := onMainline_host h

/-- With no data bytes no base is needed: nothing is read, and nothing beside WCELL is handed over. -/
theorem exec_writeReg_noData (reg : Byte) (base : Nat) (h : s.actor = .host) :
    exec (.writeReg bus a7 reg none 0) s = exec (.writeReg bus a7 reg (some base) 0) s := by
  have hnone : s.noteReads [] = s := by simp [State.noteReads]
  rw [exec_writeReg reg base 0 h]
  show execWriteReg bus a7 reg none 0 s = _
  simp [execWriteReg, onMainline_host h, State.readRun, hnone]

/-- A blocking transfer launched where HW_START is in sequence: BLK_RESULT is unset, and the HOST polls. -/
theorem State.launchBlock_ok {b : Nat} {r : Bus} {wptr rptr : Option Ref} {more : List Buf}
    (h : canIssue s.cfg .start r.wire) :
    s.launchBlock b r a7 wptr wl rptr rl more =
      (({ s with hostCall := some b }).setBus b
        { (({ r with blkResult := none } : Bus).seed s.cfg a7 wptr wl rptr rl .blkcb).register .proto (.record b)
            (more ++ bufOf wptr wl ++ bufOf rptr rl) with
          op := .none
          inflight := some HwOp.start.word }).record (.issued b .start) :=
  State.launch_ok (s := { s with hostCall := some b }) (r := { r with blkResult := none }) h

end

/-- The header and the record of R150 decode to T_ASYNC. -/
theorem decodeCmd_tAsync {lim : Limits} {bus : BusField} {a7 : Addr7} {wb rb : Option Nat} {wl rl cb : Nat}
    (hwf : Instr.wellFormed lim (.tAsync bus a7 wb wl rb rl cb) = true) :
    decodeCmd lim ⟨0x4#4 ++ bus ++ 0#1 ++ a7,
      { wbase := wb, wlen := some wl, rbase := rb, rlen := some rl, onDone := some cb }⟩ =
      .ok (.tAsync bus a7 wb wl rb rl cb) := by
  have hdecode := decodingAnEncodedInstructionGivesItBack lim _ hwf
  simp only [encode, cmdCode, decode] at hdecode
  split at hdecode
  · next i hi => cases hdecode; exact hi
  · cases hdecode

/-- Settles O22: the checks stand in R246's order, and past them the launch issues HW_START or finds the wire held. -/
theorem tAsyncSeedsTheTransactionAndStarts : Obligations.TAsyncSeedsTheTransactionAndStarts := by
  intro bus a7 wb wl rb rl cb s
  rw [exec_tAsync]
  refine ⟨fun lim o hwf ho => ?decodes, withTransfer_unknown, fun r hr => ⟨withTransfer_empty hr, withTransfer_busy hr,
    fun hl hidle hc => ?issued, fun hl hidle hc hw => ?held⟩⟩
  case decodes => exact ho ▸ decodeCmd_tAsync hwf
  case issued => exact (withTransfer_ok hr hl hidle).trans (congrArg _ (State.launch_ok hc))
  case held => exact (withTransfer_ok hr hl hidle).trans (issue_next_illegal hc (by simpa using hw))

/-- Settles O23: past the checks the launch of a blocking transfer issues HW_START. -/
theorem tBlockStartsAndPolls : Obligations.TBlockStartsAndPolls := by
  intro bus a7 wb wl rb rl s hhost
  rw [exec_tBlock hhost]
  refine ⟨withTransfer_unknown, fun r hr => ⟨withTransfer_empty hr, withTransfer_busy hr, fun hl hidle hc => ?issued⟩⟩
  case issued => exact (withTransfer_ok hr hl hidle).trans (congrArg _ (State.launchBlock_ok hc))

/-- Settles O24: a transfer of one byte out is never empty, and RCELL is written with its record. -/
theorem readRegFramesRegisterThenRead : Obligations.ReadRegFramesRegisterThenRead := by
  intro bus a7 reg ob n s hhost
  rw [exec_readReg reg ob n hhost]
  refine ⟨withTransfer_unknown, fun r hr => ⟨withTransfer_busy hr (by omega), fun hidle hc => ?issued⟩⟩
  case issued => exact (withTransfer_ok hr (by omega) hidle).trans (congrArg _ (State.launchBlock_ok hc))

theorem cellAt_fillCells (bytes : List Byte) (old : List (Option Byte)) (i : Nat) :
    cellAt (fillCells bytes old) i = if i < bytes.length then bytes[i]? else cellAt old i := by
  unfold cellAt fillCells
  split
  · next h => simp [List.getElem?_append_left, h]
  · next h => rw [List.getElem?_append_right (by simpa using h)]; simp [Nat.add_sub_cancel' (Nat.le_of_not_lt h)]

theorem State.readRun_length (s : State) (base n : Nat) : (s.readRun base n).length = n := by simp [State.readRun]

theorem State.readRun_get {i n : Nat} (s : State) (base : Nat) (h : i < n) :
    ((s.readRun base n).map (·.2))[i]? = some (Memory.read s.mem ((base + i) % 2 ^ s.cfg.addrBits)) := by
  simp [State.readRun, h]

/-- Settles O25: the cells are those of `fillCells`, whose bytes are the register and what the reads give. -/
theorem writeRegFramesRegisterThenData : Obligations.WriteRegFramesRegisterThenData := by
  intro bus a7 reg base n s hhost
  rw [exec_writeReg_noData reg base hhost, exec_writeReg reg base n hhost]
  refine ⟨withTransfer_unknown, rfl, fun r hr => ⟨withTransfer_busy hr (by omega), fun hidle hc => ?issued⟩⟩
  case issued =>
    refine ⟨fillCells (reg :: (s.readRun base n).map (·.2)) r.wcell, ?register, fun i hi => ?data, fun j hj => ?later, ?next⟩
    case register => simp [cellAt_fillCells]
    case data =>
      rw [cellAt_fillCells, if_pos (by simpa [State.readRun_length] using hi), List.getElem?_cons_succ, s.readRun_get base hi]
    case later => rw [cellAt_fillCells, if_neg (by simp [State.readRun_length]; omega)]
    case next =>
      rw [withTransfer_ok hr (by omega) hidle, State.launchBlock_ok (by exact hc)]
      simp [State.noteReads, State.readRun, State.setBus, State.record, Bus.seed, Bus.register, HwOp.word]

/-! ### The blocking poll (R151) -/

theorem hostPoll_busy {s : State} {b : Nat} {r : Bus} (hb : s.buses[b]? = some r) (hy : r.busy = true) :
    hostPoll b s = .next s := by
  simp [hostPoll, hb, hy]

theorem hostPoll_result {s : State} {b : Nat} {r : Bus} {v : Bool} (hb : s.buses[b]? = some r) (hy : r.busy = false)
    (hv : r.blkResult = some v) : hostPoll b s = .next { s with hostCall := none, ret := some v } := by
  simp [hostPoll, hb, hy, hv]

theorem hostPoll_draw {s : State} {b : Nat} {r : Bus} (hb : s.buses[b]? = some r) (hy : r.busy = false)
    (hv : r.blkResult = none) :
    hostPoll b s = .next { s.popAnswer with hostCall := none, ret := some s.answer.bit } := by
  simp [hostPoll, hb, hy, hv]

/-- HOST's turn inside a blocking call is a poll. -/
theorem step_hostPoll {s : State} {b : Nat} (hh : s.halted = false) (ht : s.turn = .host) (hc : s.hostCall = some b) :
    step s = mapNext State.leave (hostPoll b (s.popTurn.enter .host)) := by
  rw [step_turn hh ht]
  simp [runTurn, hostStep, hc]

/-- Settles O53: BUSY, and then BLK_RESULT, decide what the poll does. -/
theorem blockingPollReturnsTheResult : Obligations.BlockingPollReturnsTheResult := by
  intro s b r hh ht hc hb
  rw [step_hostPoll hh ht hc]
  have hb' : (s.popTurn.enter .host).buses[b]? = some r := by simpa using hb
  refine ⟨fun hy => ?busy, fun v hy hv => ?result, fun hy hv => ?draw⟩
  case busy => rw [hostPoll_busy hb' hy]; rfl
  case result => rw [hostPoll_result hb' hy hv]; rfl
  case draw => rw [hostPoll_draw hb' hy hv, State.popAnswer_enter]; rfl

/-! ### A NACK's abort (R156, R160, R171) -/

/-- Settles O50: either row returns STOP, which the step issues. -/
theorem nackAbortsWithStopAndNoRetry : Obligations.NackAbortsWithStopAndNoRetry := by
  intro s b r hh ht hs hb hmid ho hnack hp hlegal
  have hrow : ∃ code, protoRow s.cfg b (if r.op = .write then r.ackstat else s.popTurn.answer.bit) { r with mif := false } =
      rowStop s.cfg false code { r with mif := false } := by
    rw [if_pos ho, hnack]
    obtain hp | hp := hp
    · exact ⟨_, protoRow_addressNacked hp⟩
    · exact ⟨_, protoRow_writeNacked hp⟩
  obtain ⟨code, hrow⟩ := hrow
  have hstep := (stepRunsTheProtocolsPrimitive s b r _ .stop none .stop hh ht hs hb hmid rfl).1 (by simp [ho]) hrow
  rw [exec_stop ⟨rfl, getElem?_set_same hb⟩, State.issue_ok (by simpa [canIssue] using hlegal)] at hstep
  refine ⟨_, _, hstep, ?running, getElem?_set_same (getElem?_set_same hb), rfl, rfl, rfl, hmid.1, rfl, rfl, ?trace⟩
  case running => simpa [State.halted] using hh
  case trace => simp

/-! ### The end of a transfer (R168, R176) -/

section
variable {s : State} {b : Nat} {r : Bus}

/-- A second draw made while MENG(b)'s step is under way. -/
theorem State.taken_popAnswer (b : Nat) (r : Bus) (s : State) :
    (s.taken b r).popAnswer = { s.popTurn.popAnswer.popAnswer with
      actor := .meng b, buses := s.buses.set b { r with mif := false } } := by
  rw [← State.taken_eq, State.popAnswer_setBus, State.popAnswer_enter, State.popAnswer_enter]
  simp [State.setBus, State.enter]

/-- PSTATE ← IDLE, and then DONE. -/
theorem finishTransfer_done (ha : s.actor = .meng b) (hb : s.buses[b]? = some r) :
    finishTransfer b s = .next (s.setBus b { r.deregister with pstate := .idle, op := .done }) := by
  rw [finishTransfer, State.modBus_of_get hb, dispatch_decoded (i := .done) _ rfl,
    exec_done ⟨by simp [ha, Agent.bus?], State.setBus_get hb⟩, State.setBus_setBus]
  rfl

theorem runOnDone_blkcb (result : Bool) (hb : s.buses[b]? = some r) :
    runOnDone .blkcb b result s =
      .next ((s.record (.upcall (.onDone .blkcb b result))).setBus b { r with blkResult := some result }) := by
  rw [runOnDone, State.modBus_of_get (by simpa using hb)]

/-- The application's callback takes a draw; here it does nothing else. -/
theorem runOnDone_user (n : Nat) (result : Bool) (ha : s.answer.acts = []) :
    runOnDone (.user n) b result s = .next (s.popAnswer.record (.upcall (.onDone (.user n) b result))) := by
  rw [runOnDone, ha, upcall_nothing]

/-- The STOP_DONE row: the callback leaves the record `q`, and the transfer ends. -/
theorem runProto_stopDone {nack : Bool} {cb : CallbackId} {t : State} {q : Bus} (hp : r.pstate = .stopDone)
    (hcb : r.rcb = some cb) (ht : runOnDone cb b r.result s = .next t) (hh : t.halted = false) (ha : t.actor = .meng b)
    (hq : t.buses[b]? = some q) :
    runProto b nack r s = .next (t.setBus b { q.deregister with pstate := .idle, op := .done }) := by
  simp only [runProto, protoRow_stopDone hp hcb]
  rw [ht, andThen_running hh, finishTransfer_done ha hq]

/-- MENG(b)'s step where PROTO's call answers a next state. -/
theorem step_meng_proto {t : State} (hh : s.halted = false) (ht : s.turn = .meng b) (hs : .meng b ∉ s.stuck)
    (hb : s.buses[b]? = some r) (hmid : r.midTransfer) (ho : r.op ≠ .read)
    (hrun : ∀ nack, runProto b nack { r with mif := false } (s.taken b r) = .next t) : step s = .next t.leave := by
  obtain ⟨hy, hc, hu, hm, -⟩ := hmid
  have hcall := mengTurn_live hb hm hy ho
  rw [callContinuation_proto _ _ (State.taken_get hb) hc hu, hrun] at hcall
  rw [step_turn hh ht]
  exact congrArg _ ((handlerTurn_taken (by simpa using hs) (by simp [hcall])).trans hcall)

end

/-- Settles O51: the result callback, BLKCB or the application's, and then the end of the transfer. -/
theorem stopDoneReportsThenClearsBusy : Obligations.StopDoneReportsThenClearsBusy := by
  intro s b r hh ht hs hb hmid ho hp
  have htaken := State.taken_get hb
  refine ⟨fun n hcb hacts => ?user, fun hcb => ?blkcb⟩
  case user =>
    have hacts' : (s.taken b r).answer.acts = [] := (congrArg Answer.acts (State.answer_congr rfl rfl)).trans hacts
    rw [step_meng_proto hh ht hs hb hmid ho fun _ => runProto_stopDone hp hcb (runOnDone_user n r.result hacts') (by simpa using hh)
      (by simp) (by simpa using htaken)]
    simp [State.taken_popAnswer, State.setBus, State.record, State.leave, Bus.deregister]
  case blkcb =>
    rw [step_meng_proto hh ht hs hb hmid ho fun _ => runProto_stopDone hp hcb (runOnDone_blkcb r.result htaken) (by simpa using hh)
      (by simp) (State.setBus_get htaken)]
    simp [State.taken, State.setBus, State.record, State.leave, Bus.deregister]


/-! ### Turns and draws that are settled from outside (60 R250; 00 R12) -/

theorem State.turn_settled {s : State} {t : Turn} {ts : List Turn} (h : s.agenda = t :: ts) : s.turn = t := by
  simp [State.turn, h]

theorem State.popTurn_settled {s : State} {t : Turn} {ts : List Turn} (h : s.agenda = t :: ts) :
    s.popTurn = { s with agenda := ts } := by
  simp [State.popTurn, h]

theorem State.answer_settled {s : State} {d : Answer} {ds : List Answer} (h : s.answers = d :: ds) : s.answer = d := by
  simp [State.answer, h]

theorem State.popAnswer_settled {s : State} {d : Answer} {ds : List Answer} (h : s.answers = d :: ds) :
    s.popAnswer = { s with answers := ds } := by
  simp [State.popAnswer, h]

theorem core_run_succ {s t : State} (h : step s = .next t) (k : Nat) : core.run (k + 1) s = core.run k t := by
  have hstep : core.step s = .next t := h
  simp [Host.Core.run, hstep]

theorem core_run_two {s t u : State} (h : step s = .next t) (h' : step t = .next u) (k : Nat) :
    core.run (k + 2) s = core.run k u :=
  (core_run_succ h (k + 1)).trans (core_run_succ h' k)

/-! ### What the steps of one bus's engine leave -/

/-- The state after steps of bus `b`'s agents: the record `r`, the memory `m`, the events `es` more in the trace, and the turns
`ts` and the draws `ds` still to come. -/
def State.advanced (b : Nat) (r : Bus) (m : List Host.Cell) (es : List Event) (ts : List Turn) (ds : List Answer) (s : State) :
    State :=
  { s with buses := s.buses.set b r, mem := m, trace := s.trace ++ es, actor := .host, agenda := ts, answers := ds }

section
variable {b : Nat} {r q : Bus} {m : List Host.Cell} {es : List Event} {ts : List Turn} {ds : List Answer} {s t : State}

theorem State.advanced_get (hb : s.buses[b]? = some r) : (s.advanced b q m es ts ds).buses[b]? = some q :=
  getElem?_set_same hb

theorem State.advanced_advanced {q' : Bus} {m' : List Host.Cell} {es' : List Event} {ts' : List Turn} {ds' : List Answer} :
    (s.advanced b q m es ts ds).advanced b q' m' es' ts' ds' = s.advanced b q' m' (es ++ es') ts' ds' := by
  simp [State.advanced]

theorem State.noteRead_advanced {a : Ref} {v : Byte} :
    (s.noteRead a v).advanced b q m es ts ds = s.advanced b q m (.memRead a v :: es) ts ds := by
  simp [State.advanced, State.noteRead, State.record]

theorem State.memWrite_advanced {a : Nat} {v : Byte} :
    (s.memWrite (.mem a) v).advanced b q m es ts ds = s.advanced b q m (.memWrite (.mem a) v :: es) ts ds := by
  simp [State.advanced, State.memWrite_memRef]

theorem State.busTrace_advanced :
    (s.advanced b q m es ts ds).busTrace b = s.busTrace b ++ State.busTrace b { s with trace := es } := by
  simp [State.busTrace, State.advanced]

/-- A change of a bus's record that keeps its three cells changes no byte. -/
theorem State.byteAt_set (hb : s.buses[b]? = some r) (hbuses : t.buses = s.buses.set b q) (hmem : t.mem = s.mem)
    (haddr : q.addrByte = r.addrByte) (hrcell : q.rcell = r.rcell) (hwcell : q.wcell = r.wcell) (a : Ref) :
    t.byteAt a = s.byteAt a := by
  have cell (c : Nat) (f : Bus → Option Byte) (hf : f q = f r) : (t.buses[c]?).bind f = (s.buses[c]?).bind f := by
    by_cases hbc : b = c
    · subst hbc
      rw [hbuses, getElem?_set_same hb, hb]
      exact hf
    · rw [hbuses, getElem?_set_other hbc]
  cases a with
  | mem x => simp [State.byteAt, hmem]
  | addrByte c => exact cell c _ haddr
  | rcell c i => exact cell c _ (by simp [hrcell])
  | wcell c i => exact cell c _ (by simp [hwcell])

/-- MENG(b) can take its interrupt: PROTO is in mid-transfer on bus `b`, whose record is `r`. -/
structure State.Due (b : Nat) (r : Bus) (s : State) : Prop where
  running : s.halted = false
  free : .meng b ∉ s.stuck
  bus : s.buses[b]? = some r
  mid : r.midTransfer

theorem State.Due.advanced (h : s.Due b r) (hmid : q.midTransfer) : (s.advanced b q m es ts ds).Due b q :=
  ⟨h.running, h.free, State.advanced_get h.bus, hmid⟩

/-- MENG(b)'s step is under way: its turn and its draw are taken, and PROTO's row has written the record `q`. -/
def State.inHandler (b : Nat) (q : Bus) (ts : List Turn) (ds : List Answer) (s : State) : State :=
  { s with agenda := ts, answers := ds, actor := .meng b, buses := s.buses.set b q }

theorem State.inHandler_runsOn (hb : s.buses[b]? = some r) : (s.inHandler b q ts ds).runsOn b q :=
  ⟨rfl, getElem?_set_same hb⟩

/-- The step ends with an operation issued. -/
theorem mapNext_leave_issue {q' : Bus} {op : HwOp} (h : canIssue s.cfg op q'.wire) :
    mapNext State.leave (.next ((s.inHandler b q ts ds).issue b q' op)) =
      .next (s.advanced b { q' with inflight := some op.word } s.mem [.issued b op] ts ds) := by
  rw [State.issue_ok (s := s.inHandler b q ts ds) h]
  simp [mapNext, State.inHandler, State.record, State.setBus, State.leave, State.advanced]

/-- MENG(b)'s step after a primitive other than READ runs the row's primitive. -/
theorem State.Due.step_row {d : Answer} {p : PrimTag} {ref : Option Ref} {i : Instr} (h : s.Due b r) (ho : r.op ≠ .read)
    (hts : s.agenda = .meng b :: ts) (hds : s.answers = d :: ds)
    (hrow : protoRow s.cfg b (if r.op = .write then r.ackstat else d.bit) { r with mif := false } = .ret p ref q)
    (hi : decodePrim s.cfg.limits p.code ref = some i) :
    step s = mapNext State.leave (exec i (s.inHandler b q ts ds)) := by
  have hdraw : s.popTurn.answer = d := State.answer_settled (by simpa using hds)
  have hstep := (stepRunsTheProtocolsPrimitive s b r q p ref i h.running (State.turn_settled hts) h.free h.bus h.mid hi).1 ho
    (by rw [hdraw]; exact hrow)
  rwa [State.popTurn_settled hts, State.popAnswer_settled (s := { s with agenda := ts }) hds] at hstep

/-- MENG(b)'s step after a READ into ordinary memory stores the byte and then runs the row's primitive. -/
theorem State.Due.step_latch {d : Answer} {p : PrimTag} {ref : Option Ref} {i : Instr} {a : Nat} (h : s.Due b r)
    (ho : r.op = .read) (hd : r.rdest = some (.mem a)) (ha : admitted s.cfg b r (.mem a) = true)
    (hts : s.agenda = .meng b :: ts) (hds : s.answers = d :: ds)
    (hrow : protoRow s.cfg b d.bit { r with mif := false } = .ret p ref q)
    (hi : decodePrim s.cfg.limits p.code ref = some i) :
    step s = mapNext State.leave (exec i ((s.memWrite (.mem a) r.rxbuf).inHandler b q ts ds)) := by
  have hdraw : s.popTurn.answer = d := State.answer_settled (by simpa using hds)
  have hstep := (stepRunsTheProtocolsPrimitive s b r q p ref i h.running (State.turn_settled hts) h.free h.bus h.mid hi).2
    (.mem a) _ { r with mif := false } ho hd ha rfl (getElem?_set_same h.bus) (by rw [hdraw]; exact hrow)
  rw [hstep, State.popTurn_settled hts, State.popAnswer_settled (s := { s with agenda := ts }) hds]
  simp [State.memWrite_memRef, State.inHandler]

/-- BUS(b) can complete: the operation is in flight on bus `b`, whose record is `r`. -/
structure State.Flying (b : Nat) (op : HwOp) (r : Bus) (s : State) : Prop where
  running : s.halted = false
  bus : s.buses[b]? = some r
  flying : r.inflight = some op.word

theorem State.Due.flying {op : HwOp} (h : s.Due b r) (hf : q.inflight = some op.word) :
    (s.advanced b q m es ts ds).Flying b op q :=
  ⟨h.running, State.advanced_get h.bus, hf⟩

/-- BUS(b)'s step is under way: its turn is taken. -/
def State.onWire (b : Nat) (ts : List Turn) (s : State) : State := { s with agenda := ts, actor := .bus b }

theorem State.onWire_runsOn (hb : s.buses[b]? = some r) : (s.onWire b ts).runsOn b r := ⟨rfl, hb⟩

theorem State.Flying.step_exec {op : HwOp} (h : s.Flying b op r) (hts : s.agenda = .busComplete b :: ts) :
    step s = mapNext State.leave (exec op.instr (s.onWire b ts)) := by
  have hi : decodeHw op.word = some op.instr := congrArg (Option.map HwOp.instr) (HwOp.ofWord_word op)
  rw [stepRunsTheOperationInFlight s b r op.word op.instr h.running (State.turn_settled hts) h.bus h.flying hi,
    State.popTurn_settled hts]
  rfl

/-- A transmitted byte takes a draw, the acknowledgement. -/
theorem State.Flying.step_tx {v : Byte} {d : Answer} (h : s.Flying b (.tx v) r) (hts : s.agenda = .busComplete b :: ts)
    (hds : s.answers = d :: ds) :
    step s = .next (s.advanced b
      { r with
        ackstat := d.bit, inflight := none, mif := true, wire := wireKept s.cfg (wireAfterTx r.wire v d.bit) r.wire }
      s.mem [.completed b (.tx v) (.ackBit d.bit)] ts ds) := by
  rw [h.step_exec hts, HwOp.instr, exec_hwTx (State.onWire_runsOn h.bus), complete_setWire,
    State.answer_settled (s := s.onWire b ts) hds,
    State.popAnswer_settled (s := s.onWire b ts) hds]
  rfl

/-- A received byte is a draw. -/
theorem State.Flying.step_rxen {d : Answer} (h : s.Flying b .rxen r) (hts : s.agenda = .busComplete b :: ts)
    (hds : s.answers = d :: ds) :
    step s = .next (s.advanced b
      { r with rxbuf := d.byte, inflight := none, mif := true, wire := wireKept s.cfg .mrData r.wire }
      s.mem [.completed b .rxen (.data d.byte)] ts ds) := by
  rw [h.step_exec hts, HwOp.instr, exec_hwRxen (State.onWire_runsOn h.bus), complete_setWire,
    State.answer_settled (s := s.onWire b ts) hds,
    State.popAnswer_settled (s := s.onWire b ts) hds]
  rfl

theorem State.Flying.step_ack (h : s.Flying b (.ackbit false) r) (hts : s.agenda = .busComplete b :: ts) :
    step s = .next (s.advanced b { r with inflight := none, mif := true, wire := wireKept s.cfg .mr r.wire }
      s.mem [.completed b (.ackbit false) .silent] ts s.answers) := by
  rw [h.step_exec hts, HwOp.instr, exec_hwAckbit (State.onWire_runsOn h.bus), complete_setWire]
  rfl

end

/-! ### The write phase (R157, R161, R172, R174) -/

theorem canIssue_wireKept {c : Cfg} {op : HwOp} {w : Wire} (old : Wire) (h : legalIn op w = true) :
    canIssue c op (wireKept c w old) := by
  intro hc
  simpa [wireKept, hc] using h

theorem refAdd_refAdd (bits : Nat) (p : Ref) (j k : Nat) : refAdd bits (refAdd bits p j) k = refAdd bits p (j + k) := by
  cases p <;> simp [refAdd, Nat.add_assoc]

/-- A continuation's reference stands for its low bits (30 R81), as the address 0 bytes on does. -/
theorem takeRef_eq_refAdd (lim : Limits) (p : Ref) : takeRef lim (some p) = some (refAdd lim.addrBits p 0) := by
  cases p <;> rfl

section
variable {b : Nat} {p : Ref} {v : Byte} {vs : List Byte} {ts : List Turn} {ds : List Answer} {s : State} {r : Bus}

/-- The turns in which `n` bytes are sent. -/
def writeTurns (b n : Nat) (ts : List Turn) : List Turn :=
  (List.replicate n [Turn.meng b, Turn.busComplete b]).flatten ++ ts

/-- The draws with which `n` bytes are sent and acknowledged. -/
def writeDraws (n : Nat) (ds : List Answer) : List Answer := List.replicate (2 * n) (quietDraw false 0) ++ ds

theorem writeTurns_succ (b n : Nat) (ts : List Turn) :
    writeTurns b (n + 1) ts = .meng b :: .busComplete b :: writeTurns b n ts := by
  simp [writeTurns, List.replicate_succ]

theorem writeDraws_succ (n : Nat) (ds : List Answer) :
    writeDraws (n + 1) ds = quietDraw false 0 :: quietDraw false 0 :: writeDraws n ds := by
  simp [writeDraws, Nat.mul_add, List.replicate_succ]

/-- PROTO is about to send the bytes `vs` from `p` up, to a peer that acknowledges. -/
structure State.Sends (b : Nat) (p : Ref) (vs : List Byte) (ts : List Turn) (ds : List Answer) (r : Bus) (s : State) : Prop
    extends s.Due b r where
  op : r.op = .write
  acked : r.ackstat = false
  pstate : r.pstate = .addressDone ∨ r.pstate = .writeInProgress
  wrem : r.wrem = vs.length
  wptr : r.wptr = some p
  inRange : refAdd s.cfg.addrBits p 0 = p
  wire : vs = [] ∨ s.cfg.busSeqCheck = false ∨ r.wire = .mt
  bytes : ∀ k v, vs[k]? = some v → admitted s.cfg b r (refAdd s.cfg.addrBits p k) = true ∧
    s.byteAt (refAdd s.cfg.addrBits p k) = some v
  agenda : s.agenda = writeTurns b vs.length ts
  answers : s.answers = writeDraws vs.length ds

/-- The record after the row that sends the byte at `p`, with the interrupt taken. -/
def Bus.writeRow (c : Cfg) (p : Ref) (r : Bus) : Bus :=
  { r with
    mif := false, pstate := .writeInProgress, wptr := some (refNext c.addrBits p), wrem := r.wrem - 1
    wsent := if c.richResult then r.wsent + 1 else r.wsent }

/-- The record once HW_TX of that byte, `v`, is in flight. -/
def Bus.sending (c : Cfg) (p : Ref) (v : Byte) (r : Bus) : Bus :=
  { r.writeRow c p with op := .write, inflight := some (HwOp.tx v).word }

/-- MENG(b)'s half of a byte: it is read and HW_TX issued. -/
theorem State.Sends.step_issue {d : Answer} (h : s.Sends b p (v :: vs) ts ds r) {ts' : List Turn} {ds' : List Answer}
    (hts : s.agenda = .meng b :: ts') (hds : s.answers = d :: ds') :
    step s = .next (s.advanced b (r.sending s.cfg p v) s.mem [.memRead p v, .issued b (.tx v)] ts' ds') := by
  obtain ⟨hadmit, hbyte⟩ := h.bytes 0 v rfl
  rw [h.inRange] at hadmit hbyte
  have hnack : (if r.op = .write then r.ackstat else d.bit) = false := by rw [if_pos h.op, h.acked]
  have hrow : protoRow s.cfg b false { r with mif := false } = .ret .write (some p) (r.writeRow s.cfg p) :=
    protoRow_writeByte h.pstate (by simp [h.wrem]) h.wptr
  have hprim : decodePrim s.cfg.limits PrimTag.write.code (some p) = some (.write (some p)) := by
    have hp : takeRef s.cfg.limits (some p) = some p := (takeRef_eq_refAdd _ p).trans (congrArg some h.inRange)
    exact congrArg (fun q => some (Instr.write q)) hp
  have hlegal : canIssue s.cfg (.tx v) r.wire := by
    rcases h.wire with hw | hw | hw
    · cases hw
    · exact canIssue_iff.2 (.inl hw)
    · exact canIssue_iff.2 (.inr (by simp [hw]))
  have hbyte' : (s.inHandler b (r.writeRow s.cfg p) ts' ds').byteAt p = some v := by
    rw [State.byteAt_set (t := s.inHandler b (r.writeRow s.cfg p) ts' ds') h.bus rfl rfl rfl rfl rfl, hbyte]
  rw [h.step_row (by simp [h.op]) hts hds ((congrArg (protoRow s.cfg b · _) hnack).trans hrow) hprim,
    exec_write_byte (r := r.writeRow s.cfg p) (State.inHandler_runsOn h.bus) hadmit hbyte']
  rw [← State.noteRead_advanced]
  exact mapNext_leave_issue (s := s.noteRead p v) hlegal

/-- The record once the peer has acknowledged that byte. -/
def Bus.sent (c : Cfg) (p : Ref) (v : Byte) (r : Bus) : Bus :=
  { r.writeRow c p with
    op := .write, ackstat := false, inflight := none, mif := true, wire := wireKept c (wireAfterTx r.wire v false) r.wire }

/-- The state once it has, with the turns and the draws of `n` more bytes to come. -/
def State.byteSent (b : Nat) (p : Ref) (v : Byte) (n : Nat) (ts : List Turn) (ds : List Answer) (r : Bus) (s : State) : State :=
  s.advanced b (r.sent s.cfg p v) s.mem [.memRead p v, .issued b (.tx v), .completed b (.tx v) (.ackBit false)]
    (writeTurns b n ts) (writeDraws n ds)

theorem State.busTrace_byteSent {n : Nat} : (s.byteSent b p v n ts ds r).busTrace b = s.busTrace b ++ [.tx v] := by
  rw [State.byteSent, State.busTrace_advanced]
  simp [State.busTrace]

/-- One byte: HW_TX is issued and completes. -/
theorem State.Sends.run_byte (h : s.Sends b p (v :: vs) ts ds r) (k : Nat) :
    core.run (k + 2) s = core.run k (s.byteSent b p v vs.length ts ds r) := by
  have hissue := h.step_issue (h.agenda.trans (writeTurns_succ ..)) (h.answers.trans (writeDraws_succ ..))
  rw [core_run_two hissue ((h.flying (op := .tx v) rfl).step_tx rfl rfl), State.advanced_advanced]
  rfl

/-- After it PROTO is about to send the other bytes. -/
theorem State.Sends.next (h : s.Sends b p (v :: vs) ts ds r) :
    (s.byteSent b p v vs.length ts ds r).Sends b (refNext s.cfg.addrBits p) vs ts ds (r.sent s.cfg p v) where
  toDue := by
    obtain ⟨hbusy, hcont, hudata, -, -⟩ := h.mid
    exact h.advanced ⟨hbusy, hcont, hudata, rfl, rfl⟩
  op := rfl
  acked := rfl
  pstate := .inr rfl
  wrem := by simp [Bus.sent, Bus.writeRow, h.wrem]
  wptr := rfl
  inRange := refAdd_refAdd s.cfg.addrBits p 1 0
  wire := by
    refine .inr ?_
    rcases h.wire with hw | hw | hw
    · cases hw
    · exact .inl hw
    · exact .inr (by simp [Bus.sent, wireKept, wireAfterTx, hw])
  bytes := fun k w hk => by
    obtain ⟨hadmit, hbyte⟩ := h.bytes (k + 1) w hk
    have hnext : refAdd s.cfg.addrBits (refNext s.cfg.addrBits p) k = refAdd s.cfg.addrBits p (k + 1) := by
      rw [refNext, refAdd_refAdd, Nat.add_comm]
    show admitted s.cfg b r (refAdd s.cfg.addrBits (refNext s.cfg.addrBits p) k) = true ∧
      State.byteAt _ (refAdd s.cfg.addrBits (refNext s.cfg.addrBits p) k) = some w
    rw [hnext]
    refine ⟨hadmit, (State.byteAt_set (q := r.sent s.cfg p v) h.bus ?_ ?_ ?_ ?_ ?_ _).trans hbyte⟩ <;> rfl
  agenda := rfl
  answers := rfl

/-- All the bytes, two steps each. -/
theorem State.Sends.run (h : s.Sends b p vs ts ds r) :
    ∃ t r', core.run (2 * vs.length) s = .next t ∧ t.halted = false ∧ t.buses[b]? = some r' ∧
      t.busTrace b = s.busTrace b ++ vs.map HwOp.tx ∧
      r'.pstate = (if vs = [] then r.pstate else .writeInProgress) ∧ r'.wrem = 0 ∧ r'.rrem = r.rrem ∧
      r'.ackstat = false ∧ r'.mif = true ∧ r'.busy = true ∧ t.mem = s.mem ∧ t.agenda = ts ∧ t.answers = ds := by
  induction vs generalizing p s r with
  | nil =>
    obtain ⟨hbusy, -, -, hmif, -⟩ := h.mid
    exact ⟨s, r, rfl, h.running, h.bus, by simp, by simp, h.wrem, rfl, h.acked, hmif, hbusy, rfl, h.agenda, h.answers⟩
  | cons v vs ih =>
    obtain ⟨t, r', hrun, hh, hb, htrace, hp, hwrem, hrrem, hack, hmif, hbusy, hmem, hts, hds⟩ := ih h.next
    refine ⟨t, r', (h.run_byte _).trans hrun, hh, hb, ?trace, ?pstate, hwrem, hrrem, hack, hmif, hbusy, hmem, hts, hds⟩
    case trace => rw [htrace, State.busTrace_byteSent, List.append_assoc]; rfl
    case pstate => simpa [Bus.sent, Bus.writeRow] using hp

end

/-- Settles O59: each byte takes one turn of MENG(b), which issues HW_TX, and one of BUS(b), which completes it. -/
theorem writePhaseSendsTheBufferInOrder : Obligations.WritePhaseSendsTheBufferInOrder := by
  intro vs p b s r ts ds hh hs hb hmid hop hack hp hwrem hwptr hrange hwire hbytes hts hds
  have h : s.Sends b p vs ts ds r :=
    ⟨⟨hh, hs, hb, hmid⟩, hop, hack, hp, hwrem, hwptr, hrange, hwire, hbytes, hts, hds⟩
  obtain ⟨t, r', hrun, hh', hb', htrace, hp', hwrem', hrrem, hack', hmif, hbusy, hmem, hts', hds'⟩ := h.run
  exact ⟨t, r', hrun, hh', hb', htrace, hp', hwrem', hrrem, hack', hmif, hbusy, fun _ => by rw [hmem], hts', hds'⟩

/-! ### The read phase (R164, R166, R172, R174) -/

section
variable {b base : Nat} {v : Byte} {vs : List Byte} {ts : List Turn} {ds : List Answer} {s : State} {r : Bus}

/-- The turns in which `n` bytes are acknowledged and the next ones received. -/
def readTurns (b n : Nat) (ts : List Turn) : List Turn :=
  (List.replicate n [Turn.meng b, Turn.busComplete b, Turn.meng b, Turn.busComplete b]).flatten ++ ts

/-- The draws with which the bytes `vs` are received. -/
def readDraws (vs : List Byte) (ds : List Answer) : List Answer :=
  (vs.map fun v => [quietDraw false 0, quietDraw false 0, quietDraw false v]).flatten ++ ds

theorem readTurns_succ (b n : Nat) (ts : List Turn) :
    readTurns b (n + 1) ts = .meng b :: .busComplete b :: .meng b :: .busComplete b :: readTurns b n ts := by
  simp [readTurns, List.replicate_succ]

theorem readDraws_cons (v : Byte) (vs : List Byte) (ds : List Answer) :
    readDraws (v :: vs) ds = quietDraw false 0 :: quietDraw false 0 :: quietDraw false v :: readDraws vs ds := rfl

/-- PROTO has received a byte for address `base`, and the bytes `vs` are to come. -/
structure State.Receives (b base : Nat) (vs : List Byte) (ts : List Turn) (ds : List Answer) (r : Bus) (s : State) : Prop
    extends s.Due b r where
  wf : Memory.wf s.mem = true
  op : r.op = .read
  pstate : r.pstate = .readInProgress
  rrem : r.rrem = vs.length
  rdest : r.rdest = some (.mem base)
  rptr : r.rptr = some (.mem ((base + 1) % 2 ^ s.cfg.addrBits))
  inRange : base < 2 ^ s.cfg.addrBits
  fits : vs.length < 2 ^ s.cfg.addrBits
  wire : vs = [] ∨ canIssue s.cfg (.ackbit false) r.wire
  slots : ∀ k, k < vs.length → admitted s.cfg b r (.mem ((base + k) % 2 ^ s.cfg.addrBits)) = true
  agenda : s.agenda = readTurns b vs.length ts
  answers : s.answers = readDraws vs ds

/-- The record once the byte received has been acknowledged. -/
def Bus.acked (c : Cfg) (r : Bus) : Bus :=
  { r with op := .ack, pstate := .ackDone, inflight := none, mif := true, wire := wireKept c .mr r.wire }

/-- The record once the byte `v` has been received for `p`. -/
def Bus.received (c : Cfg) (p : Ref) (v : Byte) (r : Bus) : Bus :=
  { r with
    op := .read, pstate := .readInProgress, rdest := some p, rptr := some (refNext c.addrBits p), rrem := r.rrem - 1
    rxbuf := v, inflight := none, mif := true, wire := wireKept c .mrData r.wire }

/-- The byte received is stored and acknowledged. -/
theorem State.Receives.run_ack {d : Answer} {ts' : List Turn} {ds' : List Answer} (h : s.Receives b base (v :: vs) ts ds r)
    (hts : s.agenda = .meng b :: .busComplete b :: ts') (hds : s.answers = d :: ds') (k : Nat) :
    core.run (k + 2) s = core.run k (s.advanced b (r.acked s.cfg) (Memory.write s.mem base r.rxbuf)
      [.memWrite (.mem base) r.rxbuf, .issued b (.ackbit false), .completed b (.ackbit false) .silent] ts' ds') := by
  have hadmit : admitted s.cfg b r (.mem base) = true := by
    simpa [Nat.mod_eq_of_lt h.inRange] using h.slots 0 (by simp)
  have hrow : protoRow s.cfg b d.bit { r with mif := false } = .ret .ack none { r with mif := false, pstate := .ackDone } :=
    protoRow_ack h.pstate (by simp [h.rrem])
  have hlegal : canIssue s.cfg (.ackbit false) r.wire := h.wire.resolve_left (by simp)
  have hissue : step s = .next (s.advanced b
      { r with mif := false, pstate := .ackDone, op := .ack, inflight := some (HwOp.ackbit false).word }
      (Memory.write s.mem base r.rxbuf) [.memWrite (.mem base) r.rxbuf, .issued b (.ackbit false)]
      (.busComplete b :: ts') ds') := by
    rw [h.step_latch h.op h.rdest hadmit hts hds hrow rfl,
      exec_ack (State.inHandler_runsOn (s := s.memWrite (.mem base) r.rxbuf) h.bus), ← State.memWrite_advanced]
    exact mapNext_leave_issue (s := s.memWrite (.mem base) r.rxbuf) hlegal
  rw [core_run_two hissue ((h.flying (op := .ackbit false) rfl).step_ack rfl), State.advanced_advanced]
  rfl

/-- The next byte is received for the next slot. -/
theorem State.Due.run_read {d d' : Answer} {p : Ref} {ts' : List Turn} {ds' : List Answer} (h : s.Due b r) (ho : r.op = .ack)
    (hp : r.pstate = .ackDone) (hptr : r.rptr = some p) (hrange : refAdd s.cfg.addrBits p 0 = p)
    (hlegal : canIssue s.cfg .rxen r.wire) (hts : s.agenda = .meng b :: .busComplete b :: ts')
    (hds : s.answers = d :: d' :: ds') (k : Nat) :
    core.run (k + 2) s = core.run k (s.advanced b (r.received s.cfg p d'.byte) s.mem
      [.issued b .rxen, .completed b .rxen (.data d'.byte)] ts' ds') := by
  have hrow : protoRow s.cfg b (if r.op = .write then r.ackstat else d.bit) { r with mif := false } = .ret .read (some p)
      { r with mif := false, pstate := .readInProgress, rptr := some (refNext s.cfg.addrBits p), rrem := r.rrem - 1 } :=
    protoRow_nextRead hp hptr
  have hprim : decodePrim s.cfg.limits PrimTag.read.code (some p) = some (.read (some p)) := by
    have hp : takeRef s.cfg.limits (some p) = some p := (takeRef_eq_refAdd _ p).trans (congrArg some hrange)
    exact congrArg (fun q => some (Instr.read q)) hp
  have hissue := h.step_row (by simp [ho]) hts hds hrow hprim
  rw [exec_read (State.inHandler_runsOn h.bus), mapNext_leave_issue (by exact hlegal)] at hissue
  rw [core_run_two hissue ((h.flying (op := .rxen) rfl).step_rxen rfl rfl), State.advanced_advanced]
  rfl

/-- The record once the byte received has been acknowledged and the next, `v`, received for the next address. -/
def Bus.readOn (c : Cfg) (base : Nat) (v : Byte) (r : Bus) : Bus :=
  (r.acked c).received c (.mem ((base + 1) % 2 ^ c.addrBits)) v

/-- The state then, with the turns and the draws of the bytes `vs` to come. -/
def State.byteReceived (b base : Nat) (v : Byte) (vs : List Byte) (ts : List Turn) (ds : List Answer) (r : Bus) (s : State) :
    State :=
  s.advanced b (r.readOn s.cfg base v) (Memory.write s.mem base r.rxbuf)
    [.memWrite (.mem base) r.rxbuf, .issued b (.ackbit false), .completed b (.ackbit false) .silent,
      .issued b .rxen, .completed b .rxen (.data v)]
    (readTurns b vs.length ts) (readDraws vs ds)

theorem State.busTrace_byteReceived :
    (s.byteReceived b base v vs ts ds r).busTrace b = s.busTrace b ++ [.ackbit false, .rxen] := by
  rw [State.byteReceived, State.busTrace_advanced]
  simp [State.busTrace]

/-- One round: the byte received is stored and acknowledged, and the next is received. -/
theorem State.Receives.run_byte (h : s.Receives b base (v :: vs) ts ds r) (k : Nat) :
    core.run (k + 4) s = core.run k (s.byteReceived b base v vs ts ds r) := by
  obtain ⟨hbusy, hcont, hudata, -, -⟩ := h.mid
  have hacked : (r.acked s.cfg).midTransfer := ⟨hbusy, hcont, hudata, rfl, rfl⟩
  rw [h.run_ack (h.agenda.trans (readTurns_succ ..)) (h.answers.trans (readDraws_cons ..)) (k + 2),
    (h.advanced hacked).run_read rfl rfl h.rptr (refAdd_refAdd _ (.mem base) 1 0) (canIssue_wireKept _ rfl) rfl rfl k,
    State.advanced_advanced]
  rfl

/-- After it PROTO has received a byte for the next address. -/
theorem State.Receives.next (h : s.Receives b base (v :: vs) ts ds r) :
    (s.byteReceived b base v vs ts ds r).Receives b ((base + 1) % 2 ^ s.cfg.addrBits) vs ts ds (r.readOn s.cfg base v) where
  toDue := by
    obtain ⟨hbusy, hcont, hudata, -, -⟩ := h.mid
    exact h.advanced ⟨hbusy, hcont, hudata, rfl, rfl⟩
  wf := Memory.write_wf base r.rxbuf h.wf
  op := rfl
  pstate := rfl
  rrem := by simp [Bus.readOn, Bus.received, Bus.acked, h.rrem]
  rdest := rfl
  rptr := rfl
  inRange := Nat.mod_lt _ (Nat.two_pow_pos _)
  fits := Nat.lt_of_succ_lt h.fits
  wire := .inr (canIssue_wireKept _ rfl)
  slots := fun k hk => by
    have hslot := h.slots (k + 1) (Nat.succ_lt_succ hk)
    rw [Nat.add_comm k 1, ← Nat.add_assoc, ← Nat.mod_add_mod] at hslot
    exact hslot
  agenda := rfl
  answers := rfl

/-- Fewer than `m` steps round a ring of `m` addresses do not come back. -/
theorem add_mod_ne_self {base k m : Nat} (hbase : base < m) (hk : 0 < k) (hm : k < m) : (base + k) % m ≠ base := by
  by_cases h : base + k < m
  · rw [Nat.mod_eq_of_lt h]; omega
  · rw [Nat.mod_eq_sub_mod (by omega), Nat.mod_eq_of_lt (by omega)]; omega

/-- All the bytes to come, four steps each. -/
theorem State.Receives.run (h : s.Receives b base vs ts ds r) :
    ∃ t r', core.run (4 * vs.length) s = .next t ∧ t.halted = false ∧ t.buses[b]? = some r' ∧
      t.busTrace b = s.busTrace b ++ (List.replicate vs.length [HwOp.ackbit false, HwOp.rxen]).flatten ∧
      r'.pstate = .readInProgress ∧ r'.rrem = 0 ∧ r'.mif = true ∧ r'.busy = true ∧
      r'.rdest = some (.mem ((base + vs.length) % 2 ^ s.cfg.addrBits)) ∧
      (∀ k, k < vs.length →
        Memory.read t.mem ((base + k) % 2 ^ s.cfg.addrBits) = ((r.rxbuf :: vs)[k]?).getD 0) ∧
      (∀ x, (∀ k, k < vs.length → x ≠ (base + k) % 2 ^ s.cfg.addrBits) → Memory.read t.mem x = Memory.read s.mem x) ∧
      r'.rxbuf = ((r.rxbuf :: vs)[vs.length]?).getD 0 ∧ t.agenda = ts ∧ t.answers = ds := by
  induction vs generalizing base s r with
  | nil =>
    obtain ⟨hbusy, -, -, hmif, -⟩ := h.mid
    exact ⟨s, r, rfl, h.running, h.bus, by simp, h.pstate, h.rrem, hmif, hbusy,
      by simpa [Nat.mod_eq_of_lt h.inRange] using h.rdest, by simp, fun _ _ => rfl, rfl, h.agenda, h.answers⟩
  | cons v vs ih =>
    obtain ⟨t, r', hrun, hh, hb, htrace, hp, hrrem, hmif, hbusy, hdest, hfilled, hframe, hrx, hts, hds⟩ := ih h.next
    have hnext (k : Nat) :
        ((base + 1) % 2 ^ s.cfg.addrBits + k) % 2 ^ s.cfg.addrBits = (base + (k + 1)) % 2 ^ s.cfg.addrBits := by
      rw [Nat.mod_add_mod, Nat.add_assoc, Nat.add_comm 1 k]
    refine ⟨t, r', (h.run_byte _).trans hrun, hh, hb, ?trace, hp, hrrem, hmif, hbusy, (hnext _) ▸ hdest, ?filled, ?frame,
      hrx, hts, hds⟩
    case trace => rw [htrace, State.busTrace_byteReceived, List.append_assoc]; rfl
    case filled =>
      intro k hk
      cases k with
      | zero =>
        have hfirst : Memory.read t.mem base = Memory.read (Memory.write s.mem base r.rxbuf) base :=
          hframe base fun k hk => by
            show base ≠ ((base + 1) % 2 ^ s.cfg.addrBits + k) % 2 ^ s.cfg.addrBits
            rw [hnext]
            exact (add_mod_ne_self h.inRange k.succ_pos (Nat.lt_trans (Nat.succ_lt_succ hk) h.fits)).symm
        rw [Nat.add_zero, Nat.mod_eq_of_lt h.inRange, hfirst, Memory.read_write_same base r.rxbuf h.wf]
        rfl
      | succ k =>
        rw [← hnext]
        exact hfilled k (Nat.lt_of_succ_lt_succ hk)
    case frame =>
      intro x hx
      have hother : x ≠ base := by simpa [Nat.mod_eq_of_lt h.inRange] using hx 0 (by simp)
      have hlater : Memory.read t.mem x = Memory.read (Memory.write s.mem base r.rxbuf) x :=
        hframe x fun k hk => (hnext k).symm ▸ hx (k + 1) (Nat.succ_lt_succ hk)
      rw [hlater, Memory.read_write_other r.rxbuf hother]

end

/-- Settles O60: each round stores and acknowledges the byte received and receives the next. -/
theorem readPhaseFillsTheBufferInOrder : Obligations.ReadPhaseFillsTheBufferInOrder := by
  intro vs base b s r ts ds hh hs hwf hb hmid hop hp hrrem hdest hptr hrange hfits hwire hslots hts hds
  exact State.Receives.run
    ⟨⟨hh, hs, hb, hmid⟩, hwf, hop, hp, hrrem, hdest, hptr, hrange, hfits, hwire, hslots, hts, hds⟩

end Sys2Proof.Machine

/-! SUPPORT. Proofs of the family 42_slave_engine.md: the slave commands (R200 to R202), the remote master's events
(R204), and the slave interrupt with its callbacks (R205 to R212). -/

namespace Sys2Proof.Machine

/-! ### The slave commands (R200 to R202) -/

/-- The header and the record of R200 decode to S_INIT. -/
theorem decodeCmd_sInit {lim : Limits} {bus : BusField} {a7 : Addr7} {o : OpRecord} {f t bf bt : Nat} {p : Int}
    (hf : o.cbMsgFrom = some f) (ht : o.cbMsgTo = some t) (hbf : o.cbByteFrom = some bf) (hbt : o.cbByteTo = some bt)
    (hp : o.prio = some p) : decodeCmd lim ⟨0x8#4 ++ bus ++ 0#1 ++ a7, o⟩ = .ok (.sInit bus a7 f t bf bt p) := by
  show decodeCmd lim ⟨headerOf .sInit bus a7, o⟩ = _
  exact decodeCmd_eq_ok_iff.2 ⟨.sInit, by simp, by simp, .inl rfl, rfl, by simp [Cmd.operands, hf, ht, hbf, hbt, hp]⟩

section
variable {bus : BusField} {a7 : Addr7} {f t bf bt : Nat} {prio : Int} {s : State} {r : Bus}

theorem exec_sInit_unknown (hb : s.buses.length ≤ bus.toNat) :
    exec (.sInit bus a7 f t bf bt prio) s = .next (s.raiseFatal 200 .invalidBus bus.toNat) := by
  show execSInit bus a7 f t bf bt prio s = _
  rw [execSInit, withBus_unknown hb]

theorem exec_sInit_known (h : s.busIs bus .slave r) :
    exec (.sInit bus a7 f t bf bt prio) s =
      if prio < s.cfg.prioMin ∨ s.cfg.prioMax < prio then .next (s.raiseFatal 200 .invalidPriority prio)
      else .next (s.setBus bus.toNat
        { r with
          saddr := some a7, cbMsgFrom := some f, cbMsgTo := some t, cbByteFrom := some bf, cbByteTo := some bt
          sprio := some prio, sstate := .idle, sif := false, sclhold := false, senabled := true }) := by
  show execSInit bus a7 f t bf bt prio s = _
  rw [execSInit, withBus_known h]

theorem exec_sDisable_unknown (hb : s.buses.length ≤ bus.toNat) :
    exec (.sDisable bus) s = .next (s.raiseFatal 201 .invalidBus bus.toNat) := by
  show execSDisable bus s = _
  rw [execSDisable, withBus_unknown hb]

theorem exec_sDisable_known (h : s.busIs bus .slave r) :
    exec (.sDisable bus) s =
      .next (s.setBus bus.toNat { r with senabled := false, sstate := .idle, sif := false, sclhold := false }) := by
  show execSDisable bus s = _
  rw [execSDisable, withBus_known h]

theorem exec_sForceIdle_unknown (hb : s.buses.length ≤ bus.toNat) :
    exec (.sForceIdle bus) s = .next (s.raiseFatal 202 .invalidBus bus.toNat) := by
  show execSForceIdle bus s = _
  rw [execSForceIdle, withBus_unknown hb]

theorem exec_sForceIdle_known (h : s.busIs bus .slave r) :
    exec (.sForceIdle bus) s = .next (s.setBus bus.toNat { r with sstate := .idle }) := by
  show execSForceIdle bus s = _
  rw [execSForceIdle, withBus_known h]

end

/-! ### The slave interrupt's turn (R205, R212) -/

section
variable {b : Nat} {s : State} {r : Bus} (hb : s.buses[b]? = some r)
include hb

theorem sengStep_disabled (hon : r.senabled = false) : sengStep b s = .next s := by
  simp [sengStep, hb, hon]

/-- The interrupt is taken: SIF is cleared, the handler runs, and the clock is released unless the system halted. -/
theorem sengStep_taken (hi : r.sif = true) (hon : r.senabled = true) :
    sengStep b s = andThen (slaveHandler b r (s.setBus b { r with sif := false })) fun u =>
      .next (u.modBus b fun q => { q with sclhold := false }) := by
  simp [sengStep, hb, hi, hon]

/-- The handler leaves `u` but for the bus's record `q`, and no halt: the clock is released in `q`. -/
theorem sengStep_released {u : State} {q : Bus} (hi : r.sif = true) (hon : r.senabled = true)
    (hrun : slaveHandler b r (s.setBus b { r with sif := false }) = .next (u.setBus b q)) (hu : u.halted = false)
    (hbuses : u.buses = s.buses) : sengStep b s = .next (u.setBus b { q with sclhold := false }) := by
  have hq : (u.setBus b q).buses[b]? = some q := State.setBus_get (hbuses ▸ hb)
  rw [sengStep_taken hb hi hon, hrun, andThen_running ((State.setBus_halted ..).trans hu), State.modBus_of_get hq,
    State.setBus_setBus]

end

theorem andThen_raiseFault (site : Nat) (code : ModelFault) (s : State) (k : State → Out) :
    andThen (.next (s.raiseFault site code)) k = .next (s.raiseFault site code) := by
  simp [andThen, State.halted]

/-- Whatever upcalled code does, the handler keeps the number of slots. -/
theorem slaveHandler_length {b : Nat} {r : Bus} {s u : State} (h : slaveHandler b r s = .next u) :
    u.buses.length = s.buses.length := by
  have hedited : Yields (State.Edited True s) (slaveHandler b r s) := slaveHandler_edited r (drawsOk_of_allowed trivial s)
  rw [h] at hedited
  exact hedited.length

/-- Settles O57: a step whose handler did not halt ends with the release, on a bus the handler cannot take away. -/
theorem everySlaveStepReleasesTheClock : Obligations.EverySlaveStepReleasesTheClock := by
  intro s t b r _ hb hi hon hstep ht
  rw [sengStep_taken hb hi hon] at hstep
  obtain ⟨u, hrun, ⟨hu, rfl⟩ | ⟨-, hrelease⟩⟩ := andThen_next hstep
  · simp [hu] at ht
  · obtain rfl : u.modBus b (fun q => { q with sclhold := false }) = t := by simpa using hrelease
    have hlt : b < u.buses.length := by
      rw [slaveHandler_length hrun, State.setBus_buses, List.length_set]
      exact (List.getElem?_eq_some_iff.1 hb).1
    have hq : u.buses[b]? = some u.buses[b] := List.getElem?_eq_getElem hlt
    rw [State.modBus_of_get hq]
    exact ⟨_, State.setBus_get hq, rfl⟩

/-! ### The remote master's events (R204) -/

section
variable {b : Nat} {s : State} {r : Bus} (hb : s.buses[b]? = some r)
include hb

theorem rmasterStep_blocked (e : RemoteEvent) (h : r.senabled = false ∨ r.sclhold = true ∨ r.sif = true) :
    rmasterStep b e s = .next s := by
  obtain h | h | h := h <;> simp [rmasterStep, hb, h]

variable (hon : r.senabled = true) (hclk : r.sclhold = false) (hi : r.sif = false)
include hon hclk hi

theorem rmasterStep_address {a : Addr7} (read : Bool) (ha : r.saddr = some a) :
    rmasterStep b (.address read) s = .next (s.setBus b (Bus.slaveEvent
      { r with slDa := false, slRw := read, slRx := addressByte a read, swire := if read then .sr else .sw })) := by
  simp [rmasterStep, hb, hon, hclk, hi, ha]

theorem rmasterStep_dataIn (v : Byte) :
    rmasterStep b (.dataIn v) s =
      if r.swire = .sw then .next (s.setBus b (Bus.slaveEvent { r with slDa := true, slRx := v })) else .next s := by
  simp [rmasterStep, hb, hon, hclk, hi]

theorem rmasterStep_dataOut (a : Bool) :
    rmasterStep b (.dataOut a) s =
      if r.swire = .sr then
        .next ((s.setBus b (Bus.slaveEvent { r with slDa := true, swire := if a then .srEnd else .sr })).record
          (.clockedOut b r.slTx a))
      else .next s := by
  simp [rmasterStep, hb, hon, hclk, hi]

theorem rmasterStep_stop :
    rmasterStep b .stop s = if r.swire = .free then .next s else .next (s.setBus b { r with swire := .free }) := by
  simp [rmasterStep, hb, hon, hclk, hi]

end

/-- Settles O58: the slave's readiness gates every event, and its wire phase each event but ADDRESS. -/
theorem remoteMasterEvents : Obligations.RemoteMasterEvents := by
  intro s b r hb
  refine ⟨rmasterStep_blocked hb, fun hon hclk hi => ⟨fun read a ha => ?address, fun v hw => ?dataIn, fun v hw => ?noDataIn,
    fun a hw => ?dataOut, fun a hw => ?noDataOut, fun hw => ?stop, fun hw => ?noStop⟩⟩
  case address => exact rmasterStep_address hb hon hclk hi read ha
  case dataIn => exact (rmasterStep_dataIn hb hon hclk hi v).trans (if_pos hw)
  case noDataIn => exact (rmasterStep_dataIn hb hon hclk hi v).trans (if_neg hw)
  case dataOut => exact (rmasterStep_dataOut hb hon hclk hi a).trans (if_pos hw)
  case noDataOut => exact (rmasterStep_dataOut hb hon hclk hi a).trans (if_neg hw)
  case stop => exact (rmasterStep_stop hb hon hclk hi).trans (if_neg hw)
  case noStop => exact (rmasterStep_stop hb hon hclk hi).trans (if_pos hw)

/-- Settles O29: past the checks for the bus, its role and the priority, S_INIT is one write of the record. -/
theorem sInitConfiguresAndEnablesTheSlave : Obligations.SInitConfiguresAndEnablesTheSlave := by
  intro bus a7 f t bf bt prio s
  refine ⟨fun lim o => decodeCmd_sInit, fun r hr => ?otherRole, exec_sInit_unknown, fun r hr => ⟨fun hp => ?priority,
    fun hmin hmax => ?configured⟩⟩
  case otherRole =>
    show execSInit bus a7 f t bf bt prio s = _
    exact withBus_master hr
  case priority => rw [exec_sInit_known hr, if_pos hp]
  case configured =>
    rw [exec_sInit_known hr, if_neg (by omega)]
    rfl

/-- Settles O30: the record S_DISABLE leaves enables neither the slave interrupt nor the remote master. -/
theorem sDisableTurnsTheSlaveOff : Obligations.SDisableTurnsTheSlaveOff := by
  intro bus s
  refine ⟨fun lim o => decodeCmd_noAddress (k := .sDisable) rfl rfl, exec_sDisable_unknown, fun r t hr ht => ?_⟩
  subst ht
  have hoff := State.setBus_get (r' := { r with senabled := false, sstate := .idle, sif := false, sclhold := false }) hr.1
  exact ⟨exec_sDisable_known hr, sengStep_disabled hoff rfl, fun e => rmasterStep_blocked hoff e (.inl rfl)⟩

/-- Settles O31: past the bus check S_FORCE_IDLE is one write of SSTATE. -/
theorem sForceIdleWritesOnlyTheSlaveState : Obligations.SForceIdleWritesOnlyTheSlaveState :=
  fun _ _ => ⟨fun _ _ => decodeCmd_noAddress (k := .sForceIdle) rfl rfl, exec_sForceIdle_unknown,
    fun _ hr => exec_sForceIdle_known hr⟩

/-! ### The slave's callbacks where they do nothing else (R206 to R211) -/

/-- The state in which a callback with no acts returns: its draw made and its upcall recorded. -/
def State.called (u : Upcall) (s : State) : State := s.popAnswer.record (.upcall u)

section
variable {b : Nat} {s : State} {r : Bus}

@[simp] theorem State.called_buses (u : Upcall) (s : State) : (s.called u).buses = s.buses := by simp [State.called]

@[simp] theorem State.called_cfg (u : Upcall) (s : State) : (s.called u).cfg = s.cfg := by simp [State.called]

@[simp] theorem State.called_halted (u : Upcall) (s : State) : (s.called u).halted = s.halted := by simp [State.called]

theorem State.called_setBus (u : Upcall) (b : Nat) (q : Bus) (s : State) :
    (s.setBus b q).called u = (s.called u).setBus b q := by
  rw [State.called, State.popAnswer_setBus]
  rfl

theorem State.called_eq (u : Upcall) (s : State) :
    s.called u = { s.popAnswer with trace := s.trace ++ [.upcall u] } := by
  simp [State.called, State.record]

theorem State.called_called (u v : Upcall) (s : State) :
    (s.called u).called v = { s.popAnswer.popAnswer with trace := s.trace ++ [.upcall u, .upcall v] } := by
  simp [State.called, State.popAnswer_record, State.record_record]

/-- The record of the bus is `r`, the system runs, and the next draw is of a callback with no acts. -/
structure State.Quiet (b : Nat) (r : Bus) (s : State) : Prop where
  running : s.halted = false
  bus : s.buses[b]? = some r
  acts : s.answer.acts = []

theorem State.Quiet.setBus (h : s.Quiet b r) (q : Bus) : (s.setBus b q).Quiet b q :=
  ⟨h.running, State.setBus_get h.bus, h.acts⟩

/-- The interrupt taken, the callback is still to come. -/
theorem State.quiet_taken (hh : s.halted = false) (hb : s.buses[b]? = some r) (ha : s.answer.acts = []) :
    (s.setBus b { r with sif := false }).Quiet b { r with sif := false } := State.Quiet.setBus ⟨hh, hb, ha⟩ _

theorem State.Quiet.called (h : s.Quiet b r) (u : Upcall) (ha : s.popAnswer.answer.acts = []) : (s.called u).Quiet b r :=
  ⟨by simpa using h.running, by simpa using h.bus, ha⟩

variable (h : s.Quiet b r)
include h

/-- The callback returns and the handler goes on. -/
theorem andThen_called (u : Upcall) (k : State → Out) :
    andThen (upcall u s.answer.acts s.popAnswer) k = k (s.called u) := by
  rw [h.acts, upcall_nothing]
  exact andThen_running (s := s.called u) (by simpa using h.running)

theorem modBus_called (u : Upcall) (g : Bus → Bus) : (s.called u).modBus b g = (s.called u).setBus b (g r) :=
  State.modBus_of_get (by simpa using h.bus)

theorem slaveToMaster_called {cb : Nat} (hst : r.sstate = .toMaster) (hcb : r.cbByteTo = some cb) :
    slaveToMaster b s = .next ((s.called (.byteToMaster cb b s.answer.byte s.answer.bit)).setBus b
      { r with slTx := s.answer.byte, sstate := if s.answer.bit then .endToMaster else .toMaster }) := by
  have hreg : (s.buses[b]?.bind fun q => q.cbByteTo) = some cb := by simp [h.bus, hcb]
  simp only [slaveToMaster, hreg]
  rw [andThen_called h, modBus_called h, hst]

theorem slaveAddressRead_called {cb : Nat} (hcb : r.cbMsgTo = some cb) :
    slaveAddressRead b s =
      if s.cfg.slaveTxOnAddress then
        slaveToMaster b ((s.called (.msgToMaster cb b)).setBus b { r with sstate := .toMaster })
      else .next ((s.called (.msgToMaster cb b)).setBus b { r with sstate := .toMaster }) := by
  have hreg : (s.buses[b]?.bind fun q => q.cbMsgTo) = some cb := by simp [h.bus, hcb]
  simp only [slaveAddressRead, hreg]
  rw [andThen_called h, modBus_called h]
  simp

/-- With SLAVE_TX_ON_ADDRESS the first byte's callback runs too. -/
theorem slaveAddressRead_firstByte {cb cd : Nat} (hcb : r.cbMsgTo = some cb) (hcd : r.cbByteTo = some cd)
    (hearly : s.cfg.slaveTxOnAddress = true) (ha : s.popAnswer.answer.acts = []) :
    slaveAddressRead b s =
      .next ((((s.called (.msgToMaster cb b)).setBus b { r with sstate := .toMaster }).called
        (.byteToMaster cd b s.popAnswer.answer.byte s.popAnswer.answer.bit)).setBus b
          { r with
            slTx := s.popAnswer.answer.byte
            sstate := if s.popAnswer.answer.bit then .endToMaster else .toMaster }) := by
  have hnext := (h.called (.msgToMaster cb b) ha).setBus { r with sstate := .toMaster }
  rw [slaveAddressRead_called h hcb, if_pos hearly]
  exact slaveToMaster_called hnext rfl hcd

theorem slaveAddressWrite_called {cb : Nat} (hcb : r.cbMsgFrom = some cb) :
    slaveAddressWrite b s =
      .next ((s.called (.msgFromMaster cb b)).setBus b { r with sstate := .fromMaster }) := by
  have hreg : (s.buses[b]?.bind fun q => q.cbMsgFrom) = some cb := by simp [h.bus, hcb]
  simp only [slaveAddressWrite, hreg]
  rw [andThen_called h, modBus_called h]

theorem slaveFromMaster_called {cb : Nat} (v : Byte) (hst : r.sstate = .fromMaster) (hcb : r.cbByteFrom = some cb) :
    slaveFromMaster b v s = .next ((s.called (.byteFromMaster cb b v s.answer.bit)).setBus b
      { r with sstate := if s.answer.bit then .idle else .fromMaster }) := by
  have hreg : (s.buses[b]?.bind fun q => q.cbByteFrom) = some cb := by simp [h.bus, hcb]
  simp only [slaveFromMaster, hreg]
  rw [andThen_called h, modBus_called h, hst]

end

/-! ### The handler's cases by SSTATE (R205) -/

section
variable {b : Nat} {s : State} {r : Bus}

theorem slaveHandler_desync (hst : r.sstate = .idle) (hda : r.slDa = true) :
    slaveHandler b r s = .next (s.raiseFault 208 .slaveDesync) := by
  simp [slaveHandler, hst, hda]

theorem slaveHandler_addressRead (hst : r.sstate = .idle) (hda : r.slDa = false) (hrw : r.slRw = true) :
    slaveHandler b r s = slaveAddressRead b s := by
  simp [slaveHandler, hst, hda, hrw]

theorem slaveHandler_addressWrite (hst : r.sstate = .idle) (hda : r.slDa = false) (hrw : r.slRw = false) :
    slaveHandler b r s = slaveAddressWrite b s := by
  simp [slaveHandler, hst, hda, hrw]

theorem slaveHandler_toMaster (hst : r.sstate = .toMaster) : slaveHandler b r s = slaveToMaster b s := by
  simp [slaveHandler, hst]

theorem slaveHandler_endToMaster (hst : r.sstate = .endToMaster) :
    slaveHandler b r s = .next (s.modBus b fun q => { q with sstate := .idle }) := by
  simp [slaveHandler, hst]

theorem slaveHandler_fromMaster (hst : r.sstate = .fromMaster) : slaveHandler b r s = slaveFromMaster b r.slRx s := by
  simp [slaveHandler, hst]

/-- SENG(b)'s step where one callback with no acts runs, and the handler leaves the record `q`. -/
theorem sengStep_called {u : Upcall} {q : Bus} (hh : s.halted = false) (hb : s.buses[b]? = some r) (hi : r.sif = true)
    (hon : r.senabled = true)
    (hrun : slaveHandler b r (s.setBus b { r with sif := false }) =
      .next (((s.setBus b { r with sif := false }).called u).setBus b q)) :
    sengStep b s = .next { s.popAnswer with
      buses := s.buses.set b { q with sclhold := false }, trace := s.trace ++ [.upcall u] } := by
  rw [State.called_setBus, State.setBus_setBus] at hrun
  rw [sengStep_released hb hi hon hrun (by simpa using hh) (by simp), State.called_eq]
  simp [State.setBus]

/-- The same with two callbacks. -/
theorem sengStep_called_called {u v : Upcall} {q q' : Bus} (hh : s.halted = false) (hb : s.buses[b]? = some r)
    (hi : r.sif = true) (hon : r.senabled = true)
    (hrun : slaveHandler b r (s.setBus b { r with sif := false }) =
      .next (((((s.setBus b { r with sif := false }).called u).setBus b q).called v).setBus b q')) :
    sengStep b s = .next { s.popAnswer.popAnswer with
      buses := s.buses.set b { q' with sclhold := false }, trace := s.trace ++ [.upcall u, .upcall v] } := by
  simp only [State.called_setBus, State.setBus_setBus] at hrun
  rw [sengStep_released hb hi hon hrun (by simpa using hh) (by simp), State.called_called]
  simp [State.setBus]

end

/-- Settles O55: SL_DA and SL_RW choose the case, and an address interrupt's callbacks leave the record the release finds. -/
theorem slaveIdleInterrupt : Obligations.SlaveIdleInterrupt := by
  intro s b r hh hb hi hon hst
  have taken := State.quiet_taken hh hb
  refine ⟨fun hda => ?desync, fun cb hda hrw hcb ha => ?fromMaster, fun cb hda hrw hcb ha hlate => ?toMaster,
    fun cb cd hda hrw hcb hcd ha ha' hearly => ?firstByte⟩
  case desync =>
    rw [sengStep_taken hb hi hon, slaveHandler_desync hst hda, andThen_raiseFault]
    rfl
  case fromMaster =>
    exact sengStep_called hh hb hi hon
      ((slaveHandler_addressWrite hst hda hrw).trans (slaveAddressWrite_called (taken ha) hcb))
  case toMaster =>
    have hread := slaveAddressRead_called (taken ha) hcb
    rw [State.setBus_cfg, hlate, if_neg Bool.false_ne_true] at hread
    exact sengStep_called hh hb hi hon ((slaveHandler_addressRead hst hda hrw).trans hread)
  case firstByte =>
    have hanswer : (s.setBus b { r with sif := false }).popAnswer.answer = s.popAnswer.answer := by
      rw [State.popAnswer_setBus, State.answer_setBus]
    have hread := slaveAddressRead_firstByte (taken ha) hcb hcd hearly (by rw [hanswer, ha'])
    rw [hanswer] at hread
    exact sengStep_called_called hh hb hi hon ((slaveHandler_addressRead hst hda hrw).trans hread)

/-- Settles O56: SSTATE alone chooses the case, and each case's record is the one the release finds. -/
theorem slaveInterruptOutsideIdle : Obligations.SlaveInterruptOutsideIdle := by
  intro s b r hh hb hi hon
  have taken := State.quiet_taken hh hb
  refine ⟨fun cb hst hcb ha => ?toMaster, fun hst => ?endToMaster, fun cb hst hcb ha => ?fromMaster⟩
  case toMaster =>
    exact sengStep_called hh hb hi hon ((slaveHandler_toMaster hst).trans (slaveToMaster_called (taken ha) hst hcb))
  case endToMaster =>
    have hrun := slaveHandler_endToMaster (s := s.setBus b { r with sif := false }) (b := b) hst
    rw [State.modBus_of_get (State.setBus_get hb), State.setBus_setBus] at hrun
    exact sengStep_released hb hi hon hrun hh rfl
  case fromMaster =>
    exact sengStep_called hh hb hi hon
      ((slaveHandler_fromMaster hst).trans (slaveFromMaster_called (taken ha) r.slRx hst hcb))

end Sys2Proof.Machine

/-! SUPPORT. Proofs of the family 60_exceptions.md: what every instruction leaves alone (R257; 20 R60), a fatal error first of all
(R241), and the blocking commands in interrupt context (R246, R253). -/

namespace Sys2Proof.Machine

/-! ### What an instruction can do beyond its own bus's record (R241, R257; 20 R60) -/

/-- From `s` to `t` no byte of host memory, no record but that of the bus `home`, no fatal error, and nothing of the
configuration, the agents and what is still to run has changed. -/
structure State.StaysOn (home : Option Nat) (s t : State) : Prop where
  others : ∀ c, home ≠ some c → t.buses[c]? = s.buses[c]?
  length : t.buses.length = s.buses.length
  mem : t.mem = s.mem
  sysFatal : t.sysFatal = s.sysFatal
  cfg : t.cfg = s.cfg
  actor : t.actor = s.actor
  program : t.program = s.program
  agenda : t.agenda = s.agenda

namespace State.StaysOn

variable {home : Option Nat} {b : Nat} {s t u : State}

theorem trans (h : State.StaysOn home s t) (h' : State.StaysOn home t u) : State.StaysOn home s u where
  others c hc := (h'.others c hc).trans (h.others c hc)
  length := h'.length.trans h.length
  mem := h'.mem.trans h.mem
  sysFatal := h'.sysFatal.trans h.sysFatal
  cfg := h'.cfg.trans h.cfg
  actor := h'.actor.trans h.actor
  program := h'.program.trans h.program
  agenda := h'.agenda.trans h.agenda

theorem record (e : Event) (s : State) : State.StaysOn home s (s.record e) :=
  ⟨fun _ _ => rfl, rfl, rfl, rfl, rfl, rfl, rfl, rfl⟩

theorem noteReads (l : List (Ref × Byte)) (s : State) : State.StaysOn home s (s.noteReads l) :=
  ⟨fun _ _ => rfl, rfl, rfl, rfl, rfl, rfl, rfl, rfl⟩

theorem raiseFault (site : Nat) (code : ModelFault) (s : State) : State.StaysOn home s (s.raiseFault site code) :=
  ⟨fun _ _ => rfl, rfl, rfl, rfl, rfl, rfl, rfl, rfl⟩

theorem refuse (reason : Reason) (s : State) : State.StaysOn home s (s.refuse reason) :=
  ⟨fun _ _ => rfl, rfl, rfl, rfl, rfl, rfl, rfl, rfl⟩

theorem stick (a : Agent) (s : State) : State.StaysOn home s (s.stick a) :=
  ⟨fun _ _ => rfl, rfl, rfl, rfl, rfl, rfl, rfl, rfl⟩

/-- The call the HOST is in, and what a command returned, are no bus's. -/
theorem host (call : Option Nat) (ret : Option Bool) (s : State) :
    State.StaysOn home s { s with hostCall := call, ret := ret } :=
  ⟨fun _ _ => rfl, rfl, rfl, rfl, rfl, rfl, rfl, rfl⟩

theorem popAnswer (s : State) : State.StaysOn home s s.popAnswer := by constructor <;> simp

theorem setBus (b : Nat) (r : Bus) (s : State) : State.StaysOn (some b) s (s.setBus b r) where
  others _ hc := getElem?_set_other fun hb => hc (congrArg some hb)
  length := List.length_set
  mem := rfl
  sysFatal := rfl
  cfg := rfl
  actor := rfl
  program := rfl
  agenda := rfl

theorem issue (b : Nat) (r : Bus) (op : HwOp) (s : State) : State.StaysOn (some b) s (s.issue b r op) := by
  obtain ⟨-, h⟩ | ⟨-, -, h⟩ := State.issue_cases b r op s
  · rw [h]; exact (setBus b _ s).trans (record _ _)
  · rw [h]; exact (setBus b r s).trans (raiseFault _ _ _)

theorem complete (b : Nat) (r : Bus) (op : HwOp) (x : PeerAnswer) (s : State) :
    State.StaysOn (some b) s (s.complete b r op x) := (setBus b _ s).trans (record _ _)

theorem launchBlock {r : Bus} {a7 : Addr7} {wptr rptr : Option Ref} {wlen rlen : Nat} {more : List Buf} :
    State.StaysOn (some b) s (s.launchBlock b r a7 wptr wlen rptr rlen more) :=
  (host (some b) s.ret s).trans (issue b _ .start _)

end State.StaysOn

/-- What an instruction that acts on the bus `home` can leave: a state that differs on that bus only, or a fatal error raised
in the state it ran in, before any write. -/
inductive State.Effect (home : Option Nat) (s : State) : State → Prop where
  | stays {t : State} (h : State.StaysOn home s t) : State.Effect home s t
  | fatal (site : Nat) (code : FatalCode) (info : Int) : State.Effect home s (s.raiseFatal site code info)

/-! #### The host commands -/

section
variable {bus : BusField} {s : State}

theorem withBus_effect {site : Nat} {role : Role} {k : Nat → Bus → Out}
    (hk : ∀ r, Yields (State.Effect (some bus.toNat) s) (k bus.toNat r)) :
    Yields (State.Effect (some bus.toNat) s) (withBus site role bus s k) := by
  obtain h | h | ⟨r, -, h⟩ := withBus_cases site role bus s k
  · rw [h]; exact .fatal _ _ _
  · rw [h]; exact .stays (.refuse _ s)
  · rw [h]; exact hk r

theorem withTransfer_effect {site wlen rlen : Nat} {k : Nat → Bus → Out}
    (hk : ∀ r, Yields (State.Effect (some bus.toNat) s) (k bus.toNat r)) :
    Yields (State.Effect (some bus.toNat) s) (withTransfer site bus wlen rlen s k) := by
  obtain ⟨code, info, h⟩ | h | ⟨r, -, -, -, h⟩ := withTransfer_cases site bus wlen rlen s k
  · rw [h]; exact .fatal _ _ _
  · rw [h]; exact .stays (.refuse _ s)
  · rw [h]; exact hk r

theorem onMainline_effect {home : Option Nat} {k : Out} (hk : Yields (State.Effect home s) k) :
    Yields (State.Effect home s) (onMainline s k) := by
  unfold onMainline
  split
  · exact hk
  · simp

theorem execMStart_effect (cont : ContId) (ud : UData) :
    Yields (State.Effect (some bus.toNat) s) (execMStart bus cont ud s) :=
  withBus_effect fun r => by
    split
    · exact .fatal _ _ _
    · exact .stays (.issue _ _ .start s)

theorem execMIsBusy_effect : Yields (State.Effect (some bus.toNat) s) (execMIsBusy bus s) :=
  withBus_effect fun r => .stays (.host s.hostCall (some r.busy) s)

theorem execMReset_effect : Yields (State.Effect (some bus.toNat) s) (execMReset bus s) :=
  withBus_effect fun r => by
    split
    · exact .stays (.raiseFault _ _ s)
    · exact .stays (.setBus _ _ s)

theorem execTAsync_effect (a7 : Addr7) (wbase : Option Nat) (wlen : Nat) (rbase : Option Nat) (rlen onDone : Nat) :
    Yields (State.Effect (some bus.toNat) s) (execTAsync bus a7 wbase wlen rbase rlen onDone s) :=
  withTransfer_effect fun _ => .stays (.issue _ _ .start s)

theorem execTBlock_effect (a7 : Addr7) (wbase : Option Nat) (wlen : Nat) (rbase : Option Nat) (rlen : Nat) :
    Yields (State.Effect (some bus.toNat) s) (execTBlock bus a7 wbase wlen rbase rlen s) :=
  onMainline_effect <| withTransfer_effect fun _ => .stays .launchBlock

theorem execReadReg_effect (a7 : Addr7) (reg : Byte) (obase : Option Nat) (n : Nat) :
    Yields (State.Effect (some bus.toNat) s) (execReadReg bus a7 reg obase n s) :=
  onMainline_effect <| withTransfer_effect fun _ => .stays .launchBlock

theorem execWriteReg_effect (a7 : Addr7) (reg : Byte) (ibase : Option Nat) (n : Nat) :
    Yields (State.Effect (some bus.toNat) s) (execWriteReg bus a7 reg ibase n s) := by
  refine onMainline_effect ?_
  split
  · exact withTransfer_effect fun _ => .stays ((State.StaysOn.noteReads _ s).trans .launchBlock)
  · split
    · exact withTransfer_effect fun _ => .stays .launchBlock
    · exact .stays (.refuse _ s)

theorem execSInit_effect (a7 : Addr7) (msgFrom msgTo byteFrom byteTo : Nat) (prio : Int) :
    Yields (State.Effect (some bus.toNat) s) (execSInit bus a7 msgFrom msgTo byteFrom byteTo prio s) :=
  withBus_effect fun r => by
    split
    · exact .fatal _ _ _
    · exact .stays (.setBus _ _ s)

theorem execSDisable_effect : Yields (State.Effect (some bus.toNat) s) (execSDisable bus s) :=
  withBus_effect fun _ => .stays (.setBus _ _ s)

theorem execSForceIdle_effect : Yields (State.Effect (some bus.toNat) s) (execSForceIdle bus s) :=
  withBus_effect fun _ => .stays (.setBus _ _ s)

end

/-! #### The primitives and the bus operations -/

section
variable {s : State}

theorem onBus_effect {k : Nat → Bus → Out} (hk : ∀ b r, Yields (State.Effect (some b) s) (k b r)) :
    Yields (State.Effect s.actor.bus? s) (onBus s k) := by
  obtain h | ⟨b, r, ⟨ha, -⟩, h⟩ := onBus_cases s k
  · rw [h]; simp
  · rw [h, ha]; exact hk b r

theorem execWrite_effect (ref : Option Ref) : Yields (State.Effect s.actor.bus? s) (execWrite ref s) :=
  onBus_effect fun b r => by
    have opWritten : State.StaysOn (some b) s (s.setBus b { r with op := .write }) := .setBus b _ s
    split
    · exact .stays (opWritten.trans (.stick _ _))
    · split
      · split
        · exact .stays (opWritten.trans (.raiseFault _ _ _))
        · exact .stays ((State.StaysOn.record _ s).trans (.issue b _ _ _))
      · exact .stays (opWritten.trans (.stick _ _))

theorem execHwTx_effect (v : Byte) : Yields (State.Effect s.actor.bus? s) (execHwTx v s) :=
  onBus_effect fun b _ => .stays ((State.StaysOn.popAnswer s).trans (.complete b _ _ _ _))

theorem execHwRxen_effect : Yields (State.Effect s.actor.bus? s) (execHwRxen s) :=
  onBus_effect fun b _ => .stays ((State.StaysOn.popAnswer s).trans (.complete b _ _ _ _))

end

/-- Everything an instruction that answers a next state can have done outside its own bus's record. -/
theorem exec_effect (i : Instr) (s : State) : Yields (State.Effect (busOf i s) s) (exec i s) := by
  cases i with
  | mStart _ cont ud => exact execMStart_effect cont ud
  | mIsBusy => exact execMIsBusy_effect
  | mReset => exact execMReset_effect
  | tAsync _ a7 wbase wlen rbase rlen onDone => exact execTAsync_effect a7 wbase wlen rbase rlen onDone
  | tBlock _ a7 wbase wlen rbase rlen => exact execTBlock_effect a7 wbase wlen rbase rlen
  | readReg _ a7 reg obase n => exact execReadReg_effect a7 reg obase n
  | writeReg _ a7 reg ibase n => exact execWriteReg_effect a7 reg ibase n
  | sInit _ a7 msgFrom msgTo byteFrom byteTo prio => exact execSInit_effect a7 msgFrom msgTo byteFrom byteTo prio
  | sDisable => exact execSDisable_effect
  | sForceIdle => exact execSForceIdle_effect
  | primNone => exact .fatal 126 .badPrimitive 0
  | write ref => exact execWrite_effect ref
  | read | restart | ack | nack | stop => exact onBus_effect fun b _ => .stays (.issue b _ _ s)
  | done | quit => exact onBus_effect fun b _ => .stays (.setBus b _ s)
  | hwStart | hwRestart | hwStop | hwAckbit => exact onBus_effect fun b _ => .stays (.complete b _ _ _ s)
  | hwTx v => exact execHwTx_effect v
  | hwRxen => exact execHwRxen_effect

theorem exec_next_effect {i : Instr} {s t : State} (h : exec i s = .next t) : State.Effect (busOf i s) s t := by
  have hyields := exec_effect i s
  rwa [h] at hyields

/-- Settles O41: an instruction writes on its own bus only, or raises a fatal error, which writes on none. -/
theorem instructionsStayOnTheirBusAndStoreNothing : Obligations.InstructionsStayOnTheirBusAndStoreNothing := by
  intro i s t hexec
  cases exec_next_effect hexec with
  | stays h => exact ⟨fun a => by rw [h.mem], h.others, h.length, h.cfg, h.actor, h.program, h.agenda⟩
  | fatal site code info => exact ⟨fun _ => rfl, fun _ _ => rfl, rfl, rfl, rfl, rfl, rfl⟩

/-- Settles O44: an instruction that writes its bus's record leaves sys.FATAL as it was, so one that sets it has written nothing
before. -/
theorem fatalErrorsLeaveEveryRecordAlone : Obligations.FatalErrorsLeaveEveryRecordAlone := by
  intro i s t hexec hnone hfatal
  cases exec_next_effect hexec with
  | stays h => exact absurd (h.sysFatal.trans hnone) hfatal
  | fatal site code info => exact ⟨rfl, rfl, rfl, rfl⟩

/-! ### Blocking commands in interrupt context (R246, R253) -/

theorem onMainline_interrupt {s : State} {b : Nat} (k : Out) (h : s.actor = .meng b ∨ s.actor = .seng b) :
    onMainline s k = .fault .stuckBlockingCall :=
  if_neg (by obtain h | h := h <;> simp [h])

/-- A step that is a handler's turn: the handler stays stuck, gets stuck with nothing written, or takes its step. -/
theorem step_handlerTurn {s : State} {a : Agent} {handler : State → Out}
    (hstep : step s = mapNext State.leave (handlerTurn a handler s.popTurn)) :
    (a ∈ s.stuck → step s = .next { s.popTurn with actor := .host }) ∧
    (a ∉ s.stuck → handler { s.popTurn with actor := a } = .fault .stuckBlockingCall →
      step s = .next { s.popTurn with actor := .host, stuck := a :: s.stuck }) ∧
    (a ∉ s.stuck → handler { s.popTurn with actor := a } ≠ .fault .stuckBlockingCall →
      step s = mapNext State.leave (handler { s.popTurn with actor := a })) := by
  rw [hstep, ← State.popTurn_stuck s]
  refine ⟨fun hs => ?stuck, fun hs hrun => ?notTaken, fun hs hrun => ?taken⟩
  case stuck => rw [handlerTurn_stuck hs]; rfl
  case notTaken => rw [handlerTurn_notTaken hs hrun]; rfl
  case taken => exact congrArg _ (handlerTurn_taken hs hrun)

/-- Settles O27: the check for the mainline comes before every other, and the handler's turn decides on what it answers. -/
theorem blockingCommandsHaveNoStepInInterruptContext : Obligations.BlockingCommandsHaveNoStepInInterruptContext := by
  refine ⟨fun bus a7 x y m n reg s b ha => ?commands, fun s b a handler hh hturn => ?turn⟩
  case commands => exact ⟨onMainline_interrupt _ ha, onMainline_interrupt _ ha, onMainline_interrupt _ ha⟩
  case turn =>
    obtain ⟨ht, rfl, rfl⟩ | ⟨ht, rfl, rfl⟩ := hturn
    · exact step_handlerTurn (step_turn hh ht)
    · exact step_handlerTurn (step_turn hh ht)

end Sys2Proof.Machine

/-! SUPPORT. Proofs of the family 70_reset_and_hazards.md: what system start leaves (R280), that only the HOST acts on it (R281), and a
result callback that starts a transfer on its own bus (R289). -/

namespace Sys2Proof.Machine

/-! ### The records at system start (R280) -/

section
variable {c : Cfg} {b : Nat} {r : Bus}

/-- Every record of the registry at system start is the reset record of its bus. -/
theorem State.resetWith_get (hr : (State.resetWith c).buses[b]? = some r) : r = Bus.reset b := by
  obtain ⟨i, hi, rfl⟩ : ∃ i, (List.range c.nbus)[b]? = some i ∧ Bus.reset i = r := by
    simpa [State.resetWith, List.getElem?_map] using hr
  obtain ⟨-, rfl⟩ : b < c.nbus ∧ b = i := by simpa [List.getElem?_eq_some_iff] using hi
  rfl

theorem State.resetWith_everyBus {p : Nat → Bus → Prop} (h : ∀ b, p b (Bus.reset b)) : (State.resetWith c).everyBus p :=
  fun b _ hr => State.resetWith_get hr ▸ h b

theorem Bus.reset_ok (c : Cfg) (role : Role) (b : Nat) : (Bus.reset b).ok c role := by
  refine ⟨rfl, fun w hw => ?flight, ?role, fun hi => ?stretch⟩
  case flight => cases hw
  case role => cases role <;> exact ⟨rfl, rfl, rfl⟩
  case stretch => cases hi

theorem Bus.reset_oneInFlight (b : Nat) : (Bus.reset b).oneInFlight := ⟨fun _ => rfl, fun _ => ⟨rfl, rfl⟩⟩

end

/-- Settles O8: each field of a record is the reset record's. -/
theorem systemStartLeavesTheSpecsValues : Obligations.SystemStartLeavesTheSpecsValues := by
  intro c
  refine ⟨by simp [State.resetWith], rfl, rfl, rfl, rfl, State.resetWith_everyBus fun b => ⟨?engine, ?protocol, ?slave⟩⟩
  case engine => simp [Bus.reset]
  case protocol => simp [Bus.reset, cellAt]
  case slave => simp [Bus.reset]

/-- Settles O10: memory is empty, and the reset record has both invariants whatever the bus's role. -/
theorem systemStartMeetsTheInvariant : Obligations.SystemStartMeetsTheInvariant := fun c =>
  ⟨(State.inv_iff _).2 ⟨rfl, State.resetWith_everyBus fun b => Bus.reset_ok c _ b⟩, State.resetWith_everyBus Bus.reset_oneInFlight⟩

/-! ### Only the HOST acts (R281) -/

/-- Nothing is in flight or pending on the bus, and its slave is off: none of its agents has a step to take. -/
structure Bus.Dormant (r : Bus) : Prop where
  landed : r.inflight = none
  served : r.mif = false
  slaveOff : r.senabled = false

section
variable {s : State} (h : s.everyBus fun _ r => r.Dormant)
include h

theorem busCompleteStep_dormant (b : Nat) : busCompleteStep b s = .next s := by
  cases hb : s.buses[b]? with
  | none => simp [busCompleteStep, hb]
  | some r => simp [busCompleteStep, hb, (h b r hb).landed]

theorem busFaultStep_dormant (b : Nat) : busFaultStep b s = .next s := by
  cases hb : s.buses[b]? with
  | none => simp [busFaultStep, hb]
  | some r => simp [busFaultStep, hb, (h b r hb).landed]

theorem mengStep_dormant (b : Nat) : mengStep b s = .next s := by
  cases hb : s.buses[b]? with
  | none => simp [mengStep, hb]
  | some r => simp [mengStep, hb, (h b r hb).served]

theorem sengStep_dormant (b : Nat) : sengStep b s = .next s := by
  cases hb : s.buses[b]? with
  | none => simp [sengStep, hb]
  | some r => exact sengStep_disabled hb (h b r hb).slaveOff

theorem rmasterStep_dormant (b : Nat) (e : RemoteEvent) : rmasterStep b e s = .next s := by
  cases hb : s.buses[b]? with
  | none => simp [rmasterStep, hb]
  | some r => exact rmasterStep_blocked hb e (.inl (h b r hb).slaveOff)

end

/-- A handler that changes nothing, stuck or not, leaves nothing of its turn behind. -/
theorem handlerTurn_idle {a : Agent} {handler : State → Out} {s : State} (h : handler (s.enter a) = .next (s.enter a)) :
    mapNext State.leave (handlerTurn a handler s) = .next s.leave := by
  by_cases hs : a ∈ s.stuck
  · rw [handlerTurn_stuck hs]
    rfl
  · rw [handlerTurn_taken hs (by simp [h]), h]
    rfl

/-- Where every bus is dormant a turn of any agent but the HOST changes nothing. -/
theorem step_dormant {s : State} {t : Turn} (hh : s.halted = false) (ht : s.turn = t) (hhost : t ≠ .host)
    (h : s.everyBus fun _ r => r.Dormant) : step s = .next s.popTurn.leave := by
  have hentered (a : Agent) : (s.popTurn.enter a).everyBus fun _ r => r.Dormant := by
    simpa [State.everyBus] using h
  rw [step_turn hh ht]
  cases t with
  | host => exact absurd rfl hhost
  | busComplete b => exact congrArg _ (busCompleteStep_dormant (hentered _) b)
  | busFault b => exact congrArg _ (busFaultStep_dormant (hentered _) b)
  | meng b => exact handlerTurn_idle (mengStep_dormant (hentered _) b)
  | seng b => exact handlerTurn_idle (sengStep_dormant (hentered _) b)
  | rmaster b e => exact congrArg _ (rmasterStep_dormant (hentered _) b e)

/-- Settles O9: at system start every bus is dormant, and the HOST is the actor a step leaves. -/
theorem afterResetOnlyTheHostActs : Obligations.AfterResetOnlyTheHostActs := fun _ _ _ ht =>
  step_dormant rfl rfl ht (State.resetWith_everyBus fun _ => ⟨rfl, rfl, rfl⟩)

/-! ### A result callback that starts a transfer on its own bus (R289) -/

theorem State.raiseFatal_halted (site : Nat) (code : FatalCode) (info : Int) (s : State) :
    (s.raiseFatal site code info).halted = true := rfl

theorem andThen_halted {s : State} {k : State → Out} (h : s.halted = true) : andThen (.next s) k = .next s := by
  simp [andThen, h]

/-- A command that halts the system ends the upcalled code. -/
theorem runActs_halted {c : CmdWord} {rest : List Act} {s t : State} (hrun : runCmd c s = .next t) (ht : t.halted = true) :
    runActs (.cmd c :: rest) s = .next t := by
  rw [runActs, hrun, andThen_halted ht]

/-- The application's callback runs the acts of its draw after its upcall is recorded. -/
theorem runOnDone_called (n b : Nat) (result : Bool) (s : State) :
    runOnDone (.user n) b result s = runActs s.answer.acts (s.called (.onDone (.user n) b result)) := rfl

/-- The STOP_DONE row where the callback halts the system: the transfer does not end. -/
theorem runProto_stopDone_halted {b : Nat} {nack : Bool} {r : Bus} {cb : CallbackId} {s t : State} (hp : r.pstate = .stopDone)
    (hcb : r.rcb = some cb) (ht : runOnDone cb b r.result s = .next t) (hh : t.halted = true) :
    runProto b nack r s = .next t := by
  simp only [runProto, protoRow_stopDone hp hcb]
  rw [ht, andThen_halted hh]

section
variable {c : CmdWord} {bus : BusField} {a7 : Addr7} {wb rb : Option Nat} {wl rl cb : Nat} {s : State} {r : Bus}

/-- A command that decodes to a transfer on a master bus with a transaction alive raises E_BUSY. -/
theorem runCmd_tAsync_busy (hc : decodeCmd s.cfg.limits c = .ok (.tAsync bus a7 wb wl rb rl cb)) (hr : s.busIs bus .master r)
    (hl : 0 < wl + rl) (hy : r.busy = true) : runCmd c s = .next (s.raiseFatal 150 .busy bus.toNat) := by
  rw [runCmd_decoded hc, exec_tAsync, withTransfer_busy hr hl hy]

/-- The callback's upcall is recorded, and its first command, such a transfer, ends it. -/
theorem runOnDone_busy {n b : Nat} {result : Bool} {rest : List Act} (hacts : s.answer.acts = .cmd c :: rest)
    (hc : decodeCmd s.cfg.limits c = .ok (.tAsync bus a7 wb wl rb rl cb)) (hr : s.busIs bus .master r) (hl : 0 < wl + rl)
    (hy : r.busy = true) :
    runOnDone (.user n) b result s = .next ((s.called (.onDone (.user n) b result)).raiseFatal 150 .busy bus.toNat) := by
  have hcalled : (s.called (.onDone (.user n) b result)).busIs bus .master r := by simpa [State.busIs] using hr
  rw [runOnDone_called, hacts]
  exact runActs_halted (runCmd_tAsync_busy (by simpa using hc) hcalled hl hy) (State.raiseFatal_halted ..)

end

/-- Settles O52: the callback runs while BUSY is still 1, so its command raises E_BUSY, and the halt ends the callback, the row and
the step. -/
theorem resultCallbackStartingOnItsBusIsFatal : Obligations.ResultCallbackStartingOnItsBusIsFatal := by
  rintro s _ n r c rest bus a7 wb rb wl rl cb hh ht hs hb hmid ho hp hcb hrole hacts hc rfl hl
  have hacts' : (s.taken bus.toNat r).answer.acts = .cmd c :: rest :=
    (congrArg Answer.acts (State.answer_congr rfl rfl)).trans hacts
  have htaken : (s.taken bus.toNat r).busIs bus .master { r with mif := false } :=
    ⟨State.taken_get hb, by simpa using hrole⟩
  have hdone := runOnDone_busy (n := n) (b := bus.toNat) (result := r.result) hacts' (by simpa using hc) htaken hl hmid.1
  have hstep := step_meng_proto hh ht hs hb hmid ho fun _ =>
    runProto_stopDone_halted hp hcb hdone (State.raiseFatal_halted ..)
  exact ⟨_, hstep, rfl, by simp [State.taken]⟩

end Sys2Proof.Machine
